-- ==== Sys2Proof/Word.lean ====
section
/-! DEFINITION. The bit-vector types of the block: a command word, a shifted word, a byte. -/

namespace Sys2Proof

/-- A command word of the command port (30_encoding R71). -/
abbrev Cmd := BitVec 64

/-- A shifted word: `WORD_BITS` = 16 (00_scope R7). -/
abbrev Word := BitVec 16

/-- Eight bits: an operand byte, the packed configuration byte, a duty-cycle value. -/
abbrev Byte := BitVec 8

end Sys2Proof
end

