-- ==== Sys2Proof/Syntax.lean ====
section
/-! DEFINITION. The five lines, the commands (one constructor per row of spec/opcode_table.json) and the
causes of a model-level fault. -/

namespace Sys2Proof

/-- The five lines (00_scope R10); `dout` is DO, a word Lean keeps for itself. -/
inductive Line where
  | di | clk | le | oe | dout
deriving DecidableEq, Repr

/-- The commands, one constructor per row of the opcode map (30_encoding R81). Operands have the widths of their
fields (30 R72 to R78); a one-bit field is a Bool. -/
inductive Instr where
  /-- ATTACH: chain length `N`, wiring `WIRES` (40 R100). -/
  | attach (n : BitVec 8) (wires : BitVec 5)
  /-- SHIFT: word `W` (41 R114). -/
  | shift (w : Word)
  /-- SEND: word `W` (41 R115). -/
  | send (w : Word)
  /-- ALL: fill level `LEVEL` (41 R116). -/
  | all (level : Bool)
  /-- SEND_BITS: `COUNT` bits of `BITS`, `DELAY` milliseconds after each (41 R117). -/
  | sendBits (count : BitVec 5) (delay : BitVec 16) (bits : Word)
  /-- LATCH (42 R131). -/
  | latch
  /-- NORMAL (43 R148). -/
  | normal
  /-- ERROR_DETECT (44 R160). -/
  | errorDetect
  /-- CONFIG: `CUR`, `BAND`, `GAIN` (45 R180). -/
  | config (cur band gain : Byte)
  /-- ON (46 R190). -/
  | on
  /-- OFF (46 R191). -/
  | off
  /-- BRIGHTNESS: `LEVEL` (46 R192). -/
  | brightness (level : Byte)
  /-- RESET, the protocol reset of the chip (47 R200). -/
  | reset
  /-- FLASH: `LEAVE_ON`, `BRACKET` and `ON_MS` (47 R201). -/
  | flash (leaveOn : Bool) (bracket : BitVec 16) (onMs : BitVec 32)
deriving DecidableEq, Repr

/-- The `mnemonic` column of the opcode map (30_encoding R81). -/
def Instr.mnemonic : Instr → String
  | .attach _ _ => "ATTACH"
  | .shift _ => "SHIFT"
  | .send _ => "SEND"
  | .all _ => "ALL"
  | .sendBits _ _ _ => "SEND_BITS"
  | .latch => "LATCH"
  | .normal => "NORMAL"
  | .errorDetect => "ERROR_DETECT"
  | .config _ _ _ => "CONFIG"
  | .on => "ON"
  | .off => "OFF"
  | .brightness _ => "BRIGHTNESS"
  | .reset => "RESET"
  | .flash _ _ _ => "FLASH"

/-- The cause of a model-level fault: a bit of `FAULT` (60_exceptions R214). -/
inductive FaultCause where
  /-- Bit 0: no legal opcode (30 R82). -/
  | illegalOpcode
  /-- Bit 1: a reserved bit of the opcode's format is 1 (30 R72 to R78). -/
  | reservedNonzero
  /-- Bit 2: an operand value outside its range (30 R79). -/
  | operandRange
deriving DecidableEq, Repr

end Sys2Proof
end

