-- ==== Sys2Proof/WellFormed.lean ====
section
/-! DEFINITION. The value constraints of a command (30_encoding R79), as one decidable check. -/

namespace Sys2Proof

/-- The value constraints of 30 R79: ATTACH needs `N ≠ 0` with DI and CLK wired, SEND_BITS needs `1 ≤ COUNT ≤ 16`,
and no other command has one. -/
def Instr.wellFormed : Instr → Bool
  | .attach n wires => n != 0#8 && wires.getLsbD 0 && wires.getLsbD 1
  | .shift _ => true
  | .send _ => true
  | .all _ => true
  | .sendBits count _ _ => decide (1 ≤ count.toNat) && decide (count.toNat ≤ 16)
  | .latch => true
  | .normal => true
  | .errorDetect => true
  | .config _ _ _ => true
  | .on => true
  | .off => true
  | .brightness _ => true
  | .reset => true
  | .flash _ _ _ => true

end Sys2Proof
end

