-- ==== Sys2Proof/Decode.lean ====
section
/-! DEFINITION. The decoder, total on every 64-bit word, and the encoder, both written from the formats of
30_encoding R71 to R78 and the opcode map R81. The decoder makes the first two checks of R80 (opcode, then reserved
bits). The third (value range, R79) depends on the operands alone and is the first thing the meanings of ATTACH and
SEND_BITS do, so that a word which selects a row of R81 is read as that row's command (log entry 11). -/

namespace Sys2Proof

/-- The opcode field `CMD[63:56]` (30 R71). -/
def opcodeOf (w : Cmd) : Byte := w.extractLsb' 56 8

/-- The command formats of 30 R72 to R78. -/
inductive Format where
  | f0 | fa | fw | fl | fb | fc | fv | ff
deriving DecidableEq, Repr

/-- The reserved bits of a format: the rows marked "reserved, 0" of 30 R72 to R78. -/
def reservedBits : Format → Cmd
  | .f0 => 0x00FFFFFFFFFFFFFF#64
  | .fa => 0x0000FFFFFFFFFFE0#64
  | .fw => 0x00FFFFFFFFFF0000#64
  | .fl => 0x00FFFFFFFFFFFFFE#64
  | .fb => 0x00E00000FFFF0000#64
  | .fc => 0x00FFFFFFFF000000#64
  | .fv => 0x00FFFFFFFFFFFF00#64
  | .ff => 0x00FE000000000000#64

/-- The second check of 30 R80: the command of a legal opcode, unless a reserved bit of its format is 1. -/
def withReserved (f : Format) (w : Cmd) (i : Instr) : Except FaultCause Instr :=
  if w &&& reservedBits f = 0#64 then .ok i else .error .reservedNonzero

/-- The decoder: opcode first, then the reserved bits (30 R80), fields zero-extended (30 R79). A reserved opcode is
rejected as ILLEGAL_OPCODE and a nonzero reserved bit as RESERVED_NONZERO (30 R82). -/
def decode (w : Cmd) : Except FaultCause Instr :=
  match (opcodeOf w).toNat with
  | 0x01 => withReserved .fa w (.attach (w.extractLsb' 48 8) (w.extractLsb' 0 5))
  | 0x02 => withReserved .fw w (.shift (w.extractLsb' 0 16))
  | 0x03 => withReserved .fw w (.send (w.extractLsb' 0 16))
  | 0x04 => withReserved .fl w (.all (w.getLsbD 0))
  | 0x05 => withReserved .fb w (.sendBits (w.extractLsb' 48 5) (w.extractLsb' 32 16) (w.extractLsb' 0 16))
  | 0x06 => withReserved .f0 w .latch
  | 0x07 => withReserved .f0 w .normal
  | 0x08 => withReserved .f0 w .errorDetect
  | 0x09 => withReserved .fc w (.config (w.extractLsb' 16 8) (w.extractLsb' 8 8) (w.extractLsb' 0 8))
  | 0x0A => withReserved .f0 w .on
  | 0x0B => withReserved .f0 w .off
  | 0x0C => withReserved .fv w (.brightness (w.extractLsb' 0 8))
  | 0x0D => withReserved .f0 w .reset
  | 0x0E => withReserved .ff w (.flash (w.getLsbD 48) (w.extractLsb' 32 16) (w.extractLsb' 0 32))
  | _ => .error .illegalOpcode

/-- The encoder, field by field from bit 63 down (30 R72 to R78, opcodes of R81). -/
def encode : Instr → Cmd
  | .attach n wires => 0x01#8 ++ n ++ 0#43 ++ wires
  | .shift w => 0x02#8 ++ 0#40 ++ w
  | .send w => 0x03#8 ++ 0#40 ++ w
  | .all level => 0x04#8 ++ 0#55 ++ BitVec.ofBool level
  | .sendBits count delay bits => 0x05#8 ++ 0#3 ++ count ++ delay ++ 0#16 ++ bits
  | .latch => 0x06#8 ++ 0#56
  | .normal => 0x07#8 ++ 0#56
  | .errorDetect => 0x08#8 ++ 0#56
  | .config cur band gain => 0x09#8 ++ 0#32 ++ cur ++ band ++ gain
  | .on => 0x0A#8 ++ 0#56
  | .off => 0x0B#8 ++ 0#56
  | .brightness level => 0x0C#8 ++ 0#48 ++ level
  | .reset => 0x0D#8 ++ 0#56
  | .flash leaveOn bracket onMs => 0x0E#8 ++ 0#7 ++ BitVec.ofBool leaveOn ++ bracket ++ onMs

/-- The `match` and `mask` columns of the opcode map (30 R81): a word w selects the row when `(w & mask) = match`.
Named by the command that the row's word stands for; the operands play no part. -/
def rowMatch : Instr → Cmd
  | .attach _ _ => 0x0100000000000000#64
  | .shift _ => 0x0200000000000000#64
  | .send _ => 0x0300000000000000#64
  | .all _ => 0x0400000000000000#64
  | .sendBits _ _ _ => 0x0500000000000000#64
  | .latch => 0x0600000000000000#64
  | .normal => 0x0700000000000000#64
  | .errorDetect => 0x0800000000000000#64
  | .config _ _ _ => 0x0900000000000000#64
  | .on => 0x0A00000000000000#64
  | .off => 0x0B00000000000000#64
  | .brightness _ => 0x0C00000000000000#64
  | .reset => 0x0D00000000000000#64
  | .flash _ _ _ => 0x0E00000000000000#64

/-- The `mask` column of the opcode map (30 R81). -/
def rowMask : Instr → Cmd
  | .attach _ _ => 0xFF00FFFFFFFFFFE0#64
  | .shift _ => 0xFFFFFFFFFFFF0000#64
  | .send _ => 0xFFFFFFFFFFFF0000#64
  | .all _ => 0xFFFFFFFFFFFFFFFE#64
  | .sendBits _ _ _ => 0xFFE00000FFFF0000#64
  | .latch => 0xFFFFFFFFFFFFFFFF#64
  | .normal => 0xFFFFFFFFFFFFFFFF#64
  | .errorDetect => 0xFFFFFFFFFFFFFFFF#64
  | .config _ _ _ => 0xFFFFFFFFFF000000#64
  | .on => 0xFFFFFFFFFFFFFFFF#64
  | .off => 0xFFFFFFFFFFFFFFFF#64
  | .brightness _ => 0xFFFFFFFFFFFFFF00#64
  | .reset => 0xFFFFFFFFFFFFFFFF#64
  | .flash _ _ _ => 0xFFFE000000000000#64

/-- The word whose low `nbits` bits are those of `w` and whose other bits are 0. A command is one 64-bit word, so
there is no order of bytes or words to apply (30 R71). -/
def tableCmd (nbits w : Nat) : Cmd := BitVec.ofNat 64 (w % 2 ^ nbits)

/-- The command the decoder reads from the word whose bits are `w`. -/
def decodeTableWord (nbits w : Nat) : Option Instr :=
  match decode (tableCmd nbits w) with
  | .ok i => some i
  | .error _ => none

end Sys2Proof
end

