-- ==== Sys2Proof/Machine/Waveforms.lean ====
section
/-! DEFINITION. The waveform tables: what a frame and a table are, the parameter `WAVE_TABLES` that holds the five of them
(00_scope R7, 20_memory R52), its default frames (43_mode R140 to R144), and two properties of a substituted set. -/

namespace Sys2Proof.Machine

/-- One waveform frame: the levels of CLK, OE and LE, driven at the same time (00 R10, 10 R37). -/
structure Frame where
  clk : Bool
  oe : Bool
  le : Bool
deriving DecidableEq, Repr

/-- A frame written as in the tables of 43_mode: CLK, OE, LE. -/
def frame (c o l : Bool) : Frame := ⟨c, o, l⟩

/-- The tags of the five tables (20 R52). -/
inductive Table where
  | trans | normal | cfg | ed | rr
deriving DecidableEq, Repr

/-- The parameter `WAVE_TABLES`: the frames of the five tables, a read-only constant store, open to substitution (00 R7,
20 R52, 93 I12; log entry 9). -/
structure WaveTables where
  /-- `T_TRANS` -/
  trans : List Frame
  /-- `T_NORMAL` -/
  normal : List Frame
  /-- `T_CFG` -/
  cfg : List Frame
  /-- `T_ED` -/
  ed : List Frame
  /-- `T_RR` -/
  rr : List Frame
deriving DecidableEq, Repr

/-- The frames of the table a tag names (20 R52). -/
def WaveTables.frames (ws : WaveTables) : Table → List Frame
  | .trans => ws.trans
  | .normal => ws.normal
  | .cfg => ws.cfg
  | .ed => ws.ed
  | .rr => ws.rr

/-- The default of `WAVE_TABLES`: the frames of 43 R140 to R144, which the spec rebuilt from prose (D5 to D10; log entry
9). -/
def standardTables : WaveTables where
  trans := [frame true true false, frame false true false, frame true false false,
            frame false true false, frame true true false, frame false true false]
  normal := [frame true true false, frame false true false, frame true true false, frame false true false]
  cfg := [frame true true true, frame false true true, frame true true false, frame false true false]
  ed := [frame true true true, frame false true true, frame true true false,
         frame false true false, frame true false false, frame false false false]
  rr := [frame true false false, frame true true false]

/-- A table that drives LE to 1 ends with a frame that has LE = 0 (42 R133). -/
def endsLatchLow (fs : List Frame) : Bool := fs.getLast?.all fun f => !f.le

/-- Every table ends with LE = 0 (42 R133). -/
def WaveTables.latchLow (ws : WaveTables) : Bool :=
  endsLatchLow ws.trans && endsLatchLow ws.normal && endsLatchLow ws.cfg && endsLatchLow ws.ed && endsLatchLow ws.rr

/-- The five tables have frames, and no two have the same: only then does a trace show which table was played. -/
def WaveTables.distinct (ws : WaveTables) : Bool :=
  !ws.trans.isEmpty && !ws.normal.isEmpty && !ws.cfg.isEmpty && !ws.ed.isEmpty && !ws.rr.isEmpty
    && decide [ws.trans, ws.normal, ws.cfg, ws.ed, ws.rr].Nodup

end Sys2Proof.Machine
end

