-- ==== Sys2Proof/Config.lean ====
section
/-! DEFINITION. What an implementation fixes and what the spec leaves as a draw (00_scope R7). Every constant
here but `waveTables` is opaque: it has no body, so no statement can rest on its value. Log entries 3 to 9 and 16. -/

namespace Sys2Proof.Config

/-- `DEBUG_ENABLED`: whether warning events are emitted (00 R7, D16). OPEN. Log entry 3. -/
opaque debugEnabled : Bool

/-- `OE_PWM_CAPABLE`: the platform's answer to the capability query (00 R7, 40 R103). OPEN. Log entry 3. -/
opaque oePwmCapable : Bool

/-- `DEVICE_ID`: the tag on warning events (00 R7, D34). OPEN; the spec gives it no type, the model takes a natural
number (DESIGN CHOICE, log entry 4). -/
opaque deviceId : Nat

/-- How far `T_SETTLE_US` lies above its minimum of 2 (00 R7, 44 R162). OPEN. Log entry 5. -/
opaque settleExtraUs : Nat

/-- `WAVE_TABLES`: the five waveform tables (00 R7, 20 R52). OPEN to substitution; here the default that the spec gives (43
R140 to R144). State carries the tables in its parameters, so a statement about every state is one about every set of
tables. Log entry 9. -/
def waveTables : Machine.WaveTables := Machine.standardTables

/-- `T_OE_PULSE_MAX_US`: the bound on the transition table's OE pulse, about 2 (00 R7, 70 R242). Only the host's timing
predicate of Safety.lean reads it. The spec gives it no type; a whole number of microseconds is a DESIGN CHOICE. Log entry
16. -/
opaque oePulseMaxUs : Nat

/-- `DO_SAMPLE`: the `k`-th data-out sample since power-on, a free value (00 R7, 44 R165). Log entry 6. -/
opaque doSample : Nat → Bool

/-- `DO_LEVEL_AFTER_ED`: the level the DO line carries after it was made an output for the `k`-th time, a free value
(00 R7, 44 R167). Log entry 7. -/
opaque doLevelAfterEd : Nat → Bool

/-- The physical level of a line (numbered as the bits of `WIRED`) whose recorded level is X, after `n` events: a free
value (10 R30, 70 R232). Log entry 7. -/
opaque unknownLevel : Nat → Nat → Bool

/-- `FIDX` once no table is being played: a free value (10 R33, 93 I28). Log entry 8. -/
opaque freeFidx : Nat → BitVec 3

/-- `BIDX` once no bit is being shifted or read: a free value (10 R33, 93 I28). Log entry 8. -/
opaque freeBidx : Nat → BitVec 4

/-- `WIDX` once ALL has ended: a free value (10 R33, 93 I28). Log entry 8. -/
opaque freeWidx : Nat → BitVec 8

/-- `ACC` once ERROR_DETECT has ended: a free value (10 R33, 93 I28). Log entry 8. -/
opaque freeAcc : Nat → BitVec 16

end Sys2Proof.Config
end

