-- ==== Sys2Proof/Machine/State.lean ====
section
/-! DEFINITION. The state of the block as plain data (10_state R20 to R39), the events of its trace (00_scope R10),
the two reason types and the state after power-on (70_reset_and_hazards R230). -/

namespace Sys2Proof.Machine

/-- `DIRn` of a line: never configured, output or input (10 R28). -/
inductive LineDir where
  | uncfg | out | inp
deriving DecidableEq, Repr

/-- `LVL` of a line: 0, 1 or the spec's X, "unknown" (10 R28). -/
inductive Level where
  | low | high | x
deriving DecidableEq, Repr

/-- `OEM`, the drive mode of OE: plain digital output or hardware duty cycle (10 R29). -/
inductive OeMode where
  | dig | pwm
deriving DecidableEq, Repr

/-- `DUTY`: an 8-bit value, or the spec's X it has at reset (10 R29). -/
inductive Duty where
  | x
  | value (d : Byte)
deriving DecidableEq, Repr

/-- `MODE`, the block's record of the chip's protocol mode (10 R24); the 2-bit encoding is `Mode.code`. -/
inductive Mode where
  | unknown | normal | configuration | errorDetect
deriving DecidableEq, Repr

/-- `PHASE` of the micro-sequencer (10 R33). -/
inductive Phase where
  | idle | preload | trans | target | settle | rr | read | payload | shift | latch | wait
deriving DecidableEq, Repr

/-- The warning codes of 60_exceptions R211: 1, 2 and 3. -/
inductive Warning where
  | unwired | redundantAttach | capabilityMismatch
deriving DecidableEq, Repr

/-- The events of the trace (00 R10). A level is `true` for 1 (high). The model has no clock: the waits are events
(70 R255, log entry 1). -/
inductive Event where
  /-- `DIR(L, OUT)` -/
  | dirOut (l : Line)
  /-- `DIR(L, IN)` -/
  | dirIn (l : Line)
  /-- `DRV(L, v)` -/
  | drv (l : Line) (v : Bool)
  /-- `FRM(c, o, l)` -/
  | frm (f : Frame)
  /-- `PWM(d)` -/
  | pwm (d : Byte)
  /-- `QRY -> b` -/
  | qry (b : Bool)
  /-- `SMP -> b` -/
  | smp (b : Bool)
  /-- `US(n)` -/
  | us (n : Nat)
  /-- `MS(n)` -/
  | ms (n : Nat)
  /-- `WARN(w)`, tagged with `DEVICE_ID` -/
  | warn (w : Warning) (device : Nat)
deriving DecidableEq, Repr

/-- One value for each of the five lines. -/
structure PerLine (α : Type) where
  di : α
  clk : α
  le : α
  oe : α
  dout : α
deriving DecidableEq, Repr

/-- The line state (10 R28, R29). -/
structure Lines where
  /-- `DIRn` -/
  dir : PerLine LineDir
  /-- `LVL` -/
  lvl : PerLine Level
  /-- `OEM` -/
  oem : OeMode
  /-- `DUTY` -/
  duty : Duty
deriving DecidableEq, Repr

/-- The OPEN parameters of 00 R7 that a command reads, carried in the state so that a statement about every state is
one about every build. No command writes them (log entries 3, 4, 5 and 9). -/
structure Params where
  /-- `OE_PWM_CAPABLE` -/
  oePwmCapable : Bool
  /-- `DEVICE_ID` -/
  deviceId : Nat
  /-- `T_SETTLE_US` less its minimum of 2 -/
  settleExtraUs : Nat
  /-- `WAVE_TABLES`, the read-only store of waveform tables (20 R52) -/
  tables : WaveTables
deriving DecidableEq, Repr

/-- The state of the block (10 R39), its inputs, and the model's own counters. -/
structure State where
  /-- `CHAIN` (10 R20) -/
  chain : BitVec 8
  /-- `WIRED` (10 R21) -/
  wired : BitVec 5
  /-- `PWMCAP` (10 R22) -/
  pwmcap : Bool
  /-- `DEBUG` (10 R23), read-only -/
  debug : Bool
  /-- `MODE` (10 R24) -/
  mode : Mode
  /-- `RESULT` (10 R25) -/
  result : Word
  /-- `FAULT` (10 R26), sticky -/
  fault : BitVec 3
  /-- `DIRn`, `LVL`, `OEM` and `DUTY` (10 R28, R29) -/
  lines : Lines
  /-- `PHASE` (10 R33) -/
  phase : Phase
  /-- `FIDX` (10 R33) -/
  fidx : BitVec 3
  /-- `BIDX` (10 R33) -/
  bidx : BitVec 4
  /-- `WIDX` (10 R33) -/
  widx : BitVec 8
  /-- `ACC` (10 R33) -/
  acc : Word
  /-- `TRACE` (10 R35), in emission order -/
  trace : List Event
  /-- The parameters of the build (00 R7) -/
  par : Params
  /-- The words the host has issued and the command port has not yet accepted, in order (30 R70, 10 R32; log entry 2) -/
  pending : List Cmd
  /-- The model's own: DO samples already fixed by the outside; past its end a sample is the free value `DO_SAMPLE`
  (log entry 6) -/
  doIn : List Bool
  /-- The model's own: how many DO samples the block has taken (log entry 6) -/
  samplesTaken : Nat
  /-- The model's own: how many times DO was made an output (log entry 7) -/
  doDrives : Nat
  /-- The model's own: how many micro-register values were left free (log entry 8) -/
  draws : Nat
deriving DecidableEq, Repr

/-- The reasons a step can stop with a fault: none. No command of the block traps, aborts or hangs (60 R210), and a
model-level fault sets a bit of `FAULT` and goes on (60 R216). Safe: an empty type hides no stop. -/
inductive Fault where
deriving DecidableEq, Repr

/-- The reasons a step can be refused. -/
inductive Refusal where
  /-- Raised by an arm of `exec` whose instruction has no meaning yet; no arm does. Safe: the model stops where the
  block goes on. -/
  | notModelled (mnemonic : String)
deriving DecidableEq, Repr

/-- The state right after power-on (70 R230, 10 R39). The micro-registers, which the spec leaves unspecified, and the
model's own counters take the values of log entries 2, 6, 7 and 8. -/
def State.reset : State where
  chain := 0#8
  wired := 0#5
  pwmcap := false
  debug := Config.debugEnabled
  mode := .unknown
  result := 0#16
  fault := 0#3
  lines :=
    { dir := ⟨.uncfg, .uncfg, .uncfg, .uncfg, .uncfg⟩
      lvl := ⟨.x, .x, .x, .x, .x⟩
      oem := .dig
      duty := .x }
  phase := .idle
  fidx := 0#3
  bidx := 0#4
  widx := 0#8
  acc := 0#16
  trace := []
  par := ⟨Config.oePwmCapable, Config.deviceId, Config.settleExtraUs, Config.waveTables⟩
  pending := []
  doIn := []
  samplesTaken := 0
  doDrives := 0
  draws := 0

end Sys2Proof.Machine
end

