-- ==== Sys2Proof/Machine/Flags.lean ====
section
/-! DEFINITION. The block has no flags or condition codes (10_state R34). Its only flag-like register is the sticky
`FAULT` (60_exceptions R214); here are its bits, the warning codes (60 R211) and the readback accumulator's step
(44_error_detect R165). -/

namespace Sys2Proof.Machine

/-- The bit of `FAULT` a cause sets (60 R214). -/
def faultBit : FaultCause → BitVec 3
  | .illegalOpcode => 0b001#3
  | .reservedNonzero => 0b010#3
  | .operandRange => 0b100#3

/-- `FAULT` after a cause: its bit becomes 1, no bit is cleared (60 R216). -/
def faultAfter (fault : BitVec 3) (c : FaultCause) : BitVec 3 := fault ||| faultBit c

/-- The warning codes 1, 2 and 3 (60 R211). -/
def Warning.code : Warning → Nat
  | .unwired => 1
  | .redundantAttach => 2
  | .capabilityMismatch => 3

/-- One step of the readback accumulator: shift left, or the sample in (44 R165). -/
def accStep (acc : Word) (b : Bool) : Word := (acc <<< 1) ||| (BitVec.ofBool b).setWidth 16

/-- The readback word of a list of samples, first sample first (44 R165, 20 R56). -/
def readbackWord (samples : List Bool) : Word := samples.foldl accStep 0x0000#16

end Sys2Proof.Machine
end

