-- ==== Sys2Proof/Machine/Lines.lean ====
section
/-! DEFINITION. The line state: reading and writing one line, and the effect of each event on the line state
(10_state R36). The effect is the one place where `DIRn`, `LVL`, `OEM` and `DUTY` change. -/

namespace Sys2Proof.Machine

/-- The bit of `WIRED` and of `WIRES` that stands for a line (10 R21, 30 R73). -/
def lineBit : Line → Nat
  | .di => 0
  | .clk => 1
  | .le => 2
  | .oe => 3
  | .dout => 4

/-- The value held for one line. -/
def PerLine.get {α : Type} (p : PerLine α) : Line → α
  | .di => p.di
  | .clk => p.clk
  | .le => p.le
  | .oe => p.oe
  | .dout => p.dout

/-- The values with one line's replaced. -/
def PerLine.set {α : Type} (p : PerLine α) (l : Line) (a : α) : PerLine α :=
  match l with
  | .di => { p with di := a }
  | .clk => { p with clk := a }
  | .le => { p with le := a }
  | .oe => { p with oe := a }
  | .dout => { p with dout := a }

/-- The level a written bit stands for: 1 is high, 0 is low (00 R15). -/
def levelOf (v : Bool) : Level := if v then .high else .low

/-- `OEM` after an event that makes line `l` a plain digital output or drives it: DIG when `l` is OE (10 R36). -/
def oemDigital (l : Line) (m : OeMode) : OeMode := if l = .oe then .dig else m

/-- `DIR(L, OUT)`: the recorded level stays only when the line was already an output and was not OE in PWM mode;
otherwise it becomes X. OE leaves PWM mode (10 R36). -/
def Lines.dirOut (ls : Lines) (l : Line) : Lines :=
  { ls with
    dir := ls.dir.set l .out
    lvl := if ls.dir.get l = .out ∧ ¬ (l = .oe ∧ ls.oem = .pwm) then ls.lvl else ls.lvl.set l .x
    oem := oemDigital l ls.oem }

/-- `DIR(L, IN)`: the line is no longer driven and its level is X (10 R36). -/
def Lines.dirIn (ls : Lines) (l : Line) : Lines :=
  { ls with dir := ls.dir.set l .inp, lvl := ls.lvl.set l .x }

/-- `DRV(L, v)`: the level is `v`; OE leaves PWM mode (10 R36). -/
def Lines.drv (ls : Lines) (l : Line) (v : Bool) : Lines :=
  { ls with lvl := ls.lvl.set l (levelOf v), oem := oemDigital l ls.oem }

/-- `FRM(c, o, l)`: CLK, OE and LE change together; OE leaves PWM mode (10 R36, R37). -/
def Lines.frm (ls : Lines) (f : Frame) : Lines :=
  { ls with
    lvl := { ls.lvl with clk := levelOf f.clk, oe := levelOf f.oe, le := levelOf f.le }
    oem := .dig }

/-- `PWM(d)`: OE carries the duty cycle and its level is X (10 R36). -/
def Lines.pwm (ls : Lines) (d : Byte) : Lines :=
  { ls with oem := .pwm, duty := .value d, lvl := { ls.lvl with oe := .x } }

/-- The effect of each event on the line state (10 R36). -/
def Lines.apply (ls : Lines) : Event → Lines
  | .dirOut l => ls.dirOut l
  | .dirIn l => ls.dirIn l
  | .drv l v => ls.drv l v
  | .frm f => ls.frm f
  | .pwm d => ls.pwm d
  | .qry _ => ls
  | .smp _ => ls
  | .us _ => ls
  | .ms _ => ls
  | .warn _ _ => ls

/-- The effect of a list of events, in order. -/
def Lines.applyAll (ls : Lines) (es : List Event) : Lines := es.foldl Lines.apply ls

end Sys2Proof.Machine
end

