-- ==== Sys2Proof/Machine/Operands.lean ====
section
/-! DEFINITION. What the commands compute from their operands: the value checks (30_encoding R79), ALL's fill word,
the configuration packer (45_config R182), the duty inversion (46_power R192), the settling time and the encoding of
`MODE` (10_state R24). -/

namespace Sys2Proof.Machine

/-- ATTACH's value constraints: `N ≠ 0` with DI and CLK wired (30 R79, 40 R101). -/
def attachInRange (n : BitVec 8) (wires : BitVec 5) : Bool :=
  n != 0#8 && wires.getLsbD 0 && wires.getLsbD 1

/-- SEND_BITS's value constraint: `1 ≤ COUNT ≤ 16` (30 R79). -/
def countInRange (count : BitVec 5) : Bool := decide (1 ≤ count.toNat) && decide (count.toNat ≤ 16)

/-- ALL's fill word: `LEVEL = 1` is all ones, 0 all zeros (41 R116). -/
def fillWord (level : Bool) : Word := if level then 0xFFFF#16 else 0x0000#16

/-- "Truthy" means not equal to zero (00 R8). -/
def truthy (b : Byte) : Bool := b != 0#8

/-- `Pack`, the configuration register packer: the gain masked to 6 bits, bit 7 for the current range, bit 6 for the
voltage band (45 R182). `gain[7:6]` is dropped without a fault or a warning (45 R184). -/
def pack (cur band gain : Byte) : Byte :=
  let p := (gain.extractLsb' 0 6).setWidth 8
  let p := if truthy cur then p ||| 0x80#8 else p
  if truthy band then p ||| 0x40#8 else p

/-- The inverted duty cycle `255 - LEVEL` (46 R192). -/
def dutyOf (level : Byte) : Byte := 0xFF#8 - level

/-- `T_SETTLE_US`, at least 2 (00 R7, 44 R162). -/
def settleUs (p : Params) : Nat := 2 + p.settleExtraUs

/-- The 2-bit encoding of `MODE` (10 R24). -/
def Mode.code : Mode → BitVec 2
  | .unknown => 0#2
  | .normal => 1#2
  | .configuration => 2#2
  | .errorDetect => 3#2

end Sys2Proof.Machine
end

