-- ==== Sys2Proof/Machine/Ops.lean ====
section
/-! DEFINITION. The named operations every command is made of: the primitives of 00_scope R10 and R11, the
micro-sequencer's registers (10_state R33), the one operation that takes a fault (60_exceptions R216) and the intake of
the command port (30_encoding R70). There is no return from a fault to model: the block has none (60 R220). -/

namespace Sys2Proof.Machine

/-- `wired(L)` is `WIRED[L] = 1` (00 R11). -/
def State.isWired (s : State) (l : Line) : Bool := s.wired.getLsbD (lineBit l)

/-- The block is attached exactly when `CHAIN ≠ 0` (10 R20). -/
def State.attached (s : State) : Bool := s.chain != 0#8

/-- How many times DO has been made an output after an event: it numbers the draws `DO_LEVEL_AFTER_ED` (44 R167). -/
def doDrivesAfter (n : Nat) (e : Event) : Nat := if e = .dirOut .dout then n + 1 else n

/-- `emit E`: append the event to `TRACE` and apply its effect on the line state (00 R10). -/
def State.emit (s : State) (e : Event) : State :=
  { s with
    trace := s.trace ++ [e]
    lines := s.lines.apply e
    doDrives := doDrivesAfter s.doDrives e }

/-- `warn(w)`: a warning event, only when `DEBUG` is set (00 R11, 60 R212; log entry 13). -/
def State.warn (s : State) (w : Warning) : State :=
  if s.debug then s.emit (.warn w s.par.deviceId) else s

/-- The DO sample that is `k` samples ahead: the one the outside has fixed, or else the free value `DO_SAMPLE`
(00 R11, 44 R165; log entry 6). -/
def State.sampleAt (s : State) (k : Nat) : Bool :=
  (s.doIn.drop k).headD (Config.doSample (s.samplesTaken + k))

/-- `sample()`: emit `SMP -> b` and answer b (00 R11). -/
def State.sample (s : State) : Bool × State :=
  let b := s.sampleAt 0
  (b, { s with doIn := s.doIn.tail, samplesTaken := s.samplesTaken + 1 }.emit (.smp b))

/-- `query_pwm()`: emit `QRY -> b` and answer b, the platform's `OE_PWM_CAPABLE` (00 R11). -/
def State.queryPwm (s : State) : Bool × State :=
  (s.par.oePwmCapable, s.emit (.qry s.par.oePwmCapable))

/-- `PHASE <- p` (10 R33). Where a command enters a phase is DEDUCED; that a step for which the spec names no phase keeps
the one in force is a DESIGN CHOICE (both log entry 12). -/
def State.enter (s : State) (p : Phase) : State := { s with phase := p }

/-- The end of a command: `PHASE = IDLE` (10 R33). -/
def State.leave (s : State) : State := s.enter .idle

/-- The end of a table: `FIDX` holds no value a later command reads, so it is left free (10 R33, log entry 8). -/
def State.dropFidx (s : State) : State := { s with fidx := Config.freeFidx s.draws, draws := s.draws + 1 }

/-- The end of a run of bits: `BIDX` is left free (10 R33, log entry 8). -/
def State.dropBidx (s : State) : State := { s with bidx := Config.freeBidx s.draws, draws := s.draws + 1 }

/-- The end of ALL: `WIDX` is left free (10 R33, log entry 8). -/
def State.dropWidx (s : State) : State := { s with widx := Config.freeWidx s.draws, draws := s.draws + 1 }

/-- The end of ERROR_DETECT: `ACC` is left free (10 R33, log entry 8). -/
def State.dropAcc (s : State) : State := { s with acc := Config.freeAcc s.draws, draws := s.draws + 1 }

/-- `raise Fault(f)`, the one operation that takes a fault: the sticky bit is set, no event is emitted, no other register
changes and `PHASE` stays as it is; the block then accepts the next command (60 R216). -/
def State.raiseFault (s : State) (c : FaultCause) : State := { s with fault := faultAfter s.fault c }

/-- The command port accepts the next word the host has issued, if there is one (30 R70, 10 R32). -/
def State.acceptCommand (s : State) : Option (Cmd × State) :=
  match s.pending with
  | [] => none
  | w :: rest => some (w, { s with pending := rest })

end Sys2Proof.Machine
end

