-- ==== Sys2Proof/Machine/Attach.lean ====
section
/-! DEFINITION. The Pin Role Registry (40_attach): ATTACH. -/

namespace Sys2Proof.Machine

/-- The part of ATTACH for LE: output, driven low, when wired (40 R100). -/
def attachLe (s : State) : State :=
  if s.isWired .le then (s.emit (.dirOut .le)).emit (.drv .le false) else s

/-- The part of ATTACH for OE, when wired: output, the capability query and its record, then outputs powered on
(40 R100, R103). -/
def attachOe (s : State) : State :=
  if s.isWired .oe then
    let (b, t) := (s.emit (.dirOut .oe)).queryPwm
    { t with pwmcap := b }.emit (.drv .oe false)
  else s

/-- The part of ATTACH for DO: input, when wired (40 R100, R104). -/
def attachDo (s : State) : State := if s.isWired .dout then s.emit (.dirIn .dout) else s

/-- The body of ATTACH once its range check has passed: a redundant attach only warns (40 R102); the first one records
the chain length and the wiring and sets up the lines (40 R100, R105).
DESIGN CHOICE: `PHASE` stays IDLE, since 10 R33 names no phase for this command (log entry 12). -/
def attachBody (n : BitVec 8) (wires : BitVec 5) (s : State) : State :=
  if s.attached then s.warn .redundantAttach
  else
    let t := { s with chain := n, wired := wires }
    attachDo (attachOe (attachLe (((t.emit (.dirOut .clk)).emit (.dirOut .di)).emit (.drv .clk false))))

/-- ATTACH: the range check of 30 R79 first (40 R101, log entry 11), then the body (40 R100). -/
def execAttach (n : BitVec 8) (wires : BitVec 5) (s : State) : Host.Outcome State Fault Refusal :=
  .next (if attachInRange n wires then (attachBody n wires s).leave else s.raiseFault .operandRange)

end Sys2Proof.Machine
end

