-- ==== Sys2Proof/Machine/ModeSwitch.lean ====
section
/-! DEFINITION. The Mode State Machine and the waveform sequencer (43_mode): PlayTable, SwitchMode, NormalMode and
NORMAL. -/

namespace Sys2Proof.Machine

/-- The loop of `PlayTable`: one event per frame, `FIDX` holding the frame's index (43 R145). -/
def playFrames : Nat → List Frame → State → State
  | _, [], s => s
  | k, f :: rest, s => playFrames (k + 1) rest ({ s with fidx := BitVec.ofNat 3 k }.emit (.frm f))

/-- `PlayTable(T)`: the frames that `WAVE_TABLES` holds for `T`, in order, then the forced clock low, always emitted (43
R145, 20 R52). -/
def playTable (t : Table) (s : State) : State :=
  ((playFrames 0 (s.par.tables.frames t) s).emit (.drv .clk false)).dropFidx

/-- The mode a table reaches, given the mode before: the transition table leaves it (43 R146) and the readback-ready
table reaches no new mode (43 R144). -/
def Table.modeAfter (m : Mode) : Table → Mode
  | .trans => m
  | .normal => .normal
  | .cfg => .configuration
  | .ed => .errorDetect
  | .rr => m

/-- `SwitchMode(T)`: the transition table, the target table, then the write of `MODE` (43 R146). -/
def switchMode (t : Table) (s : State) : State :=
  let u := playTable t ((playTable .trans (s.enter .trans)).enter .target)
  { u with mode := t.modeAfter u.mode }

/-- `NormalMode()`: a guarded `SwitchMode(T_NORMAL)` (43 R147). -/
def normalMode (s : State) : State :=
  if s.isWired .le && s.isWired .oe then switchMode .normal s else s.warn .unwired

/-- NORMAL: return the chip to Normal mode, whatever `MODE` holds (43 R148). -/
def execNormal (s : State) : Host.Outcome State Fault Refusal := .next (normalMode s).leave

end Sys2Proof.Machine
end

