-- ==== Sys2Proof/Machine/Latch.lean ====
section
/-! DEFINITION. Latch Control (42_latch): the two latch subroutines and LATCH. -/

namespace Sys2Proof.Machine

/-- `DRV(LE, 1)` and then `DRV(LE, 0)`: LE's idle level is low (42 R130, R133). -/
def pulseLe (s : State) : State := (s.emit (.drv .le true)).emit (.drv .le false)

/-- `LatchPulse()`: warns when LE is absent (42 R130). -/
def latchPulse (s : State) : State := if s.isWired .le then pulseLe s else s.warn .unwired

/-- `LatchIfWired()`: never warns (42 R132). -/
def latchIfWired (s : State) : State := if s.isWired .le then pulseLe s else s

/-- LATCH: issue one latch pulse (42 R131). -/
def execLatch (s : State) : Host.Outcome State Fault Refusal :=
  .next (latchPulse (s.enter .latch)).leave

end Sys2Proof.Machine
end

