-- ==== Sys2Proof/Machine/Shift.lean ====
section
/-! DEFINITION. The Shift Protocol (41_shift): the serializer subroutines and SHIFT, SEND, ALL and SEND_BITS. -/

namespace Sys2Proof.Machine

/-- `ShiftBit(b)`: data, then the rising edge that samples it, then clock low (41 R110). -/
def shiftBit (b : Bool) (s : State) : State :=
  ((s.emit (.drv .di b)).emit (.drv .clk true)).emit (.drv .clk false)

/-- `ShiftBit(v[i])` for each index of a list, in its order, `BIDX` holding the index (DEDUCED, log entry 12). -/
def shiftIndices {n : Nat} (v : BitVec n) : List Nat → State → State
  | [], s => s
  | i :: rest, s => shiftIndices v rest (shiftBit (v.getLsbD i) { s with bidx := BitVec.ofNat 4 i })

/-- `ShiftByte(MSB, v)`: `for i = 7 downto 0` (41 R111). -/
def shiftByteMsb (v : Byte) (s : State) : State := (shiftIndices v [7, 6, 5, 4, 3, 2, 1, 0] s).dropBidx

/-- `ShiftByte(LSB, v)`: `for i = 0 to 7` (41 R111). -/
def shiftByteLsb (v : Byte) (s : State) : State := (shiftIndices v [0, 1, 2, 3, 4, 5, 6, 7] s).dropBidx

/-- `ShiftWord(w)`: upper byte, then lower byte, each MSB first (41 R112, 20 R53). -/
def shiftWord (w : Word) (s : State) : State :=
  shiftByteMsb (w.extractLsb' 0 8) (shiftByteMsb (w.extractLsb' 8 8) s)

/-- The guard of the four shift commands (41 R114 to R117). -/
def State.canShift (s : State) : Bool := s.isWired .di && s.isWired .clk

/-- `SEND(0xFFFF)` without its guard, the preload of ERROR_DETECT and CONFIG (44 R161, 45 R180). -/
def preload (s : State) : State := latchIfWired (shiftWord 0xFFFF#16 (s.enter .preload))

/-- The body of SHIFT (41 R114). -/
def shiftBody (w : Word) (s : State) : State :=
  if s.canShift then shiftWord w (s.enter .shift) else s.warn .unwired

/-- The body of SEND (41 R115). -/
def sendBody (w : Word) (s : State) : State :=
  if s.canShift then latchIfWired ((shiftWord w (s.enter .shift)).enter .latch) else s.warn .unwired

/-- `repeat n times: ShiftWord(fill)`, `WIDX` counting the words shifted so far (41 R116, 10 R33). -/
def shiftWords (fill : Word) : Nat → State → State
  | 0, s => s
  | n + 1, s =>
    let t := shiftWord fill s
    shiftWords fill n { t with widx := t.widx + 1#8 }

/-- The body of ALL: the fill word once per chip in the chain, then one latch if LE is wired (41 R116). RESET runs it
too (47 R200). -/
def allBody (level : Bool) (s : State) : State :=
  if s.canShift then
    let t := shiftWords (fillWord level) s.chain.toNat { s.enter .shift with widx := 0#8 }
    latchIfWired (t.dropWidx.enter .latch)
  else s.warn .unwired

/-- What follows each bit of SEND_BITS when `DELAY ≠ 0`: a latch if LE is wired, then the wait (41 R117). -/
def latchAndWait (delay : BitVec 16) (s : State) : State :=
  ((latchIfWired (s.enter .latch)).enter .wait).emit (.ms delay.toNat)

/-- `for i = n-1 downto 0` of SEND_BITS (41 R117). -/
def sendBitsLoop (delay : BitVec 16) (bits : Word) : Nat → State → State
  | 0, s => s
  | i + 1, s =>
    let t := shiftBit (bits.getLsbD i) { s.enter .shift with bidx := BitVec.ofNat 4 i }
    sendBitsLoop delay bits i (if delay ≠ 0#16 then latchAndWait delay t else t)

/-- The body of SEND_BITS once its range check has passed (41 R117). -/
def sendBitsBody (count : BitVec 5) (delay : BitVec 16) (bits : Word) (s : State) : State :=
  if s.canShift then
    let t := (sendBitsLoop delay bits count.toNat s).dropBidx
    if delay = 0#16 then latchIfWired (t.enter .latch) else t
  else s.warn .unwired

/-- SHIFT: shift one 16-bit word without latching (41 R114). -/
def execShift (w : Word) (s : State) : Host.Outcome State Fault Refusal := .next (shiftBody w s).leave

/-- SEND: shift one 16-bit word, then latch it if LE is wired (41 R115). -/
def execSend (w : Word) (s : State) : Host.Outcome State Fault Refusal := .next (sendBody w s).leave

/-- ALL: fill the whole chain with ones or zeros, then latch once if LE is wired (41 R116). -/
def execAll (level : Bool) (s : State) : Host.Outcome State Fault Refusal := .next (allBody level s).leave

/-- SEND_BITS: the range check of 30 R79 first (log entry 11), then `COUNT` bits, each followed by a latch and a wait when
`DELAY ≠ 0`, or one latch at the end (41 R117). -/
def execSendBits (count : BitVec 5) (delay : BitVec 16) (bits : Word) (s : State) :
    Host.Outcome State Fault Refusal :=
  .next (if countInRange count then (sendBitsBody count delay bits s).leave else s.raiseFault .operandRange)

end Sys2Proof.Machine
end

