-- ==== Sys2Proof/Machine/Configure.lean ====
section
/-! DEFINITION. The configuration register packer (45_config): CONFIG. -/

namespace Sys2Proof.Machine

/-- Steps 1 to 5 of CONFIG, once its precondition holds: preload, Configuration mode, a zero byte MSB first, the packed
byte LSB first, the commit and Normal mode (45 R180, R185, R186). The bit order of the payload is the
spec's; whether the real chip wants it is UNVERIFIED (log entry 10). -/
def configRun (cur band gain : Byte) (s : State) : State :=
  let s := switchMode .cfg (preload s)
  let s := shiftByteLsb (pack cur band gain) (shiftByteMsb 0x00#8 (s.enter .payload))
  normalMode (latchPulse s)

/-- The body of CONFIG: a no-op with a warning when LE or OE is absent (45 R180). RESET runs it too (47 R200). -/
def configBody (cur band gain : Byte) (s : State) : State :=
  if s.isWired .le && s.isWired .oe then configRun cur band gain s else s.warn .unwired

/-- CONFIG: pack and write the chip's configuration register (45 R180). -/
def execConfig (cur band gain : Byte) (s : State) : Host.Outcome State Fault Refusal :=
  .next (configBody cur band gain s).leave

end Sys2Proof.Machine
end

