-- ==== Sys2Proof/Machine/Power.lean ====
section
/-! DEFINITION. Brightness and power control (46_power): ON, OFF and BRIGHTNESS. -/

namespace Sys2Proof.Machine

/-- What ON and OFF share: leave duty-cycle mode first when the pin is capable, then drive OE (46 R190, R191).
DESIGN CHOICE: 10 R33 names no phase for these steps, so `PHASE` keeps the value in force: IDLE in ON and OFF (log entry
12). -/
def driveOe (v : Bool) (s : State) : State :=
  if s.isWired .oe then
    (if s.pwmcap then s.emit (.dirOut .oe) else s).emit (.drv .oe v)
  else s.warn .unwired

/-- `OnOp()`: OE low, outputs enabled (46 R190). -/
def onOp (s : State) : State := driveOe false s

/-- `OffOp()`: OE high, outputs disabled (46 R191). -/
def offOp (s : State) : State := driveOe true s

/-- The body of BRIGHTNESS: absent OE is tested before the capability (46 R192, 60 R217).
DESIGN CHOICE: `PHASE` stays IDLE, since 10 R33 names no phase for this command (log entry 12). -/
def brightnessBody (level : Byte) (s : State) : State :=
  if s.isWired .oe then
    if s.pwmcap then s.emit (.pwm (dutyOf level)) else s.warn .capabilityMismatch
  else s.warn .unwired

/-- ON: enable the chip's outputs (46 R190). -/
def execOn (s : State) : Host.Outcome State Fault Refusal := .next (onOp s).leave

/-- OFF: disable the chip's outputs (46 R191). -/
def execOff (s : State) : Host.Outcome State Fault Refusal := .next (offOp s).leave

/-- BRIGHTNESS: set a duty-cycle brightness on OE (46 R192). -/
def execBrightness (level : Byte) (s : State) : Host.Outcome State Fault Refusal :=
  .next (brightnessBody level s).leave

end Sys2Proof.Machine
end

