-- ==== Sys2Proof/Machine/Composite.lean ====
section
/-! DEFINITION. Composite sequences (47_composite): RESET and FLASH. -/

namespace Sys2Proof.Machine

/-- A clause of RESET: it runs when its condition holds of the state it meets. -/
def onlyIf (c : State → Bool) (f : State → State) (s : State) : State := if c s then f s else s

/-- LE and OE are both wired. -/
def State.canSwitch (s : State) : Bool := s.isWired .le && s.isWired .oe

/-- Clause (a): when OE carries a duty cycle it becomes a plain output again (47 R200). -/
def leavePwm (s : State) : State :=
  onlyIf (fun s => s.isWired .oe && s.lines.oem == .pwm) (State.emit · (.dirOut .oe)) s

/-- The body of RESET: its clauses (a) to (g) in the source's order, which is normative (47 R200, R203).
DESIGN CHOICE: 10 R33 names no phase for clauses (a), (c), (d) and (g), so `PHASE` keeps the value in force: IDLE in (a);
PH_TARGET in (c) and (d), or IDLE where (b) did not run; PH_TARGET in (g), or PH_LATCH where (f) did not run (log entry
12). -/
def resetBody (s : State) : State :=
  let s := onlyIf State.canSwitch normalMode (leavePwm s)
  let s := onlyIf (State.isWired · .oe) offOp s
  let s := onlyIf (State.isWired · .dout) (State.emit · (.dirIn .dout)) s
  let s := onlyIf State.canSwitch (configBody 0#8 0#8 127#8) (allBody false s)
  onlyIf (State.isWired · .oe) onOp s

/-- `emit MS(n)`, in the phase PH_WAIT (10 R33). -/
def waitMs (n : Nat) (s : State) : State := (s.enter .wait).emit (.ms n)

/-- The body of FLASH: off, bracket, on, on-period, off, bracket, and on again when `LEAVE_ON` (47 R201).
DESIGN CHOICE: 10 R33 names no phase for the off and on steps, so `PHASE` keeps the value in force: IDLE in the first
`OffOp`, PH_WAIT in every later one and in every `OnOp` (log entry 12). -/
def flashBody (leaveOn : Bool) (bracket : BitVec 16) (onMs : BitVec 32) (s : State) : State :=
  let s := waitMs bracket.toNat (offOp s)
  let s := waitMs onMs.toNat (onOp s)
  let s := waitMs bracket.toNat (offOp s)
  if leaveOn then onOp s else s

/-- RESET: the protocol reset of the chip and its lines, not of the block (47 R200, 70 R235). -/
def execReset (s : State) : Host.Outcome State Fault Refusal := .next (resetBody s).leave

/-- FLASH: one visible flash, bracketed by equal off-periods (47 R201). -/
def execFlash (leaveOn : Bool) (bracket : BitVec 16) (onMs : BitVec 32) (s : State) :
    Host.Outcome State Fault Refusal :=
  .next (flashBody leaveOn bracket onMs s).leave

end Sys2Proof.Machine
end

