-- ==== Sys2Proof/Machine/ErrorDetect.lean ====
section
/-! DEFINITION. The Error-Detect readback FSM (44_error_detect): ERROR_DETECT. -/

namespace Sys2Proof.Machine

/-- One iteration of the readback: sample, fold the sample into `ACC`, then one clock pulse (44 R165). -/
def readIteration (k : Nat) (s : State) : State :=
  let (b, t) := { s with bidx := BitVec.ofNat 4 k }.sample
  ({ t with acc := accStep t.acc b }.emit (.drv .clk true)).emit (.drv .clk false)

/-- `n` iterations of the readback from index `k`. -/
def readLoop : Nat → Nat → State → State
  | _, 0, s => s
  | k, n + 1, s => readLoop (k + 1) n (readIteration k s)

/-- Step 7: `ACC <- 0`, then 16 iterations (44 R165). -/
def readback (s : State) : State := (readLoop 0 16 { s.enter .read with acc := 0x0000#16 }).dropBidx

/-- Step 4: wait for the settling time (44 R160, R162). -/
def settle (s : State) : State := (s.enter .settle).emit (.us (settleUs s.par))

/-- Steps 5 and 6: play the readback-ready table, make DO an input and drive DI low (44 R160). -/
def readbackReady (s : State) : State :=
  ((playTable .rr (s.enter .rr)).emit (.dirIn .dout)).emit (.drv .di false)

/-- Step 8: the readback word becomes the result (44 R160, 10 R25). -/
def returnResult (s : State) : State := { s with result := s.acc }.dropAcc

/-- Steps 2 to 8 of ERROR_DETECT, once its precondition holds (44 R160). -/
def errorDetectRun (s : State) : State :=
  let s := readbackReady (settle (switchMode .ed (preload s)))
  returnResult (normalMode ((readback s).emit (.dirOut .dout)))

/-- The body of ERROR_DETECT: with LE, OE or DO absent it warns and `RESULT` becomes 0 (44 R160, R169). -/
def errorDetectBody (s : State) : State :=
  if s.isWired .le && s.isWired .oe && s.isWired .dout then errorDetectRun s
  else { s.warn .unwired with result := 0x0000#16 }

/-- ERROR_DETECT: read the first chip's 16-bit diagnostic status into `RESULT` (44 R160). -/
def execErrorDetect (s : State) : Host.Outcome State Fault Refusal := .next (errorDetectBody s).leave

end Sys2Proof.Machine
end

