-- ==== Sys2Proof/Machine/Dispatch.lean ====
section
/-! DEFINITION. One arm per command of the opcode map (30_encoding R81). -/

namespace Sys2Proof.Machine

def exec (i : Instr) (s : State) : Host.Outcome State Fault Refusal :=
  match i with
  | .attach n wires => Sys2Proof.Machine.execAttach n wires s
  | .shift w => Sys2Proof.Machine.execShift w s
  | .send w => Sys2Proof.Machine.execSend w s
  | .all level => Sys2Proof.Machine.execAll level s
  | .sendBits count delay bits => Sys2Proof.Machine.execSendBits count delay bits s
  | .latch => Sys2Proof.Machine.execLatch s
  | .normal => Sys2Proof.Machine.execNormal s
  | .errorDetect => Sys2Proof.Machine.execErrorDetect s
  | .config cur band gain => Sys2Proof.Machine.execConfig cur band gain s
  | .on => Sys2Proof.Machine.execOn s
  | .off => Sys2Proof.Machine.execOff s
  | .brightness level => Sys2Proof.Machine.execBrightness level s
  | .reset => Sys2Proof.Machine.execReset s
  | .flash leaveOn bracket onMs => Sys2Proof.Machine.execFlash leaveOn bracket onMs s

end Sys2Proof.Machine
end

