-- ==== Sys2Proof/Machine/Step.lean ====
section
/-! DEFINITION. One step of the block: accept one command word and run it to its end (10_state R32). -/

namespace Sys2Proof.Machine

/-- Run one accepted word: a word the decoder rejects raises its fault (30 R80, 60 R216), any other runs its command. -/
def runWord (w : Cmd) (s : State) : Host.Outcome State Fault Refusal :=
  match decode w with
  | .ok i => exec i s
  | .error c => .next (s.raiseFault c)

/-- One step: with a word waiting at the command port the block accepts and runs it; with none it waits in `PHASE = IDLE`
(70 R231), a step that changes nothing (log entry 2). -/
def step (s : State) : Host.Outcome State Fault Refusal :=
  match s.acceptCommand with
  | none => .next s
  | some (w, t) => runWord w t

/-- `s` with the word whose bits are `w` next at the command port: the host issues it (log entry 2). -/
def State.withFetchWord (s : State) (nbits w : Nat) : State :=
  { s with pending := tableCmd nbits w :: s.pending }

end Sys2Proof.Machine
end

