-- ==== Sys2Proof/Machine/Assembler.lean ====
section
/-! DEFINITION. The assembly syntax of 30_encoding R83 and its one pseudo-instruction (R84), as a total function from a
line's characters to a command. The spec leaves open white space, letter case and what a malformed line does: blanks
separate, letters count as written, a malformed line has no command (log entry 14). -/

namespace Sys2Proof.Machine

/-- A token of a line. -/
inductive Token where
  | word (cs : List Char)
  | comma
  | openBrace
  | closeBrace
deriving DecidableEq, Repr

/-- The word read so far, if there is one, before the tokens that follow it. -/
def endWord (acc : List Char) (rest : List Token) : List Token := if acc = [] then rest else .word acc.reverse :: rest

/-- The tokens of a line; characters 123 and 125 are the braces. `acc` is the word being read, last character first. -/
def tokens : List Char → List Char → List Token
  | acc, [] => endWord acc []
  | acc, c :: cs =>
    if c = ' ' then endWord acc (tokens [] cs)
    else if c = ',' then endWord acc (.comma :: tokens [] cs)
    else if c.toNat = 123 then endWord acc (.openBrace :: tokens [] cs)
    else if c.toNat = 125 then endWord acc (.closeBrace :: tokens [] cs)
    else tokens (c :: acc) cs

/-- The value of a digit: 0 to 9, and A to F or a to f. -/
def digitValue (c : Char) : Option Nat :=
  let n := c.toNat
  if 48 ≤ n ∧ n ≤ 57 then some (n - 48)
  else if 65 ≤ n ∧ n ≤ 70 then some (n - 55)
  else if 97 ≤ n ∧ n ≤ 102 then some (n - 87)
  else none

/-- The number that digits spell in a base, after a number already read. -/
def digits (base : Nat) : Nat → List Char → Option Nat
  | n, [] => some n
  | n, c :: cs =>
    match digitValue c with
    | none => none
    | some d => if d < base then digits base (base * n + d) cs else none

/-- "Numbers are decimal or `0x` hexadecimal" (30 R83). -/
def number : List Char → Option Nat
  | [] => none
  | '0' :: 'x' :: c :: cs => digits 16 0 (c :: cs)
  | c :: cs => digits 10 0 (c :: cs)

/-- A number that fits a field of `n` bits. -/
def field (n : Nat) (cs : List Char) : Option (BitVec n) :=
  match number cs with
  | none => none
  | some v => if v < 2 ^ n then some (BitVec.ofNat n v) else none

/-- The line a pin's name stands for (30 R83). -/
def pinLine (cs : List Char) : Option Line :=
  if cs = ['D', 'I'] then some .di
  else if cs = ['C', 'L', 'K'] then some .clk
  else if cs = ['L', 'E'] then some .le
  else if cs = ['O', 'E'] then some .oe
  else if cs = ['D', 'O'] then some .dout
  else none

/-- The `WIRES` bit of a pin (30 R73). -/
def pinBit (l : Line) : BitVec 5 := 1#5 <<< lineBit l

/-- The `WIRES` field of a pin list up to its closing brace, which ends the line; a pin left out is absent (30 R84). -/
def pinList : List Token → Option (BitVec 5)
  | [.word p, .closeBrace] => (pinLine p).map pinBit
  | .word p :: .comma :: rest =>
    match pinLine p, pinList rest with
    | some l, some ws => some (pinBit l ||| ws)
    | _, _ => none
  | _ => none

/-- `HIGH` assembles `LEVEL = 1` and `LOW` assembles `LEVEL = 0`, "also 1 | 0" (30 R83). -/
def levelOperand (cs : List Char) : Option Bool :=
  if cs = ['H', 'I', 'G', 'H'] ∨ cs = ['1'] then some true
  else if cs = ['L', 'O', 'W'] ∨ cs = ['0'] then some false
  else none

/-- A chain length in assembly: `n` is decimal 1 to 255 (30 R83). -/
def chainOperand (cs : List Char) : Option (BitVec 8) :=
  match digits 10 0 cs with
  | none => none
  | some v => if 1 ≤ v ∧ v ≤ 255 then some (BitVec.ofNat 8 v) else none

/-- ATTACH's operands: with a chain length, or the pseudo-instruction without one, which means 1 (30 R83, R84). -/
def attachOperands : List Token → Option Instr
  | .openBrace :: pins => (pinList pins).map (Instr.attach 1#8)
  | .word n :: .comma :: .openBrace :: pins =>
    match chainOperand n, pinList pins with
    | some n, some ws => some (.attach n ws)
    | _, _ => none
  | _ => none

/-- The command of an operand-free mnemonic (30 R83). -/
def plainMnemonic (m : List Char) : Option Instr :=
  if m = "LATCH".toList then some .latch
  else if m = "NORMAL".toList then some .normal
  else if m = "ERROR_DETECT".toList then some .errorDetect
  else if m = "ON".toList then some .on
  else if m = "OFF".toList then some .off
  else if m = "RESET".toList then some .reset
  else none

/-- The command of a mnemonic with one operand (30 R83). -/
def unaryMnemonic (m a : List Char) : Option Instr :=
  if m = "SHIFT".toList then (field 16 a).map Instr.shift
  else if m = "SEND".toList then (field 16 a).map Instr.send
  else if m = "ALL".toList then (levelOperand a).map Instr.all
  else if m = "BRIGHTNESS".toList then (field 8 a).map Instr.brightness
  else none

/-- The command of a mnemonic with three operands, in the order of 30 R83. -/
def ternaryMnemonic (m a b c : List Char) : Option Instr :=
  if m = "SEND_BITS".toList then
    match field 5 a, field 16 b, field 16 c with
    | some count, some bits, some delay => some (.sendBits count delay bits)
    | _, _, _ => none
  else if m = "CONFIG".toList then
    match field 8 a, field 8 b, field 8 c with
    | some cur, some band, some gain => some (.config cur band gain)
    | _, _, _ => none
  else if m = "FLASH".toList then
    match field 32 a, field 16 b, field 1 c with
    | some onMs, some bracket, some leaveOn => some (.flash (leaveOn.getLsbD 0) bracket onMs)
    | _, _, _ => none
  else none

/-- The command of a line's tokens. -/
def assembleTokens : List Token → Option Instr
  | [.word m] => plainMnemonic m
  | [.word m, .word a] =>
    if m = "ATTACH".toList then none else unaryMnemonic m a
  | [.word m, .word a, .comma, .word b, .comma, .word c] => ternaryMnemonic m a b c
  | .word m :: rest => if m = "ATTACH".toList then attachOperands rest else none
  | _ => none

/-- The command of a line of assembly, one command per line (30 R83). -/
def assembleLine (line : List Char) : Option Instr := assembleTokens (tokens [] line)

/-- The command word of a line of assembly. -/
def assembleWord (line : List Char) : Option Cmd := (assembleLine line).map encode

/-- A pin set as it is written in a line: between braces. -/
def inBraces (pins : List Char) : List Char := Char.ofNat 123 :: (pins ++ [Char.ofNat 125])

end Sys2Proof.Machine
end

