-- ==== Sys2Proof/Machine/Chip.lean ====
section
/-! DEFINITION. The chip chain as an observer of the trace: what the source states of it (20_memory R63 to R66) and
nothing more. The chain is an external agent; it is no part of `State` and constrains nothing the block does. A bit the
spec does not determine is `Level.x`, "unknown", and stays unknown until the spec determines it again (log entry 15). -/

namespace Sys2Proof.Machine

/-- What is known of the chain. -/
structure ChipChain where
  /-- The shift register of `16 * CHAIN` bits; the head is the bit shifted in last (20 R63). -/
  shift : List Level
  /-- The output latch, bit for bit over the shift register (20 R64). -/
  latch : List Level
  /-- The mode the last completed table reached (20 R66). -/
  mode : Mode
  /-- The frames of the table being played. -/
  frames : List Frame
  /-- The transition table has just been completed and no target table has followed yet. -/
  armed : Bool
deriving DecidableEq, Repr

/-- The chain at power-on: its mode, register and latch are not in the source (70 R233). -/
def ChipChain.atPowerOn (chain : BitVec 8) : ChipChain where
  shift := List.replicate (16 * chain.toNat) .x
  latch := List.replicate (16 * chain.toNat) .x
  mode := .unknown
  frames := []
  armed := false

/-- The same number of bits, all unknown. -/
def unknownBits (bits : List Level) : List Level := bits.map fun _ => .x

/-- In Normal mode, with no table in progress, the source says what shifting and latching do (20 R63, R64, D36). -/
def ChipChain.inNormal (c : ChipChain) : Bool := c.mode == .normal && c.frames == [] && !c.armed

/-- A rising edge with data level `b`: in Normal mode `b` enters the first chip and the bit leaving each chip enters the
next (20 R63); in any other mode the source does not say. -/
def ChipChain.onEdge (b : Level) (c : ChipChain) : ChipChain :=
  if c.inNormal then { c with shift := (b :: c.shift).take c.shift.length }
  else { c with shift := unknownBits c.shift }

/-- The end of a latch pulse copies the shift register to the output drivers (20 R64); outside Normal mode the source does
not say (93 I9). -/
def ChipChain.onLatch (c : ChipChain) : ChipChain :=
  if c.inNormal then { c with latch := c.shift } else { c with latch := unknownBits c.latch }

/-- The end of a table. The mode changes only through a transition table with a target table right after it (20 R66,
43 R146); the readback-ready table reaches no new mode (43 R144). The observer knows the tables `ws` by their frames. -/
def ChipChain.endTable (ws : WaveTables) (c : ChipChain) : ChipChain :=
  let done := { c with frames := [], armed := false }
  if c.frames = ws.trans then { done with armed := true }
  else if c.frames = ws.rr then done
  else if c.armed = true ∧ c.frames = ws.normal then { done with mode := .normal }
  else if c.armed = true ∧ c.frames = ws.cfg then { done with mode := .configuration }
  else if c.armed = true ∧ c.frames = ws.ed then { done with mode := .errorDetect }
  else { done with mode := .unknown }

/-- `DRV(CLK, v)` as the chain sees it, `ls` being the line state before it: the clock low that ends a table, or a bare
clock pulse, whose rising edge samples DI (20 R63). -/
def ChipChain.onClock (ws : WaveTables) (ls : Lines) (v : Bool) (c : ChipChain) : ChipChain :=
  if v = false then (if c.frames = [] then c else c.endTable ws)
  else match ls.lvl.clk with
    | .low => c.onEdge ls.lvl.di
    | .high => c
    | .x => { c with shift := unknownBits c.shift }

/-- `DRV(LE, v)` as the chain sees it. The source says that a pulse, `DRV(LE, 1)` and then `DRV(LE, 0)`, copies the shift
register (00 R13, R14, 20 R64), and not which edge of the pulse does (91 N7): that the copy is made at the fall from 1 is a
DESIGN CHOICE (log entry 15). A fall from an unknown level may end a pulse. -/
def ChipChain.onLe (ls : Lines) (v : Bool) (c : ChipChain) : ChipChain :=
  if v = true then c
  else match ls.lvl.le with
    | .low => c
    | .high => c.onLatch
    | .x => { c with latch := unknownBits c.latch }

/-- A frame: the source does not say what its edges do to the register or to the latch (91 N7, 93 I9). -/
def ChipChain.onFrame (f : Frame) (c : ChipChain) : ChipChain :=
  { c with frames := c.frames ++ [f], shift := unknownBits c.shift, latch := unknownBits c.latch }

/-- The effect of one event on the chain, `ls` being the line state before it. Whether sampling DO has an electrical effect
on the chip is not in the source (20 R59, 91 N8): that `SMP` changes nothing of the chain is a DESIGN CHOICE (log entry
15). -/
def ChipChain.onEvent (ws : WaveTables) (ls : Lines) (c : ChipChain) : Event → ChipChain
  | .drv .clk v => c.onClock ws ls v
  | .drv .le v => c.onLe ls v
  | .frm f => c.onFrame f
  | _ => c

/-- The chain, which knows the tables `ws`, after a list of events from a line state. -/
def ChipChain.observe (ws : WaveTables) : Lines → List Event → ChipChain → ChipChain
  | _, [], c => c
  | ls, e :: es, c => ChipChain.observe ws (ls.apply e) es (c.onEvent ws ls e)

/-- The 16 bits chip number `k` of the chain holds, bit 0 first; chip 0 is the first chip (20 R63). -/
def ChipChain.chipBits (c : ChipChain) (k : Nat) : List Level := (c.shift.drop (16 * k)).take 16

/-- The bits that reach the output drivers: the latch, or the shift register itself when LE is absent (20 R64, 42 R134,
70 R253). -/
def ChipChain.driverBits (leWired : Bool) (c : ChipChain) : List Level := if leWired then c.latch else c.shift

/-- Whether the output drivers are powered: OE = 0 powers them, OE = 1 does not; under PWM, or with OE not driven, it is
not known at an instant (20 R65, 10 R30). -/
def driversPowered (ls : Lines) : Level :=
  match ls.lvl.oe with
  | .low => .high
  | .high => .low
  | .x => .x

end Sys2Proof.Machine
end

