-- ==== Sys2Proof/Machine/Ports.lean ====
section
/-! DEFINITION. What the outside sees of the block (30_encoding R70): the result and fault ports, the line ports, the
wait requests, the debug stream, and the physical level of a line where the block's record leaves it open. -/

namespace Sys2Proof.Machine

/-- The result port always reads `RESULT` (30 R70). -/
def State.resultPort (s : State) : Word := s.result

/-- The fault port always reads `FAULT` (30 R70). -/
def State.faultPort (s : State) : BitVec 3 := s.fault

/-- A line port: its direction and the level the block drives (30 R70, 10 R28). -/
def State.linePort (s : State) (l : Line) : LineDir × Level := (s.lines.dir.get l, s.lines.lvl.get l)

/-- The wait port's request in an event, if it is one (30 R70): the unit in microseconds and the count. -/
def Event.waitUs : Event → Option Nat
  | .us n => some n
  | .ms n => some (1000 * n)
  | _ => none

/-- The wait requests so far, in order, in microseconds (30 R70, 60 R223). -/
def State.waitRequests (s : State) : List Nat := s.trace.filterMap Event.waitUs

/-- The code and tag of a warning event (60 R211). -/
def Event.debugCode : Event → Option (Nat × Nat)
  | .warn w device => some (w.code, device)
  | _ => none

/-- The debug port's stream so far (30 R70, 60 R226). -/
def State.debugStream (s : State) : List (Nat × Nat) := s.trace.filterMap Event.debugCode

/-- The physical level of a line. Where the block has driven it, the level driven; where the record is X, a free value:
`DO_LEVEL_AFTER_ED` for DO as an output (44 R167), any level otherwise (10 R30, 70 R232; log entry 7). -/
def State.physLevel (s : State) (l : Line) : Bool :=
  match s.lines.lvl.get l with
  | .low => false
  | .high => true
  | .x =>
    if l = .dout ∧ s.lines.dir.dout = .out then Config.doLevelAfterEd s.doDrives
    else Config.unknownLevel (lineBit l) s.trace.length

end Sys2Proof.Machine
end

