-- ==== Sys2Proof/Machine/Traces.lean ====
section
/-! DEFINITION. The words the spec uses to write down a trace (95_test_vectors section 0): `SB`, `LP`, `PLAY`, `RD`, the
events of each command as lists, and what a command's end state is compared by. The meanings do not call these: a
statement says that a meaning emits them. -/

namespace Sys2Proof.Machine

/-- The registers of the block, its parameters, its inputs and the two counters of draws that events advance: all that a
frame speaks of beside the trace, the line state and the micro-sequencer. -/
structure Regs where
  chain : BitVec 8
  wired : BitVec 5
  pwmcap : Bool
  debug : Bool
  mode : Mode
  result : Word
  fault : BitVec 3
  par : Params
  pending : List Cmd
  doIn : List Bool
  samplesTaken : Nat
  doDrives : Nat
deriving DecidableEq, Repr

/-- The registers of a state. -/
def State.regs (s : State) : Regs :=
  ⟨s.chain, s.wired, s.pwmcap, s.debug, s.mode, s.result, s.fault, s.par, s.pending, s.doIn, s.samplesTaken, s.doDrives⟩

/-- `wired(L)`, read from the registers (00 R11). -/
def Regs.isWired (r : Regs) (l : Line) : Bool := r.wired.getLsbD (lineBit l)

/-- DI and CLK both wired, the guard of the shift commands (41 R114). -/
def Regs.canShift (r : Regs) : Bool := r.isWired .di && r.isWired .clk

/-- LE and OE both wired, the guard of the mode commands (43 R147). -/
def Regs.canSwitch (r : Regs) : Bool := r.isWired .le && r.isWired .oe

/-- The DO sample that is `k` samples ahead, read from the registers (44 R165). -/
def Regs.sampleAt (r : Regs) (k : Nat) : Bool := (r.doIn.drop k).headD (Config.doSample (r.samplesTaken + k))

/-- The 16 samples ERROR_DETECT takes (44 R165). -/
def Regs.nextSamples (r : Regs) : List Bool := (List.range 16).map r.sampleAt

/-- `ShiftBit(b)` as events (41 R110). -/
def bitEvents (b : Bool) : List Event := [.drv .di b, .drv .clk true, .drv .clk false]

/-- `SB[b1 ... bn]`, in emission order. -/
def bitsEvents (bs : List Bool) : List Event := bs.flatMap bitEvents

/-- The bits of a word in shift order: bit 15 first, bit 0 last (20 R53). -/
def wordBits (w : Word) : List Bool := (List.range 16).map fun k => w.getLsbD (15 - k)

/-- The bits SEND_BITS sends: bit `count - 1` first, bit 0 last (20 R54). -/
def selectedBits (count : Nat) (bits : Word) : List Bool := (List.range count).map fun k => bits.getLsbD (count - 1 - k)

/-- The 16 bits CONFIG sends: eight zeros, then the packed byte from bit 0 to bit 7 (20 R55). -/
def payloadBits (p : Byte) : List Bool := List.replicate 8 false ++ (List.range 8).map fun k => p.getLsbD k

/-- `LP`, a latch pulse. -/
def latchEvents : List Event := [.drv .le true, .drv .le false]

/-- `PLAY(T)`: the frames that a set of tables holds for `T`, in order, then `DRV(CLK, 0)` (43 R145). -/
def playEvents (ws : WaveTables) (t : Table) : List Event := (ws.frames t).map Event.frm ++ [.drv .clk false]

/-- `PLAY(T_TRANS) PLAY(T)`: the events of `SwitchMode(T)` (43 R146). -/
def switchEvents (ws : WaveTables) (t : Table) : List Event := playEvents ws .trans ++ playEvents ws t

/-- `RD[s1 ... sn]`: one readback iteration for each sample (44 R165). -/
def readEvents (samples : List Bool) : List Event :=
  samples.flatMap fun b => [.smp b, .drv .clk true, .drv .clk false]

/-- Events that stand only when a line is wired. -/
def whenWired (c : Bool) (es : List Event) : List Event := if c then es else []

/-- `warn(w)` as events: one, or none when `DEBUG` is 0 (60 R212). -/
def warnEvents (r : Regs) (w : Warning) : List Event := if r.debug then [.warn w r.par.deviceId] else []

/-- The events of a first ATTACH (40 R100). -/
def attachEvents (wires : BitVec 5) (capable : Bool) : List Event :=
  [.dirOut .clk, .dirOut .di, .drv .clk false]
    ++ whenWired (wires.getLsbD 2) [.dirOut .le, .drv .le false]
    ++ whenWired (wires.getLsbD 3) [.dirOut .oe, .qry capable, .drv .oe false]
    ++ whenWired (wires.getLsbD 4) [.dirIn .dout]

/-- The events of ALL on an attached block (41 R116). -/
def allEvents (r : Regs) (level : Bool) : List Event :=
  (List.replicate r.chain.toNat (bitsEvents (List.replicate 16 level))).flatten
    ++ whenWired (r.isWired .le) latchEvents

/-- The events of SEND_BITS on an attached block (41 R117). -/
def sendBitsEvents (r : Regs) (count : Nat) (delay : BitVec 16) (bits : Word) : List Event :=
  let latch := whenWired (r.isWired .le) latchEvents
  if delay = 0#16 then bitsEvents (selectedBits count bits) ++ latch
  else (selectedBits count bits).flatMap fun b => bitEvents b ++ latch ++ [.ms delay.toNat]

/-- The preload: `SEND 0xFFFF` with LE wired (44 R161, 45 R187). -/
def preloadEvents : List Event := bitsEvents (List.replicate 16 true) ++ latchEvents

/-- The events of ERROR_DETECT when its precondition holds (44 R160). -/
def errorDetectEvents (r : Regs) : List Event :=
  preloadEvents ++ switchEvents r.par.tables .ed ++ [.us (settleUs r.par)] ++ playEvents r.par.tables .rr
    ++ [.dirIn .dout, .drv .di false] ++ readEvents r.nextSamples ++ [.dirOut .dout] ++ switchEvents r.par.tables .normal

/-- The events of CONFIG when its precondition holds (45 R180). -/
def configEvents (r : Regs) (cur band gain : Byte) : List Event :=
  preloadEvents ++ switchEvents r.par.tables .cfg ++ bitsEvents (payloadBits (pack cur band gain)) ++ latchEvents
    ++ switchEvents r.par.tables .normal

/-- The events of `OnOp` (`v` false) and `OffOp` (`v` true) (46 R190, R191). -/
def oeEvents (r : Regs) (v : Bool) : List Event :=
  if r.isWired .oe then (if r.pwmcap then [.dirOut .oe, .drv .oe v] else [.drv .oe v]) else warnEvents r .unwired

/-- The events of BRIGHTNESS (46 R192). -/
def brightnessEvents (r : Regs) (level : Byte) : List Event :=
  if r.isWired .oe then (if r.pwmcap then [.pwm (255#8 - level)] else warnEvents r .capabilityMismatch)
  else warnEvents r .unwired

/-- The events of RESET, clause by clause (47 R200); `m` is the drive mode of OE it starts from. -/
def resetEvents (r : Regs) (m : OeMode) : List Event :=
  whenWired (r.isWired .oe && decide (m = .pwm)) [.dirOut .oe]
    ++ whenWired r.canSwitch (switchEvents r.par.tables .normal)
    ++ whenWired (r.isWired .oe) (oeEvents r true)
    ++ whenWired (r.isWired .dout) [.dirIn .dout]
    ++ (if r.canShift then allEvents r false else warnEvents r .unwired)
    ++ whenWired r.canSwitch (configEvents r 0#8 0#8 127#8)
    ++ whenWired (r.isWired .oe) (oeEvents r false)

/-- The events of FLASH (47 R201). -/
def flashEvents (r : Regs) (leaveOn : Bool) (bracket : BitVec 16) (onMs : BitVec 32) : List Event :=
  oeEvents r true ++ [.ms bracket.toNat] ++ oeEvents r false ++ [.ms onMs.toNat] ++ oeEvents r true
    ++ [.ms bracket.toNat] ++ (if leaveOn then oeEvents r false else [])

/-- The levels written on DI, in order. -/
def dataBits (es : List Event) : List Bool :=
  es.filterMap fun e => match e with
    | .drv .di b => some b
    | _ => none

/-- How many of the events are rising edges of CLK (00 R14), from a line state. -/
def risingEdges : Lines → List Event → Nat
  | _, [] => 0
  | ls, e :: es =>
    (if ls.lvl.clk = .low ∧ (ls.apply e).lvl.clk = .high then 1 else 0) + risingEdges (ls.apply e) es

/-- From `s` a command emits exactly `es`, leaves the registers at `r`, and ends in `PHASE = IDLE`: the trace grows by
`es` (10 R35), the line state changes through `es` alone (10 R36), and the frame is everything `r` says. -/
structure Ran (s : State) (es : List Event) (r : Regs) (t : State) : Prop where
  trace : t.trace = s.trace ++ es
  lines : t.lines = s.lines.applyAll es
  regs : t.regs = r
  phase : t.phase = .idle

end Sys2Proof.Machine
end

