-- ==== Sys2Proof/Safety.lean ====
section
/-! DEFINITION. What counts as a safe run: the invariant that holds between commands, the checks a trace has to pass, and
the obligations in real time that the spec puts on the host. -/

namespace Sys2Proof.Machine

/-- What holds between commands. -/
structure State.Inv (s : State) : Prop where
  /-- `PHASE = IDLE` (10 R33). -/
  idle : s.phase = .idle
  /-- `MODE` is Unknown or Normal (43 R151). -/
  mode : s.mode = .unknown ∨ s.mode = .normal
  /-- An unattached block has all lines absent (60 R218). -/
  unattached : s.chain = 0#8 → s.wired = 0#5
  /-- After ATTACH, DI and CLK are wired (10 R21). -/
  attached : s.chain ≠ 0#8 → s.isWired .di = true ∧ s.isWired .clk = true
  /-- If OE is absent `PWMCAP` stays 0 (10 R22). -/
  capable : s.pwmcap = true → s.isWired .oe = true
  /-- Each wired line but DO is an output (10 R31). -/
  driven : ∀ l, l ≠ .dout → s.isWired l = true → s.lines.dir.get l = .out
  /-- An absent line was never configured. -/
  absent : ∀ l, s.isWired l = false → s.lines.dir.get l = .uncfg
  /-- A line that is no output has level X (10 R28). -/
  undriven : ∀ l, s.lines.dir.get l ≠ .out → s.lines.lvl.get l = .x
  /-- CLK is low (70 R244). -/
  clockLow : s.isWired .clk = true → s.lines.lvl.clk = .low
  /-- LE is low (42 R133). -/
  latchLow : s.isWired .le = true → s.lines.lvl.le = .low
  /-- The block never drives a level on DO (10 R31). -/
  doUnknown : s.lines.lvl.dout = .x
  /-- PWM mode needs a capable pin, and then `LVL[OE]` is X and `DUTY` holds a value (10 R29, R30). -/
  pwm : s.lines.oem = .pwm → s.pwmcap = true ∧ s.lines.lvl.oe = .x ∧ s.lines.duty ≠ .x
  /-- Every waveform table ends with LE low (42 R133). -/
  tables : s.par.tables.latchLow = true

/-- What the command rules say of a command's word: `mk w` is the command of a word with opcode `op`; such a word runs it
when no bit of `reserved` is 1, and otherwise raises `RESERVED_NONZERO` (30 R72 to R82). -/
def encodedAs (op : Byte) (reserved : Cmd) (mk : Cmd → Instr) : Prop :=
  ∀ (w : Cmd) (s : State), opcodeOf w = op →
    (w &&& reserved = 0#64 → decode w = .ok (mk w) ∧ runWord w s = exec (mk w) s)
    ∧ (w &&& reserved ≠ 0#64 → runWord w s = .next (s.raiseFault .reservedNonzero))

/-- Whether an event that drives a line finds the line configured as an output (10 R38). -/
def drivesOutput (ls : Lines) : Event → Bool
  | .drv l _ => decide (ls.dir.get l = .out)
  | .frm _ => decide (ls.dir.clk = .out ∧ ls.dir.oe = .out ∧ ls.dir.le = .out)
  | .pwm _ => decide (ls.dir.oe = .out)
  | _ => true

/-- Every event of a list that drives a line finds it an output (10 R38). -/
def drivesOutputs : Lines → List Event → Bool
  | _, [] => true
  | ls, e :: es => drivesOutput ls e && drivesOutputs (ls.apply e) es

/-- The tables played in a list of events, `acc` being the frames of the one in progress: a table ends at `DRV(CLK, 0)`
(43 R145). -/
def playedTables : List Frame → List Event → List (List Frame)
  | acc, [] => if acc = [] then [] else [acc]
  | acc, .frm f :: es => playedTables (acc ++ [f]) es
  | acc, .drv .clk false :: es => if acc = [] then playedTables [] es else acc :: playedTables [] es
  | acc, _ :: es => playedTables acc es

/-- Whether frames are those of a target table of `SwitchMode` (43 R146). -/
def isTarget (ws : WaveTables) (fs : List Frame) : Bool := decide (fs = ws.normal ∨ fs = ws.cfg ∨ fs = ws.ed)

/-- No target table without the transition table right before it (70 R243), `prev` being the table before the list. -/
def targetsFollowTransition (ws : WaveTables) : List Frame → List (List Frame) → Bool
  | _, [] => true
  | prev, t :: rest => (!isTarget ws t || decide (prev = ws.trans)) && targetsFollowTransition ws t rest

/-- Events that reach no line: the warnings, waits, queries and samples (10 R36). -/
def Event.touchesLines : Event → Bool
  | .dirOut _ => true
  | .dirIn _ => true
  | .drv _ _ => true
  | .frm _ => true
  | .pwm _ => true
  | _ => false

/-- A warning event. -/
def Event.isWarning : Event → Bool
  | .warn _ _ => true
  | _ => false

/-- A duty-cycle write. -/
def Event.isPwm : Event → Bool
  | .pwm _ => true
  | _ => false

/-- A run counts only while no fault is recorded: "a claim about a program must assume `FAULT = 0`" (60 R214, R216). -/
def State.clean (s : State) : Bool := s.fault == 0#3

/-- The hazard after ERROR_DETECT: DO is left an output (70 R247). -/
def State.doContention (s : State) : Bool := decide (s.lines.dir.dout = .out)

/-- The time stamps the host gives to events respect their order and every wait: the next event comes no earlier than the
wait asks (70 R241). An obligation of the host; nothing in the model enforces it (log entry 16). The source gives event times
no type or granularity: whole microseconds are a DESIGN CHOICE (log entry 16). -/
def hostMeetsWaits : List (Event × Nat) → Bool
  | (e, t) :: (e', t') :: rest => decide (t + (e.waitUs).getD 0 ≤ t') && hostMeetsWaits ((e', t') :: rest)
  | _ => true

/-- Two frames that follow each other in a table, OE low in the first and high in the second: the end of an OE pulse. -/
def endsOePulse (fs : List Frame) (f g : Frame) : Bool := !f.oe && g.oe && (fs.zip fs.tail).contains (f, g)

/-- The host keeps the transition table's OE pulse short: the frame that ends it (frame 3 of the default) comes less than
`T_OE_PULSE_MAX_US` after the one before (70 R242). An obligation of the host; nothing in the model enforces it. Stamps and
bound in whole microseconds are a DESIGN CHOICE (log entry 16). -/
def hostKeepsPulseShort (ws : WaveTables) : List (Event × Nat) → Bool
  | (.frm f, t) :: (.frm g, t') :: rest =>
    (!endsOePulse ws.trans f g || decide (t' < t + Config.oePulseMaxUs)) && hostKeepsPulseShort ws ((.frm g, t') :: rest)
  | _ :: rest => hostKeepsPulseShort ws rest
  | [] => true

end Sys2Proof.Machine
end

