-- ==== Sys2Proof/Certificates/Slice0/Obligations.lean ====
section
/-! DEFINITION. The statements for the provers. Each docstring names the rule of spec/ it formalises, or says what it is
derived from. `Ran s es r t` says that from `s` to `t` exactly the events `es` were emitted, the line state changed through
them alone, the registers became `r` (every register not named in `r` is unchanged) and `PHASE` is IDLE. -/

open Sys2Proof Sys2Proof.Machine

/-! ### Encoding -/

/-- Derived from 30_encoding sections 2 to 4: decoding the encoding of a command gives the command, every operand at every
value its field admits, the values outside their range (30 R79) included. -/
def Obligations.DecodeOfEncodeIsTheCommand : Prop := ∀ i : Instr, decode (encode i) = .ok i

/-- Derived from 30_encoding sections 2 to 4: a word the decoder accepts is the encoding of the command it reads, so no bit of
a word is dropped. -/
def Obligations.EncodeOfDecodeIsTheWord : Prop := ∀ (w : Cmd) (i : Instr), decode w = .ok i → encode i = w

/-- 30 R81: a word selects a row of the opcode map exactly when its masked bits are the row's match. `r` stands for a row by
its constructor alone. -/
def Obligations.WordSelectsItsRow : Prop :=
  ∀ (w : Cmd) (r : Instr), (w &&& rowMask r = rowMatch r) ↔ ∃ i, decode w = .ok i ∧ rowMatch i = rowMatch r

/-- 30 R80: the opcode is checked first, then the reserved bits of the opcode's row, then the value constraints; the first
check that fails raises its fault, whatever the state; a word that passes all three runs its command. -/
def Obligations.ChecksComeInOrder : Prop :=
  ∀ (w : Cmd) (s : State),
    (¬ (1 ≤ (opcodeOf w).toNat ∧ (opcodeOf w).toNat ≤ 14) → runWord w s = .next (s.raiseFault .illegalOpcode))
    ∧ (∀ r : Instr, opcodeOf w = opcodeOf (rowMatch r) → w &&& rowMask r ≠ rowMatch r →
        runWord w s = .next (s.raiseFault .reservedNonzero))
    ∧ (∀ i, decode w = .ok i → i.wellFormed = false → runWord w s = .next (s.raiseFault .operandRange))
    ∧ (∀ i, decode w = .ok i → i.wellFormed = true → runWord w s = exec i s)

/-- 30 R85: the encoding examples: each line of assembly gives its word, and the word decodes to the command. -/
def Obligations.ExampleWordsDecode : Prop :=
  (assembleWord ("ATTACH 1, ".toList ++ inBraces "DI, CLK".toList) = some 0x0101000000000003#64
      ∧ decode 0x0101000000000003#64 = .ok (.attach 1#8 0b00011#5))
  ∧ (assembleWord ("ATTACH 1, ".toList ++ inBraces "DI, CLK, LE, OE, DO".toList) = some 0x010100000000001F#64
      ∧ decode 0x010100000000001F#64 = .ok (.attach 1#8 0b11111#5))
  ∧ (assembleWord ("ATTACH 3, ".toList ++ inBraces "DI, CLK, LE, OE".toList) = some 0x010300000000000F#64
      ∧ decode 0x010300000000000F#64 = .ok (.attach 3#8 0b01111#5))
  ∧ (assembleWord "SHIFT 0x8001".toList = some 0x0200000000008001#64
      ∧ decode 0x0200000000008001#64 = .ok (.shift 0x8001#16))
  ∧ (assembleWord "SEND 0xAAAA".toList = some 0x030000000000AAAA#64
      ∧ decode 0x030000000000AAAA#64 = .ok (.send 0xAAAA#16))
  ∧ (assembleWord "ALL LOW".toList = some 0x0400000000000000#64
      ∧ decode 0x0400000000000000#64 = .ok (.all false))
  ∧ (assembleWord "ALL HIGH".toList = some 0x0400000000000001#64
      ∧ decode 0x0400000000000001#64 = .ok (.all true))
  ∧ (assembleWord "SEND_BITS 3, 0x0005, 0".toList = some 0x0503000000000005#64
      ∧ decode 0x0503000000000005#64 = .ok (.sendBits 3#5 0#16 0x0005#16))
  ∧ (assembleWord "SEND_BITS 2, 0x0002, 10".toList = some 0x0502000A00000002#64
      ∧ decode 0x0502000A00000002#64 = .ok (.sendBits 2#5 10#16 0x0002#16))
  ∧ (assembleWord "LATCH".toList = some 0x0600000000000000#64
      ∧ decode 0x0600000000000000#64 = .ok .latch)
  ∧ (assembleWord "NORMAL".toList = some 0x0700000000000000#64
      ∧ decode 0x0700000000000000#64 = .ok .normal)
  ∧ (assembleWord "ERROR_DETECT".toList = some 0x0800000000000000#64
      ∧ decode 0x0800000000000000#64 = .ok .errorDetect)
  ∧ (assembleWord "CONFIG 1, 0, 32".toList = some 0x0900000000010020#64
      ∧ decode 0x0900000000010020#64 = .ok (.config 1#8 0#8 32#8))
  ∧ (assembleWord "CONFIG 0, 0, 127".toList = some 0x090000000000007F#64
      ∧ decode 0x090000000000007F#64 = .ok (.config 0#8 0#8 127#8))
  ∧ (assembleWord "ON".toList = some 0x0A00000000000000#64
      ∧ decode 0x0A00000000000000#64 = .ok .on)
  ∧ (assembleWord "OFF".toList = some 0x0B00000000000000#64
      ∧ decode 0x0B00000000000000#64 = .ok .off)
  ∧ (assembleWord "BRIGHTNESS 64".toList = some 0x0C00000000000040#64
      ∧ decode 0x0C00000000000040#64 = .ok (.brightness 64#8))
  ∧ (assembleWord "RESET".toList = some 0x0D00000000000000#64
      ∧ decode 0x0D00000000000000#64 = .ok .reset)
  ∧ (assembleWord "FLASH 500, 100, 1".toList = some 0x0E010064000001F4#64
      ∧ decode 0x0E010064000001F4#64 = .ok (.flash true 100#16 500#32))

/-- 30 R84: `ATTACH` with pins alone assembles as `ATTACH 1,` with the same pins, a pin left out of the set has its `WIRES`
bit 0, and `ATTACH` of DI and CLK is the 2-wire attach. There is no other pseudo-instruction: a line assembles only to the
command its own mnemonic names. -/
def Obligations.AttachWithoutLengthMeansOne : Prop :=
  (∀ pins : List Token,
    assembleTokens (.word "ATTACH".toList :: .openBrace :: pins)
      = assembleTokens (.word "ATTACH".toList :: .word ['1'] :: .comma :: .openBrace :: pins))
  ∧ (∀ (pins : List Token) (ws : BitVec 5) (l : Line), pinList pins = some ws →
      (∀ cs, .word cs ∈ pins → pinLine cs ≠ some l) → ws.getLsbD (lineBit l) = false)
  ∧ assembleLine ("ATTACH ".toList ++ inBraces "DI, CLK".toList) = some (.attach 1#8 0b00011#5)
  ∧ (∀ (ts : List Token) (i : Instr), assembleTokens ts = some i → ∃ rest, ts = .word i.mnemonic.toList :: rest)

/-- 30 R82: opcodes 0x00 and 0x0F to 0xFF are illegal, a nonzero reserved bit under a legal opcode is faulted, and no command
word plays a target table but those of NORMAL, ERROR_DETECT, CONFIG and RESET. -/
def Obligations.OnlyFourCommandsPlayTargetTables : Prop :=
  ∀ (w : Cmd) (s : State),
    ((opcodeOf w).toNat = 0 ∨ 0x0F ≤ (opcodeOf w).toNat → runWord w s = .next (s.raiseFault .illegalOpcode))
    ∧ (∀ r : Instr, opcodeOf w = opcodeOf (rowMatch r) → w &&& rowMask r ≠ rowMatch r →
        runWord w s = .next (s.raiseFault .reservedNonzero))
    ∧ (∀ (t : State) (es : List Event), runWord w s = .next t → t.trace = s.trace ++ es →
        (∃ fs ∈ playedTables [] es, isTarget s.par.tables fs = true) →
          ∃ i, decode w = .ok i ∧ (i = .normal ∨ i = .errorDetect ∨ (∃ cur band gain, i = .config cur band gain) ∨ i = .reset))

/-! ### The step -/

/-- Derived from 10_state section 3: when the word at the command port decodes to a command, a step accepts that word and runs
the command. -/
def Obligations.StepRunsTheDecodedCommand : Prop :=
  ∀ (s : State) (w : Cmd) (rest : List Cmd) (i : Instr),
    s.pending = w :: rest → decode w = .ok i → step s = exec i { s with pending := rest }

/-- Derived from 70_reset_and_hazards section 1: with no word at the command port the block waits, and a step changes nothing
(log entry 2 says that waiting is a step). -/
def Obligations.IdleBlockWaits : Prop := ∀ s : State, s.pending = [] → step s = .next s

/-- 60 R216: taking a fault sets its bit of `FAULT` (bit 0 ILLEGAL_OPCODE, bit 1 RESERVED_NONZERO, bit 2 OPERAND_RANGE, 60
R214) and changes nothing else, the block accepting the next command; every fault is raised before an event of the command;
and no step clears a bit of `FAULT`, RESET included. -/
def Obligations.FaultOnlySetsItsStickyBit : Prop :=
  (faultBit .illegalOpcode = 0b001#3 ∧ faultBit .reservedNonzero = 0b010#3 ∧ faultBit .operandRange = 0b100#3)
  ∧ (∀ (s : State) (w : Cmd) (rest : List Cmd) (c : FaultCause), s.pending = w :: rest → decode w = .error c →
    step s = .next { s with pending := rest, fault := s.fault ||| faultBit c })
  ∧ (∀ (i : Instr) (s : State), i.wellFormed = false → exec i s = .next { s with fault := s.fault ||| 0b100#3 })
  ∧ (∀ s t : State, step s = .next t → s.fault &&& t.fault = s.fault)

/-- 40 R101: an ATTACH with chain length 0, or without DI or CLK, raises OPERAND_RANGE and changes no other state. -/
def Obligations.AttachWithoutItsOperandsFaults : Prop :=
  ∀ (n : BitVec 8) (wires : BitVec 5) (s : State),
    n = 0#8 ∨ wires.getLsbD 0 = false ∨ wires.getLsbD 1 = false →
      exec (.attach n wires) s = .next { s with fault := s.fault ||| 0b100#3 }

/-- Derived from 41_shift section 2 and 30_encoding section 3: a SEND_BITS whose `COUNT` is 0 or above 16 raises OPERAND_RANGE
and changes no other state. -/
def Obligations.SendBitsOutOfRangeFaults : Prop :=
  ∀ (count : BitVec 5) (delay : BitVec 16) (bits : Word) (s : State), count.toNat = 0 ∨ 16 < count.toNat →
    exec (.sendBits count delay bits) s = .next { s with fault := s.fault ||| 0b100#3 }

/-- Derived from 60_exceptions section 1: no command of the block stops; every one, from every state, has a next state. -/
def Obligations.EveryCommandCompletes : Prop := ∀ (i : Instr) (s : State), ∃ t, exec i s = .next t

/-! ### Power-on -/

/-- 70 R230: the state at power-on. The micro-registers, which the rule leaves unspecified, are not in the statement. -/
def Obligations.PowerOnState : Prop :=
  State.reset.chain = 0#8 ∧ State.reset.wired = 0#5 ∧ State.reset.pwmcap = false
  ∧ State.reset.debug = Config.debugEnabled ∧ State.reset.mode.code = 0#2 ∧ State.reset.result = 0x0000#16
  ∧ State.reset.fault = 0b000#3
  ∧ (∀ l, State.reset.lines.dir.get l = .uncfg) ∧ (∀ l, State.reset.lines.lvl.get l = .x)
  ∧ State.reset.lines.oem = .dig ∧ State.reset.lines.duty = .x
  ∧ State.reset.phase = .idle ∧ State.reset.trace = []

/-! ### ATTACH -/

/-- 40 R100 and R102: the first ATTACH records the chain length and the wiring, and `PWMCAP` when OE is wired, and emits its
setup events in order; a redundant one only warns; the checks of its word and of its operands come before both. A word with
opcode 0x01 is this command, unless a reserved bit of it is 1: then it raises RESERVED_NONZERO. -/
def Obligations.AttachFollowsItsRule : Prop :=
  encodedAs 0x01#8 0x0000FFFFFFFFFFE0#64 (fun w => .attach (w.extractLsb' 48 8) (w.extractLsb' 0 5))
  ∧ ∀ (n : BitVec 8) (wires : BitVec 5) (s : State),
    (n ≠ 0#8 → wires.getLsbD 0 = true → wires.getLsbD 1 = true → s.chain = 0#8 →
      ∃ t, exec (.attach n wires) s = .next t ∧
        Ran s (attachEvents wires s.par.oePwmCapable)
          { s.regs with
            chain := n, wired := wires
            pwmcap := if wires.getLsbD 3 then s.par.oePwmCapable else s.pwmcap } t)
    ∧ (n ≠ 0#8 → wires.getLsbD 0 = true → wires.getLsbD 1 = true → s.chain ≠ 0#8 →
      ∃ t, exec (.attach n wires) s = .next t ∧ Ran s (warnEvents s.regs .redundantAttach) s.regs t)
    ∧ (n = 0#8 ∨ wires.getLsbD 0 = false ∨ wires.getLsbD 1 = false →
      exec (.attach n wires) s = .next (s.raiseFault .operandRange))

/-- 40 R106: the line state after a first ATTACH with all five lines wired, from the line state of power-on: the drivers are
powered, and nothing has been shifted or latched. -/
def Obligations.AttachAllLinesLineState : Prop :=
  ∀ (n : BitVec 8) (s : State), n ≠ 0#8 → s.chain = 0#8 → s.lines = State.reset.lines →
    ∃ t, exec (.attach n 0b11111#5) s = .next t
      ∧ t.lines.dir = ⟨.out, .out, .out, .out, .inp⟩ ∧ t.lines.lvl = ⟨.x, .low, .low, .low, .x⟩ ∧ t.lines.oem = .dig
      ∧ driversPowered t.lines = .high
      ∧ ∃ es, t.trace = s.trace ++ es ∧ .drv .clk true ∉ es ∧ .drv .le true ∉ es

/-- 70 R234: no command detaches the block, so once attached `CHAIN` and `WIRED` stay; `PWMCAP` stays with them (40 R103). -/
def Obligations.AttachHappensOnce : Prop :=
  ∀ s t : State, s.chain ≠ 0#8 → step s = .next t → t.chain = s.chain ∧ t.wired = s.wired ∧ t.pwmcap = s.pwmcap

/-! ### Shift Protocol and Latch Control -/

/-- 41 R114: SHIFT emits the word's 48 shift events and writes no register; unwired, it only warns. A word with opcode 0x02 is
this command, unless a reserved bit of it is 1: then it raises RESERVED_NONZERO. -/
def Obligations.ShiftFollowsItsRule : Prop :=
  encodedAs 0x02#8 0x00FFFFFFFFFF0000#64 (fun w => .shift (w.extractLsb' 0 16))
  ∧ ∀ (w : Word) (s : State), ∃ t, exec (.shift w) s = .next t ∧
    Ran s (if s.canShift then bitsEvents (wordBits w) else warnEvents s.regs .unwired) s.regs t

/-- 41 R115: SEND shifts the word, then latches it if LE is wired, and writes no register; unwired, it only warns. A word with
opcode 0x03 is this command, unless a reserved bit of it is 1: then it raises RESERVED_NONZERO. -/
def Obligations.SendFollowsItsRule : Prop :=
  encodedAs 0x03#8 0x00FFFFFFFFFF0000#64 (fun w => .send (w.extractLsb' 0 16))
  ∧ ∀ (w : Word) (s : State), ∃ t, exec (.send w) s = .next t ∧
    Ran s (if s.canShift then bitsEvents (wordBits w) ++ whenWired (s.isWired .le) latchEvents
      else warnEvents s.regs .unwired) s.regs t

/-- 41 R116: ALL shifts the fill word once per chip in the chain, then latches once if LE is wired, and writes no register;
unwired, it only warns. A word with opcode 0x04 is this command, unless a reserved bit of it is 1: then it raises
RESERVED_NONZERO. -/
def Obligations.AllFollowsItsRule : Prop :=
  encodedAs 0x04#8 0x00FFFFFFFFFFFFFE#64 (fun w => .all (w.getLsbD 0))
  ∧ ∀ (level : Bool) (s : State), ∃ t, exec (.all level) s = .next t ∧
    Ran s (if s.canShift then allEvents s.regs level else warnEvents s.regs .unwired) s.regs t

/-- 41 R117: SEND_BITS shifts `BITS[COUNT-1]` down to `BITS[0]`, with a latch (if LE is wired) and a wait after each bit when
`DELAY ≠ 0`, or one latch at the end; it writes no register; unwired, it only warns; out of range, it faults. A word with
opcode 0x05 is this command, unless a reserved bit of it is 1: then it raises RESERVED_NONZERO. -/
def Obligations.SendBitsFollowsItsRule : Prop :=
  encodedAs 0x05#8 0x00E00000FFFF0000#64
      (fun w => .sendBits (w.extractLsb' 48 5) (w.extractLsb' 32 16) (w.extractLsb' 0 16))
  ∧ ∀ (count : BitVec 5) (delay : BitVec 16) (bits : Word) (s : State),
    (1 ≤ count.toNat ∧ count.toNat ≤ 16 → ∃ t, exec (.sendBits count delay bits) s = .next t ∧
      Ran s (if s.canShift then sendBitsEvents s.regs count.toNat delay bits else warnEvents s.regs .unwired) s.regs t)
    ∧ (count.toNat = 0 ∨ 16 < count.toNat →
      exec (.sendBits count delay bits) s = .next (s.raiseFault .operandRange))

/-- Derived from 41_shift section 2: SEND_BITS with `COUNT = 16` and `DELAY = 0` emits the same events as SEND with `W =
BITS`, and leaves the same lines and registers. -/
def Obligations.SixteenBitsWithoutDelayIsSend : Prop :=
  ∀ (bits : Word) (s : State), ∃ t u, exec (.sendBits 16#5 0#16 bits) s = .next t ∧ exec (.send bits) s = .next u
    ∧ t.trace = u.trace ∧ t.lines = u.lines ∧ t.regs = u.regs

/-- 41 R119: with CLK low, SHIFT makes exactly 16 clock pulses, each a rising edge, and writes bit 15 first and bit 0 last on
the data line; in 2-wire mode SEND makes the same full shift and no latch pulse. -/
def Obligations.ShiftIsMsbFirst : Prop :=
  ∀ (w : Word) (s : State), s.canShift = true → s.lines.lvl.clk = .low →
    (∃ t es, exec (.shift w) s = .next t ∧ t.trace = s.trace ++ es
      ∧ risingEdges s.lines es = 16 ∧ es.count (.drv .clk true) = 16 ∧ es.count (.drv .clk false) = 16
      ∧ (dataBits es).length = 16 ∧ ∀ k < 16, (dataBits es)[k]? = some (w.getLsbD (15 - k)))
    ∧ (s.isWired .le = false → ∃ t es, exec (.send w) s = .next t ∧ t.trace = s.trace ++ es
      ∧ risingEdges s.lines es = 16 ∧ dataBits es = wordBits w ∧ ∀ v, .drv .le v ∉ es)

/-- 41 R113: after `ShiftWord` DI holds the word's bit 0 and CLK is low; after `ShiftByte` DI holds the last bit sent and CLK
is low. -/
def Obligations.DataLineHoldsTheLastBit : Prop :=
  ∀ (w : Word) (v : Byte) (s : State),
    (shiftWord w s).lines.lvl.di = levelOf (w.getLsbD 0) ∧ (shiftWord w s).lines.lvl.clk = .low
    ∧ (shiftByteMsb v s).lines.lvl.di = levelOf (v.getLsbD 0) ∧ (shiftByteMsb v s).lines.lvl.clk = .low
    ∧ (shiftByteLsb v s).lines.lvl.di = levelOf (v.getLsbD 7) ∧ (shiftByteLsb v s).lines.lvl.clk = .low

/-- 42 R131: LATCH emits one latch pulse and writes no register; with LE absent it only warns. A word with opcode 0x06 is this
command, unless a reserved bit of it is 1: then it raises RESERVED_NONZERO. -/
def Obligations.LatchFollowsItsRule : Prop :=
  encodedAs 0x06#8 0x00FFFFFFFFFFFFFF#64 (fun _ => .latch)
  ∧ ∀ s : State, ∃ t, exec .latch s = .next t ∧
    Ran s (if s.isWired .le then latchEvents else warnEvents s.regs .unwired) s.regs t
    ∧ (s.isWired .le = true → t.lines.lvl.le = .low)

/-! ### The mode state machine -/

/-- 43 R150: after any table the clock line is recorded low, and `SwitchMode` plays the transition table, then the target
table, whatever frames `WAVE_TABLES` holds for them; it writes `MODE` alone (43 R146). -/
def Obligations.SwitchModePlaysTransitionFirst : Prop :=
  ∀ (T : Table) (s : State),
    (playTable T s).lines.lvl.clk = .low ∧ (playTable T s).trace = s.trace ++ playEvents s.par.tables T
    ∧ (switchMode T s).lines.lvl.clk = .low
    ∧ (switchMode T s).trace = s.trace ++ playEvents s.par.tables .trans ++ playEvents s.par.tables T
    ∧ (switchMode T s).lines = s.lines.applyAll (switchEvents s.par.tables T)
    ∧ (switchMode T s).regs
      = { s.regs with
          mode := match T with
            | .normal => .normal
            | .cfg => .configuration
            | .ed => .errorDetect
            | .trans | .rr => s.mode }

/-- 43 R148: NORMAL with LE and OE wired plays the events of `NormalMode` and records Normal, whatever `MODE` holds; with the
default tables these are the rule's 12 events, and OE ends at 1; otherwise it only warns. A word with opcode 0x07 is this
command, unless a reserved bit of it is 1: then it raises RESERVED_NONZERO. -/
def Obligations.NormalFollowsItsRule : Prop :=
  encodedAs 0x07#8 0x00FFFFFFFFFFFFFF#64 (fun _ => .normal)
  ∧ ∀ s : State,
    (s.regs.canSwitch = true → ∃ t, exec .normal s = .next t ∧
      Ran s (switchEvents s.par.tables .normal) { s.regs with mode := .normal } t
      ∧ (s.par.tables = standardTables → t.lines.lvl.oe = .high ∧ t.trace = s.trace
          ++ [.frm (frame true true false), .frm (frame false true false), .frm (frame true false false),
              .frm (frame false true false), .frm (frame true true false), .frm (frame false true false), .drv .clk false,
              .frm (frame true true false), .frm (frame false true false), .frm (frame true true false),
              .frm (frame false true false), .drv .clk false]))
    ∧ (s.regs.canSwitch = false → ∃ t, exec .normal s = .next t ∧ Ran s (warnEvents s.regs .unwired) s.regs t)

/-- 43 R151: `MODE` after each command, from Unknown at power-on. A command not listed, and one whose condition fails, leaves
it unchanged; so between commands it is only Unknown or Normal. -/
def Obligations.ModeTransitionTable : Prop :=
  State.reset.mode = .unknown ∧ ∀ (i : Instr) (s t : State), exec i s = .next t →
    t.mode = (match i with
      | .normal | .config _ _ _ | .reset => if s.isWired .le && s.isWired .oe then .normal else s.mode
      | .errorDetect => if s.isWired .le && s.isWired .oe && s.isWired .dout then .normal else s.mode
      | _ => s.mode)
    ∧ (s.mode = .unknown ∨ s.mode = .normal → t.mode = .unknown ∨ t.mode = .normal)

/-- Derived from 43_mode section 2 (the record never gates the sequence) and 44_error_detect: two runs that differ only in
`MODE` emit the same events and end alike, the micro-sequencer's registers included, but for `MODE` itself. -/
def Obligations.ModeGatesNothing : Prop :=
  ∀ (i : Instr) (s : State) (m : Mode), ∃ t u, exec i s = .next t ∧ exec i { s with mode := m } = .next u
    ∧ u = { t with mode := u.mode } ∧ (u.mode = t.mode ∨ (u.mode = m ∧ t.mode = s.mode))

/-- 70 R248: NORMAL, CONFIG and ERROR_DETECT, their lines wired, leave OE at 1, the default Normal table ending so; with other
tables OE is at the level of that table's last frame. ON after them brings it to 0. -/
def Obligations.OutputsAreDarkAfterModeCommand : Prop :=
  ∀ (i : Instr) (s t : State), i = .normal ∨ (∃ cur band gain, i = .config cur band gain) ∨ i = .errorDetect →
    s.regs.canSwitch = true → (i = .errorDetect → s.isWired .dout = true) → exec i s = .next t →
      (s.par.tables = standardTables → t.lines.lvl.oe = .high)
      ∧ (∀ f, s.par.tables.normal.getLast? = some f → t.lines.lvl.oe = levelOf f.oe)
      ∧ ∃ u, exec .on t = .next u ∧ u.lines.lvl.oe = .low

/-! ### Error-Detect -/

/-- 44 R160: ERROR_DETECT with LE, OE and DO wired emits its steps in order (131 events and 44 rising edges from CLK low, with
the default tables), puts the 16 samples into `RESULT` and records Normal; otherwise it warns and `RESULT` becomes 0. A word
with opcode 0x08 is this command, unless a reserved bit of it is 1: then it raises RESERVED_NONZERO. -/
def Obligations.ErrorDetectFollowsItsRule : Prop :=
  encodedAs 0x08#8 0x00FFFFFFFFFFFFFF#64 (fun _ => .errorDetect)
  ∧ ∀ s : State,
    (s.isWired .le = true ∧ s.isWired .oe = true ∧ s.isWired .dout = true → ∃ t, exec .errorDetect s = .next t ∧
      Ran s (errorDetectEvents s.regs)
        { s.regs with
          mode := .normal, result := readbackWord s.regs.nextSamples
          doIn := s.doIn.drop 16, samplesTaken := s.samplesTaken + 16, doDrives := s.doDrives + 1 } t
      ∧ (s.par.tables = standardTables → (errorDetectEvents s.regs).length = 131
          ∧ (s.lines.lvl.clk = .low → risingEdges s.lines (errorDetectEvents s.regs) = 44)))
    ∧ (¬ (s.isWired .le = true ∧ s.isWired .oe = true ∧ s.isWired .dout = true) →
      ∃ t, exec .errorDetect s = .next t ∧ Ran s (warnEvents s.regs .unwired) { s.regs with result := 0x0000#16 } t)

/-- 44 R165: `RESULT[15-k]` is sample k, for every answer of the chip: the samples are free, and the trace records each of
them before its clock pulse. The readback is in `PH_READ`, `BIDX` counts its iterations, and step 8 ends in IDLE. -/
def Obligations.FirstSampleIsTheTopBit : Prop :=
  ∀ s : State, s.isWired .le = true → s.isWired .oe = true → s.isWired .dout = true →
    ∃ t, exec .errorDetect s = .next t
      ∧ (∀ k < 16, t.result.getLsbD (15 - k) = s.sampleAt k)
      ∧ (∃ pre post, t.trace = s.trace ++ pre ++ readEvents ((List.range 16).map s.sampleAt) ++ post)
      ∧ (∀ (k : Nat) (u : State), k < 16 → (readIteration k u).bidx.toNat = k ∧ (readIteration k u).phase = u.phase)
      ∧ (∀ u : State, (readback u).phase = .read) ∧ t.phase = .idle

/-- Derived from 44_error_detect step 8 and 70_reset_and_hazards section 3: ERROR_DETECT leaves DO an output with recorded
level X, its physical level being the draw `DO_LEVEL_AFTER_ED`; RESET makes it an input again. -/
def Obligations.ErrorDetectLeavesDataOutAnOutput : Prop :=
  ∀ s : State, s.isWired .le = true → s.isWired .oe = true → s.isWired .dout = true →
    ∃ t u, exec .errorDetect s = .next t ∧ t.doContention = true ∧ t.lines.lvl.dout = .x
      ∧ t.physLevel .dout = Config.doLevelAfterEd (s.doDrives + 1)
      ∧ exec .reset t = .next u ∧ u.lines.dir.dout = .inp ∧ u.doContention = false

/-- Derived from 70_reset_and_hazards section 3 and 44_error_detect: ERROR_DETECT, its lines wired, emits the clock low that
ends `T_ED`, then a wait of at least 2, then the first event of `T_RR` (events 63, 64 and 65, counted from 0, with the default
tables), and when the stamps of the emitted events meet the waits, as the host is obliged to and log entry 16 models it, at
least 2 microseconds pass between the first and the last of the three. -/
def Obligations.SettlingTimePasses : Prop :=
  ∀ s : State, s.isWired .le = true → s.isWired .oe = true → s.isWired .dout = true →
    ∃ t es k e, exec .errorDetect s = .next t ∧ t.trace = s.trace ++ es
      ∧ es.take (k + 1) = preloadEvents ++ switchEvents s.par.tables .ed
      ∧ es[k]? = some (.drv .clk false) ∧ es[k + 1]? = some (.us (settleUs s.par)) ∧ 2 ≤ settleUs s.par
      ∧ es[k + 2]? = some e ∧ (playEvents s.par.tables .rr).head? = some e
      ∧ (s.par.tables = standardTables → k = 63 ∧ e = .frm (frame true false false))
      ∧ ∀ stamps : List Nat, stamps.length = es.length → hostMeetsWaits (es.zip stamps) = true →
          ∃ a b, stamps[k]? = some a ∧ stamps[k + 2]? = some b ∧ a + 2 ≤ b

/-- Derived from 44_error_detect, 45_config and 47_composite: with the default tables, from CLK low, the number of events and
of rising edges that ERROR_DETECT, CONFIG and RESET emit, their lines wired (RESET on one chip, OE a plain output). -/
def Obligations.EventCounts : Prop :=
  ∀ (i : Instr) (s t : State) (es : List Event), s.par.tables = standardTables → s.lines.lvl.clk = .low →
    s.wired = 0b11111#5 → exec i s = .next t → t.trace = s.trace ++ es →
      (i = .errorDetect → es.length = 131 ∧ risingEdges s.lines es = 44)
      ∧ ((∃ cur band gain, i = .config cur band gain) → es.length = 124 ∧ risingEdges s.lines es = 42)
      ∧ (i = .reset → s.chain = 1#8 → s.pwmcap = false → s.lines.oem = .dig →
          es.length = 189 ∧ risingEdges s.lines es = 63)

/-! ### CONFIG -/

/-- 45 R180: CONFIG with LE and OE wired preloads, enters Configuration mode, sends a zero byte MSB first and the packed byte
LSB first, commits and returns to Normal mode (124 events and 42 rising edges from CLK low, with the default tables); it records Normal and no other register;
otherwise it only warns. A word with opcode 0x09 is this command, unless a reserved bit of it is 1: then it raises
RESERVED_NONZERO. -/
def Obligations.ConfigFollowsItsRule : Prop :=
  encodedAs 0x09#8 0x00FFFFFFFF000000#64
      (fun w => .config (w.extractLsb' 16 8) (w.extractLsb' 8 8) (w.extractLsb' 0 8))
  ∧ ∀ (cur band gain : Byte) (s : State),
    (s.regs.canSwitch = true → ∃ t, exec (.config cur band gain) s = .next t ∧
      Ran s (configEvents s.regs cur band gain) { s.regs with mode := .normal } t
      ∧ (s.par.tables = standardTables → (configEvents s.regs cur band gain).length = 124
          ∧ (s.lines.lvl.clk = .low → risingEdges s.lines (configEvents s.regs cur band gain) = 42)))
    ∧ (s.regs.canSwitch = false → ∃ t, exec (.config cur band gain) s = .next t ∧
      Ran s (warnEvents s.regs .unwired) s.regs t)

/-- 45 R182: the packed byte is the current bit, the band bit and the low six gain bits, in this order from the top. -/
def Obligations.PackedByteIsItsFields : Prop :=
  ∀ cur band gain : Byte,
    pack cur band gain = BitVec.ofBool (decide (cur ≠ 0#8)) ++ BitVec.ofBool (decide (band ≠ 0#8)) ++ gain.extractLsb' 0 6

/-! ### Brightness and power -/

/-- 46 R190: ON drives OE low, as a plain output again first when the pin is capable; it writes no register; with OE absent it
only warns. A word with opcode 0x0A is this command, unless a reserved bit of it is 1: then it raises RESERVED_NONZERO. -/
def Obligations.OnFollowsItsRule : Prop :=
  encodedAs 0x0A#8 0x00FFFFFFFFFFFFFF#64 (fun _ => .on)
  ∧ ∀ s : State, ∃ t, exec .on s = .next t ∧ Ran s (oeEvents s.regs false) s.regs t
    ∧ (s.isWired .oe = true → t.lines.lvl.oe = .low ∧ t.lines.oem = .dig)

/-- 46 R191: OFF drives OE high, as a plain output again first when the pin is capable; it writes no register; with OE absent
it only warns; the chip's shift register and latch stay. A word with opcode 0x0B is this command, unless a reserved bit of it
is 1: then it raises RESERVED_NONZERO. -/
def Obligations.OffFollowsItsRule : Prop :=
  encodedAs 0x0B#8 0x00FFFFFFFFFFFFFF#64 (fun _ => .off)
  ∧ ∀ s : State, ∃ t, exec .off s = .next t ∧ Ran s (oeEvents s.regs true) s.regs t
    ∧ (s.isWired .oe = true → t.lines.lvl.oe = .high ∧ t.lines.oem = .dig)
    ∧ ∀ c : ChipChain, c.observe s.par.tables s.lines (oeEvents s.regs true) = c

/-- 46 R192: BRIGHTNESS writes the inverted duty cycle on a capable pin; it warns "not wired" before "not possible"; it writes
no register. A word with opcode 0x0C is this command, unless a reserved bit of it is 1: then it raises RESERVED_NONZERO. -/
def Obligations.BrightnessFollowsItsRule : Prop :=
  encodedAs 0x0C#8 0x00FFFFFFFFFFFF00#64 (fun w => .brightness (w.extractLsb' 0 8))
  ∧ ∀ (level : Byte) (s : State), ∃ t, exec (.brightness level) s = .next t ∧
    Ran s (brightnessEvents s.regs level) s.regs t
    ∧ (s.isWired .oe = true → s.pwmcap = true →
        t.lines.oem = .pwm ∧ t.lines.duty = .value (255#8 - level) ∧ (255#8 - level).toNat = 255 - level.toNat
          ∧ t.lines.lvl.oe = .x)

/-- 46 R195: on a pin that is not duty-cycle capable no command makes a duty-cycle write; on a capable wired pin BRIGHTNESS
issues duty cycle `255 - level` and nothing else. -/
def Obligations.NoDutyCycleOnAnIncapablePin : Prop :=
  (∀ (i : Instr) (s t : State) (es : List Event), s.pwmcap = false → exec i s = .next t → t.trace = s.trace ++ es →
    es.all (fun e => !e.isPwm) = true)
  ∧ (∀ (level : Byte) (s : State), s.isWired .oe = true → s.pwmcap = true →
    ∃ t, exec (.brightness level) s = .next t ∧ t.trace = s.trace ++ [.pwm (255#8 - level)])

/-- 46 R194 and 70 R252: duty-cycle mode and direct-level mode exclude each other on OE. Any `DRV` or `FRM` on OE ends PWM
mode; so do ON, OFF, RESET and FLASH, and a mode command, which leaves OE at the level of its last frame (a set of tables
without a frame drives nothing). -/
def Obligations.DrivingOeEndsPwmMode : Prop :=
  (∀ (ls : Lines) (v : Bool) (f : Frame), (ls.apply (.drv .oe v)).oem = .dig ∧ (ls.apply (.frm f)).oem = .dig)
  ∧ (∀ (i : Instr) (s t : State), s.isWired .oe = true → exec i s = .next t →
      i = .on ∨ i = .off ∨ i = .reset ∨ (∃ leaveOn bracket onMs, i = .flash leaveOn bracket onMs) → t.lines.oem = .dig)
  ∧ (∀ (i : Instr) (s t : State), s.isWired .oe = true → s.isWired .le = true → exec i s = .next t →
      i = .normal ∨ (∃ cur band gain, i = .config cur band gain) ∨ (i = .errorDetect ∧ s.isWired .dout = true) →
        ∀ f, (s.par.tables.trans ++ s.par.tables.normal).getLast? = some f →
          t.lines.oem = .dig ∧ t.lines.lvl.oe = levelOf f.oe)
  ∧ (∀ (s : State) (v : Bool), s.isWired .oe = true → s.pwmcap = true → oeEvents s.regs v = [.dirOut .oe, .drv .oe v])

/-! ### RESET and FLASH -/

/-- 47 R200: RESET runs its clauses (a) to (g) in order, each under its own condition (189 events in the rule's own case, and
`ALL LOW` in 2-wire mode); it records Normal when LE and OE are wired, and writes no other register. A word with opcode 0x0D
is this command, unless a reserved bit of it is 1: then it raises RESERVED_NONZERO. -/
def Obligations.ResetFollowsItsRule : Prop :=
  encodedAs 0x0D#8 0x00FFFFFFFFFFFFFF#64 (fun _ => .reset)
  ∧ ∀ s : State, ∃ t, exec .reset s = .next t ∧
    Ran s (resetEvents s.regs s.lines.oem) { s.regs with mode := if s.regs.canSwitch then .normal else s.mode } t
    ∧ (s.par.tables = standardTables → s.wired = 0b11111#5 → s.chain = 1#8 → s.pwmcap = false → s.lines.oem = .dig →
        (resetEvents s.regs s.lines.oem).length = 189 ∧ t.lines.lvl.oe = .low)
    ∧ (s.wired = 0b00011#5 → resetEvents s.regs s.lines.oem = allEvents s.regs false
        ∧ (allEvents s.regs false).length = 48 * s.chain.toNat)

/-- 47 R204: RESET always ends with OE enabled when OE is wired, whatever the state before it. -/
def Obligations.ResetEndsEnabled : Prop :=
  ∀ s : State, s.isWired .oe = true → ∃ t, exec .reset s = .next t ∧ t.lines.lvl.oe = .low ∧ t.lines.oem = .dig
    ∧ ∃ es, t.trace = es ++ [.drv .oe false]

/-- 47 R201: FLASH emits off, bracket, on, on-period, off, bracket and, when `LEAVE_ON`, on; every wait is emitted, a zero one
too; it writes no register. A word with opcode 0x0E is this command, unless a reserved bit of it is 1: then it raises
RESERVED_NONZERO. -/
def Obligations.FlashFollowsItsRule : Prop :=
  encodedAs 0x0E#8 0x00FE000000000000#64
      (fun w => .flash (w.getLsbD 48) (w.extractLsb' 32 16) (w.extractLsb' 0 32))
  ∧ ∀ (leaveOn : Bool) (bracket : BitVec 16) (onMs : BitVec 32) (s : State),
    ∃ t, exec (.flash leaveOn bracket onMs) s = .next t ∧ Ran s (flashEvents s.regs leaveOn bracket onMs) s.regs t

/-! ### The whole machine -/

/-- Derived from 10_state, 43_mode section 1 and 70_reset_and_hazards section 1: the invariant holds at power-on, the tables
being those of the default (log entry 9). -/
def Obligations.InvariantHoldsAtPowerOn : Prop := State.reset.Inv

/-- Derived from 10_state section 2, 42_latch, 43_mode and 70_reset_and_hazards section 3: every step from a state that meets
the invariant gives a state that meets it. -/
def Obligations.EveryStepKeepsTheInvariant : Prop := ∀ s t : State, s.Inv → step s = .next t → t.Inv

/-- 10 R38: every `DRV`, `FRM` and `PWM` event the commands emit targets a line that is an output at that moment. -/
def Obligations.OnlyOutputsAreDriven : Prop :=
  ∀ s t : State, s.Inv → step s = .next t → ∃ es, t.trace = s.trace ++ es ∧ drivesOutputs s.lines es = true

/-- 10 R35: the trace starts empty, and a step only appends to it; the line state then follows from the appended events alone,
whatever the state. -/
def Obligations.TraceOnlyGrows : Prop :=
  State.reset.trace = []
  ∧ ∀ s t : State, step s = .next t → ∃ es, t.trace = s.trace ++ es ∧ t.lines = s.lines.applyAll es

/-- 70 R243: in the events of any step, no target table comes without the transition table right before it. It is said of
tables that a trace can tell apart (those of the default can); `SwitchModePlaysTransitionFirst` says it of every set. -/
def Obligations.TargetTablesFollowTheTransition : Prop :=
  ∀ (s t : State) (es : List Event), s.par.tables.distinct = true → step s = .next t → t.trace = s.trace ++ es →
    targetsFollowTransition s.par.tables [] (playedTables [] es) = true

/-- 60 R212: two runs that differ only in `DEBUG` emit the same events but for the warnings, which the run without it leaves
out, and end with the same lines and registers. -/
def Obligations.DebugOnlyAddsWarnings : Prop :=
  ∀ (i : Instr) (s : State), ∃ t u es,
    exec i { s with debug := true } = .next t ∧ exec i { s with debug := false } = .next u
    ∧ t.trace = s.trace ++ es ∧ u.trace = s.trace ++ es.filter (fun e => !e.isWarning)
    ∧ u.lines = t.lines ∧ u.regs = { t.regs with debug := false }

/-- 60 R218: on an unattached block every command but ATTACH takes its unwired path: one warning and no line event,
ERROR_DETECT also writing 0 to `RESULT`; FLASH warns for each of its steps and still waits; no register but `RESULT` changes. -/
def Obligations.UnattachedBlockOnlyWarns : Prop :=
  ∀ (i : Instr) (s : State), s.wired = 0#5 → i.wellFormed = true → (∀ n ws, i ≠ .attach n ws) →
    ∃ t es, exec i s = .next t
      ∧ Ran s es (if i = .errorDetect then { s.regs with result := 0x0000#16 } else s.regs) t
      ∧ t.lines = s.lines
      ∧ es = (match i with
        | .flash leaveOn bracket onMs =>
          warnEvents s.regs .unwired ++ [.ms bracket.toNat] ++ warnEvents s.regs .unwired ++ [.ms onMs.toNat]
            ++ warnEvents s.regs .unwired ++ [.ms bracket.toNat] ++ (if leaveOn then warnEvents s.regs .unwired else [])
        | _ => warnEvents s.regs .unwired)

/-- 10 R25: only ERROR_DETECT writes `RESULT`, the diagnostic word or 0 when its preconditions are unmet; the result port
reads it; it is 0 at power-on. -/
def Obligations.OnlyErrorDetectWritesResult : Prop :=
  State.reset.result = 0x0000#16 ∧ (∀ s : State, s.resultPort = s.result)
  ∧ (∀ s t : State, exec .errorDetect s = .next t →
      t.result = if s.isWired .le && s.isWired .oe && s.isWired .dout then readbackWord s.regs.nextSamples else 0x0000#16)
  ∧ ∀ (i : Instr) (s t : State), i ≠ .errorDetect → exec i s = .next t → t.result = s.result

/-- Derived from 60_exceptions section 3: a command emits at most one warning, FLASH at most four. -/
def Obligations.AtMostOneWarning : Prop :=
  ∀ (i : Instr) (s t : State) (es : List Event), exec i s = .next t → t.trace = s.trace ++ es →
    es.countP Event.isWarning ≤ match i with
      | .flash leaveOn _ _ => if leaveOn then 4 else 3
      | _ => 1

/-- Derived from 10_state section 1, 00_scope section 3 and 20_memory section 1: no step writes `DEBUG` or a parameter of the
build, the waveform tables included. -/
def Obligations.ParametersNeverChange : Prop :=
  ∀ s t : State, step s = .next t → t.debug = s.debug ∧ t.par = s.par

/-- Derived from 10_state section 3; the model's choice (log entry 8): a command leaves each micro-register unchanged that its
own sequence does not use. One that it uses is free after the command, so nothing is said of it. -/
def Obligations.MicroRegistersFrame : Prop :=
  ∀ (i : Instr) (s t : State), exec i s = .next t →
    ((match i with | .normal | .errorDetect | .config _ _ _ | .reset => False | _ => True) → t.fidx = s.fidx)
    ∧ ((match i with
        | .shift _ | .send _ | .all _ | .sendBits _ _ _ | .errorDetect | .config _ _ _ | .reset => False
        | _ => True) → t.bidx = s.bidx)
    ∧ ((match i with | .all _ | .reset => False | _ => True) → t.widx = s.widx)
    ∧ (i ≠ .errorDetect → t.acc = s.acc)

/-! ### The chip chain -/

/-- Derived from 20_memory section 5, for the observer of log entry 15: in Normal mode, with CLK low, the events of
`ShiftWord` leave the word in the first chip, and each chip's old bits in the next one. -/
def Obligations.ShiftedWordEntersTheFirstChip : Prop :=
  ∀ (ws : WaveTables) (w : Word) (ls : Lines) (c : ChipChain) (n : Nat), c.inNormal = true → ls.lvl.clk = .low →
    c.shift.length = 16 * (n + 1) →
    (c.observe ws ls (bitsEvents (wordBits w))).chipBits 0 = (List.range 16).map (fun i => levelOf (w.getLsbD i))
    ∧ (∀ k < n, (c.observe ws ls (bitsEvents (wordBits w))).chipBits (k + 1) = c.chipBits k)
    ∧ (c.observe ws ls (bitsEvents (wordBits w))).latch = c.latch

/-- Derived from 20_memory section 5, for the observer of log entry 15: SEND with LE wired, on a chain in Normal mode, brings
the word to the first chip's drivers. -/
def Obligations.SentWordReachesTheDrivers : Prop :=
  ∀ (w : Word) (s : State) (c : ChipChain) (n : Nat), s.canShift = true → s.isWired .le = true → s.lines.lvl.clk = .low →
    c.inNormal = true → c.shift.length = 16 * (n + 1) →
      ∃ t es, exec (.send w) s = .next t ∧ t.trace = s.trace ++ es
        ∧ ((c.observe s.par.tables s.lines es).driverBits true).take 16 = (List.range 16).map (fun i => levelOf (w.getLsbD i))

/-- Derived from 20_memory section 5 and 43_mode section 2, for the observer of log entry 15: `MODE` is the mode that an
observer of the tables on the lines sees, the tables being ones it can tell apart: if they agree before a step, they agree
after it. -/
def Obligations.ModeRecordsTheTablesPlayed : Prop :=
  ∀ (s t : State) (c : ChipChain) (es : List Event), s.par.tables.distinct = true → c.mode = s.mode → c.frames = [] →
    c.armed = false → step s = .next t → t.trace = s.trace ++ es →
      (c.observe s.par.tables s.lines es).mode = t.mode ∧ (c.observe s.par.tables s.lines es).frames = []
        ∧ (c.observe s.par.tables s.lines es).armed = false

/-- Derived from 41_shift section 2 and 20_memory section 5, for the observer of log entry 15: ALL, with LE wired, on a chain
in Normal mode, fills the shift registers and the output drivers of all its chips with the level. -/
def Obligations.AllFillsEveryChip : Prop :=
  ∀ (level : Bool) (s : State) (c : ChipChain), s.canShift = true → s.isWired .le = true → s.lines.lvl.clk = .low →
    c.inNormal = true → c.shift.length = 16 * s.chain.toNat →
      ∃ t es, exec (.all level) s = .next t ∧ t.trace = s.trace ++ es
        ∧ (c.observe s.par.tables s.lines es).shift = List.replicate (16 * s.chain.toNat) (levelOf level)
        ∧ (c.observe s.par.tables s.lines es).driverBits true = List.replicate (16 * s.chain.toNat) (levelOf level)
end

