-- ==== Sys2Proof/Laws/State.lean ====
section
/-! SUPPORT. The small lemmas of the state and of its named operations: one per field per update, so that no proof
unfolds a record update. The registers are read through `State.regs`, the wiring through `State.isWired`. -/

namespace Sys2Proof.Machine

/-! ### emit -/

@[simp] theorem State.emit_trace (s : State) (e : Event) : (s.emit e).trace = s.trace ++ [e] := rfl
@[simp] theorem State.emit_lines (s : State) (e : Event) : (s.emit e).lines = s.lines.apply e := rfl
@[simp] theorem State.emit_regs (s : State) (e : Event) :
    (s.emit e).regs = { s.regs with doDrives := doDrivesAfter s.doDrives e } := rfl
@[simp] theorem State.emit_phase (s : State) (e : Event) : (s.emit e).phase = s.phase := rfl
@[simp] theorem State.emit_chain (s : State) (e : Event) : (s.emit e).chain = s.chain := rfl
@[simp] theorem State.emit_wired (s : State) (e : Event) : (s.emit e).wired = s.wired := rfl
@[simp] theorem State.emit_pwmcap (s : State) (e : Event) : (s.emit e).pwmcap = s.pwmcap := rfl
@[simp] theorem State.emit_debug (s : State) (e : Event) : (s.emit e).debug = s.debug := rfl
@[simp] theorem State.emit_mode (s : State) (e : Event) : (s.emit e).mode = s.mode := rfl
@[simp] theorem State.emit_result (s : State) (e : Event) : (s.emit e).result = s.result := rfl
@[simp] theorem State.emit_fault (s : State) (e : Event) : (s.emit e).fault = s.fault := rfl
@[simp] theorem State.emit_acc (s : State) (e : Event) : (s.emit e).acc = s.acc := rfl
@[simp] theorem State.emit_widx (s : State) (e : Event) : (s.emit e).widx = s.widx := rfl
@[simp] theorem State.emit_par (s : State) (e : Event) : (s.emit e).par = s.par := rfl
@[simp] theorem State.emit_pending (s : State) (e : Event) : (s.emit e).pending = s.pending := rfl
@[simp] theorem State.emit_doIn (s : State) (e : Event) : (s.emit e).doIn = s.doIn := rfl
@[simp] theorem State.emit_samplesTaken (s : State) (e : Event) : (s.emit e).samplesTaken = s.samplesTaken := rfl
@[simp] theorem State.emit_doDrives (s : State) (e : Event) :
    (s.emit e).doDrives = doDrivesAfter s.doDrives e := rfl
@[simp] theorem State.emit_isWired (s : State) (e : Event) (l : Line) : (s.emit e).isWired l = s.isWired l := rfl

@[simp] theorem doDrivesAfter_drv (n : Nat) (l : Line) (v : Bool) : doDrivesAfter n (.drv l v) = n := rfl
@[simp] theorem doDrivesAfter_frm (n : Nat) (f : Frame) : doDrivesAfter n (.frm f) = n := rfl
@[simp] theorem doDrivesAfter_dirIn (n : Nat) (l : Line) : doDrivesAfter n (.dirIn l) = n := rfl
@[simp] theorem doDrivesAfter_pwm (n : Nat) (d : Byte) : doDrivesAfter n (.pwm d) = n := rfl
@[simp] theorem doDrivesAfter_qry (n : Nat) (b : Bool) : doDrivesAfter n (.qry b) = n := rfl
@[simp] theorem doDrivesAfter_smp (n : Nat) (b : Bool) : doDrivesAfter n (.smp b) = n := rfl
@[simp] theorem doDrivesAfter_us (n k : Nat) : doDrivesAfter n (.us k) = n := rfl
@[simp] theorem doDrivesAfter_ms (n k : Nat) : doDrivesAfter n (.ms k) = n := rfl
@[simp] theorem doDrivesAfter_warn (n : Nat) (w : Warning) (d : Nat) : doDrivesAfter n (.warn w d) = n := rfl
@[simp] theorem doDrivesAfter_dirOut_oe (n : Nat) : doDrivesAfter n (.dirOut .oe) = n := rfl
@[simp] theorem doDrivesAfter_dirOut_le (n : Nat) : doDrivesAfter n (.dirOut .le) = n := rfl
@[simp] theorem doDrivesAfter_dirOut_di (n : Nat) : doDrivesAfter n (.dirOut .di) = n := rfl
@[simp] theorem doDrivesAfter_dirOut_clk (n : Nat) : doDrivesAfter n (.dirOut .clk) = n := rfl
@[simp] theorem doDrivesAfter_dirOut_dout (n : Nat) : doDrivesAfter n (.dirOut .dout) = n + 1 := rfl

/-! ### enter, leave -/

@[simp] theorem State.enter_trace (s : State) (p : Phase) : (s.enter p).trace = s.trace := rfl
@[simp] theorem State.enter_lines (s : State) (p : Phase) : (s.enter p).lines = s.lines := rfl
@[simp] theorem State.enter_regs (s : State) (p : Phase) : (s.enter p).regs = s.regs := rfl
@[simp] theorem State.enter_phase (s : State) (p : Phase) : (s.enter p).phase = p := rfl
@[simp] theorem State.enter_isWired (s : State) (p : Phase) (l : Line) : (s.enter p).isWired l = s.isWired l := rfl
@[simp] theorem State.enter_acc (s : State) (p : Phase) : (s.enter p).acc = s.acc := rfl
@[simp] theorem State.enter_par (s : State) (p : Phase) : (s.enter p).par = s.par := rfl
@[simp] theorem State.leave_trace (s : State) : s.leave.trace = s.trace := rfl
@[simp] theorem State.leave_lines (s : State) : s.leave.lines = s.lines := rfl
@[simp] theorem State.leave_regs (s : State) : s.leave.regs = s.regs := rfl
@[simp] theorem State.leave_phase (s : State) : s.leave.phase = .idle := rfl

/-! ### the micro-sequencer's registers left free -/

@[simp] theorem State.dropFidx_trace (s : State) : s.dropFidx.trace = s.trace := rfl
@[simp] theorem State.dropFidx_lines (s : State) : s.dropFidx.lines = s.lines := rfl
@[simp] theorem State.dropFidx_regs (s : State) : s.dropFidx.regs = s.regs := rfl
@[simp] theorem State.dropFidx_acc (s : State) : s.dropFidx.acc = s.acc := rfl
@[simp] theorem State.dropBidx_trace (s : State) : s.dropBidx.trace = s.trace := rfl
@[simp] theorem State.dropBidx_lines (s : State) : s.dropBidx.lines = s.lines := rfl
@[simp] theorem State.dropBidx_regs (s : State) : s.dropBidx.regs = s.regs := rfl
@[simp] theorem State.dropBidx_acc (s : State) : s.dropBidx.acc = s.acc := rfl
@[simp] theorem State.dropWidx_trace (s : State) : s.dropWidx.trace = s.trace := rfl
@[simp] theorem State.dropWidx_lines (s : State) : s.dropWidx.lines = s.lines := rfl
@[simp] theorem State.dropWidx_regs (s : State) : s.dropWidx.regs = s.regs := rfl
@[simp] theorem State.dropAcc_trace (s : State) : s.dropAcc.trace = s.trace := rfl
@[simp] theorem State.dropAcc_lines (s : State) : s.dropAcc.lines = s.lines := rfl
@[simp] theorem State.dropAcc_regs (s : State) : s.dropAcc.regs = s.regs := rfl

/-! ### what the registers determine -/

theorem State.isWired_of_regs {s t : State} (h : t.regs.wired = s.regs.wired) (l : Line) :
    t.isWired l = s.isWired l := by
  have h' : t.wired = s.wired := h
  simp [State.isWired, h']

theorem State.sampleAt_of_regs {s t : State} (hd : t.regs.doIn = s.regs.doIn)
    (hs : t.regs.samplesTaken = s.regs.samplesTaken) (k : Nat) : t.sampleAt k = s.sampleAt k := by
  have hd' : t.doIn = s.doIn := hd
  have hs' : t.samplesTaken = s.samplesTaken := hs
  simp [State.sampleAt, hd', hs']

/-! ### the line state -/

@[simp] theorem Lines.applyAll_nil (ls : Lines) : ls.applyAll [] = ls := rfl
@[simp] theorem Lines.applyAll_cons (ls : Lines) (e : Event) (es : List Event) :
    ls.applyAll (e :: es) = (ls.apply e).applyAll es := rfl
theorem Lines.applyAll_append (ls : Lines) (es fs : List Event) :
    ls.applyAll (es ++ fs) = (ls.applyAll es).applyAll fs := by
  simp [Lines.applyAll]

@[simp] theorem PerLine.get_set_self {α : Type} (p : PerLine α) (l : Line) (a : α) : (p.set l a).get l = a := by
  cases l <;> rfl

theorem PerLine.get_set_of_ne {α : Type} (p : PerLine α) {l m : Line} (h : m ≠ l) (a : α) :
    (p.set l a).get m = p.get m := by
  cases l <;> cases m <;> first | rfl | exact absurd rfl h

/-! ### taking a fault -/

theorem State.raiseFault_regs (s : State) (c : FaultCause) :
    (s.raiseFault c).regs = { s.regs with fault := s.fault ||| faultBit c } := rfl
@[simp] theorem State.raiseFault_trace (s : State) (c : FaultCause) : (s.raiseFault c).trace = s.trace := rfl
@[simp] theorem State.raiseFault_lines (s : State) (c : FaultCause) : (s.raiseFault c).lines = s.lines := rfl
@[simp] theorem State.raiseFault_phase (s : State) (c : FaultCause) : (s.raiseFault c).phase = s.phase := rfl

/-! ### the command port -/

theorem State.acceptCommand_nil {s : State} (h : s.pending = []) : s.acceptCommand = none := by
  simp [State.acceptCommand, h]

theorem State.acceptCommand_cons {s : State} {w : Cmd} {rest : List Cmd} (h : s.pending = w :: rest) :
    s.acceptCommand = some (w, { s with pending := rest }) := by
  simp [State.acceptCommand, h]

end Sys2Proof.Machine
end

