-- ==== Sys2Proof/Laws/Micro.lean ====
section
/-! SUPPORT. Which micro-registers (10_state R33) each operation leaves: `FIDX` belongs to the tables, `BIDX` to the bits,
`WIDX` to ALL and `ACC` to the readback. -/

namespace Sys2Proof.Machine

@[simp] theorem State.emit_fidx (s : State) (e : Event) : (s.emit e).fidx = s.fidx := rfl
@[simp] theorem State.emit_bidx (s : State) (e : Event) : (s.emit e).bidx = s.bidx := rfl
@[simp] theorem State.enter_fidx (s : State) (p : Phase) : (s.enter p).fidx = s.fidx := rfl
@[simp] theorem State.enter_bidx (s : State) (p : Phase) : (s.enter p).bidx = s.bidx := rfl
@[simp] theorem State.enter_widx (s : State) (p : Phase) : (s.enter p).widx = s.widx := rfl
@[simp] theorem State.leave_fidx (s : State) : s.leave.fidx = s.fidx := rfl
@[simp] theorem State.leave_bidx (s : State) : s.leave.bidx = s.bidx := rfl
@[simp] theorem State.leave_widx (s : State) : s.leave.widx = s.widx := rfl
@[simp] theorem State.leave_acc (s : State) : s.leave.acc = s.acc := rfl
@[simp] theorem State.dropFidx_bidx (s : State) : s.dropFidx.bidx = s.bidx := rfl
@[simp] theorem State.dropFidx_widx (s : State) : s.dropFidx.widx = s.widx := rfl
@[simp] theorem State.dropBidx_fidx (s : State) : s.dropBidx.fidx = s.fidx := rfl
@[simp] theorem State.dropBidx_widx (s : State) : s.dropBidx.widx = s.widx := rfl
@[simp] theorem State.dropWidx_fidx (s : State) : s.dropWidx.fidx = s.fidx := rfl
@[simp] theorem State.dropWidx_bidx (s : State) : s.dropWidx.bidx = s.bidx := rfl
@[simp] theorem State.dropWidx_acc (s : State) : s.dropWidx.acc = s.acc := rfl
@[simp] theorem State.dropAcc_fidx (s : State) : s.dropAcc.fidx = s.fidx := rfl
@[simp] theorem State.dropAcc_bidx (s : State) : s.dropAcc.bidx = s.bidx := rfl
@[simp] theorem State.dropAcc_widx (s : State) : s.dropAcc.widx = s.widx := rfl

@[simp] theorem State.warn_fidx (s : State) (w : Warning) : (s.warn w).fidx = s.fidx := by unfold State.warn; split <;> rfl
@[simp] theorem State.warn_bidx (s : State) (w : Warning) : (s.warn w).bidx = s.bidx := by unfold State.warn; split <;> rfl
@[simp] theorem State.warn_widx (s : State) (w : Warning) : (s.warn w).widx = s.widx := by unfold State.warn; split <;> rfl
@[simp] theorem State.warn_acc (s : State) (w : Warning) : (s.warn w).acc = s.acc := by unfold State.warn; split <;> rfl

@[simp] theorem latchIfWired_fidx (s : State) : (latchIfWired s).fidx = s.fidx := by unfold latchIfWired; split <;> rfl
@[simp] theorem latchIfWired_bidx (s : State) : (latchIfWired s).bidx = s.bidx := by unfold latchIfWired; split <;> rfl
@[simp] theorem latchIfWired_widx (s : State) : (latchIfWired s).widx = s.widx := by unfold latchIfWired; split <;> rfl
@[simp] theorem latchIfWired_acc (s : State) : (latchIfWired s).acc = s.acc := by unfold latchIfWired; split <;> rfl
@[simp] theorem latchPulse_fidx (s : State) : (latchPulse s).fidx = s.fidx := by unfold latchPulse; split <;> simp [pulseLe]
@[simp] theorem latchPulse_bidx (s : State) : (latchPulse s).bidx = s.bidx := by unfold latchPulse; split <;> simp [pulseLe]
@[simp] theorem latchPulse_widx (s : State) : (latchPulse s).widx = s.widx := by unfold latchPulse; split <;> simp [pulseLe]
@[simp] theorem latchPulse_acc (s : State) : (latchPulse s).acc = s.acc := by unfold latchPulse; split <;> simp [pulseLe]

@[simp] theorem shiftBit_fidx (b : Bool) (s : State) : (shiftBit b s).fidx = s.fidx := rfl
@[simp] theorem shiftBit_widx (b : Bool) (s : State) : (shiftBit b s).widx = s.widx := rfl
@[simp] theorem shiftBit_acc (b : Bool) (s : State) : (shiftBit b s).acc = s.acc := rfl
@[simp] theorem latchAndWait_fidx (d : BitVec 16) (s : State) : (latchAndWait d s).fidx = s.fidx := by simp [latchAndWait]
@[simp] theorem latchAndWait_widx (d : BitVec 16) (s : State) : (latchAndWait d s).widx = s.widx := by simp [latchAndWait]
@[simp] theorem latchAndWait_acc (d : BitVec 16) (s : State) : (latchAndWait d s).acc = s.acc := by simp [latchAndWait]

theorem shiftIndices_micro {n : Nat} (v : BitVec n) (is : List Nat) (s : State) :
    (shiftIndices v is s).fidx = s.fidx ∧ (shiftIndices v is s).widx = s.widx ∧ (shiftIndices v is s).acc = s.acc := by
  induction is generalizing s with
  | nil => exact ⟨rfl, rfl, rfl⟩
  | cons i is ih => exact ih _

@[simp] theorem shiftByteMsb_fidx (v : Byte) (s : State) : (shiftByteMsb v s).fidx = s.fidx :=
  (State.dropBidx_fidx _).trans (shiftIndices_micro v _ s).1
@[simp] theorem shiftByteMsb_widx (v : Byte) (s : State) : (shiftByteMsb v s).widx = s.widx :=
  (State.dropBidx_widx _).trans (shiftIndices_micro v _ s).2.1
@[simp] theorem shiftByteMsb_acc (v : Byte) (s : State) : (shiftByteMsb v s).acc = s.acc :=
  (State.dropBidx_acc _).trans (shiftIndices_micro v _ s).2.2
@[simp] theorem shiftByteLsb_fidx (v : Byte) (s : State) : (shiftByteLsb v s).fidx = s.fidx :=
  (State.dropBidx_fidx _).trans (shiftIndices_micro v _ s).1
@[simp] theorem shiftByteLsb_widx (v : Byte) (s : State) : (shiftByteLsb v s).widx = s.widx :=
  (State.dropBidx_widx _).trans (shiftIndices_micro v _ s).2.1
@[simp] theorem shiftByteLsb_acc (v : Byte) (s : State) : (shiftByteLsb v s).acc = s.acc :=
  (State.dropBidx_acc _).trans (shiftIndices_micro v _ s).2.2
@[simp] theorem shiftWord_fidx (w : Word) (s : State) : (shiftWord w s).fidx = s.fidx := by simp [shiftWord]
@[simp] theorem shiftWord_widx (w : Word) (s : State) : (shiftWord w s).widx = s.widx := by simp [shiftWord]
@[simp] theorem shiftWord_acc (w : Word) (s : State) : (shiftWord w s).acc = s.acc := by simp [shiftWord]

theorem shiftWords_micro (fill : Word) (n : Nat) (s : State) :
    (shiftWords fill n s).fidx = s.fidx ∧ (shiftWords fill n s).acc = s.acc := by
  induction n generalizing s with
  | zero => exact ⟨rfl, rfl⟩
  | succ n ih =>
    have hf := shiftWord_fidx fill s
    have ha := shiftWord_acc fill s
    unfold shiftWords
    generalize shiftWord fill s = t at hf ha
    exact ⟨(ih _).1.trans hf, (ih _).2.trans ha⟩

theorem sendBitsLoop_micro (delay : BitVec 16) (bits : Word) (n : Nat) (s : State) :
    (sendBitsLoop delay bits n s).fidx = s.fidx ∧ (sendBitsLoop delay bits n s).widx = s.widx
      ∧ (sendBitsLoop delay bits n s).acc = s.acc := by
  induction n generalizing s with
  | zero => exact ⟨rfl, rfl, rfl⟩
  | succ n ih =>
    unfold sendBitsLoop
    obtain ⟨h1, h2, h3⟩ := ih (if delay ≠ 0#16 then
      latchAndWait delay (shiftBit (bits.getLsbD n) { s.enter .shift with bidx := BitVec.ofNat 4 n })
      else shiftBit (bits.getLsbD n) { s.enter .shift with bidx := BitVec.ofNat 4 n })
    refine ⟨h1.trans ?_, h2.trans ?_, h3.trans ?_⟩ <;> split <;> simp

theorem playFrames_micro (k : Nat) (fs : List Frame) (s : State) :
    (playFrames k fs s).bidx = s.bidx ∧ (playFrames k fs s).widx = s.widx ∧ (playFrames k fs s).acc = s.acc := by
  induction fs generalizing k s with
  | nil => exact ⟨rfl, rfl, rfl⟩
  | cons f fs ih => exact ih _ _

@[simp] theorem playTable_bidx (T : Table) (s : State) : (playTable T s).bidx = s.bidx :=
  ((State.dropFidx_bidx _).trans (State.emit_bidx _ _)).trans (playFrames_micro 0 _ s).1
@[simp] theorem playTable_widx (T : Table) (s : State) : (playTable T s).widx = s.widx :=
  ((State.dropFidx_widx _).trans (State.emit_widx _ _)).trans (playFrames_micro 0 _ s).2.1
@[simp] theorem playTable_acc (T : Table) (s : State) : (playTable T s).acc = s.acc :=
  ((State.dropFidx_acc _).trans (State.emit_acc _ _)).trans (playFrames_micro 0 _ s).2.2
@[simp] theorem switchMode_bidx (T : Table) (s : State) : (switchMode T s).bidx = s.bidx := by simp [switchMode]
@[simp] theorem switchMode_widx (T : Table) (s : State) : (switchMode T s).widx = s.widx := by simp [switchMode]
@[simp] theorem switchMode_acc (T : Table) (s : State) : (switchMode T s).acc = s.acc := by simp [switchMode]
@[simp] theorem normalMode_bidx (s : State) : (normalMode s).bidx = s.bidx := by unfold normalMode; split <;> simp
@[simp] theorem normalMode_widx (s : State) : (normalMode s).widx = s.widx := by unfold normalMode; split <;> simp
@[simp] theorem normalMode_acc (s : State) : (normalMode s).acc = s.acc := by unfold normalMode; split <;> simp

theorem readLoop_micro (k n : Nat) (s : State) :
    (readLoop k n s).fidx = s.fidx ∧ (readLoop k n s).widx = s.widx := by
  induction n generalizing k s with
  | zero => exact ⟨rfl, rfl⟩
  | succ n ih => exact ih _ _

theorem driveOe_micro (v : Bool) (s : State) :
    (driveOe v s).fidx = s.fidx ∧ (driveOe v s).bidx = s.bidx ∧ (driveOe v s).widx = s.widx
      ∧ (driveOe v s).acc = s.acc := by
  unfold driveOe
  split
  · split <;> exact ⟨rfl, rfl, rfl, rfl⟩
  · simp

@[simp] theorem waitMs_fidx (n : Nat) (s : State) : (waitMs n s).fidx = s.fidx := rfl
@[simp] theorem waitMs_bidx (n : Nat) (s : State) : (waitMs n s).bidx = s.bidx := rfl
@[simp] theorem waitMs_widx (n : Nat) (s : State) : (waitMs n s).widx = s.widx := rfl
@[simp] theorem waitMs_acc (n : Nat) (s : State) : (waitMs n s).acc = s.acc := rfl

end Sys2Proof.Machine
end

