-- ==== Sys2Proof/Laws/Ops.lean ====
section
/-! SUPPORT. What each shared operation does, said once: the events it emits, the line state they give, and the registers
it leaves. Each lemma extends what has happened since a first state, so that a command's lemma is its operations' lemmas
in a row. Proofs cite these and do not unfold the operation. -/

namespace Sys2Proof.Machine

/-- From `s` to `t` exactly the events `es` are emitted and the registers become `r`. -/
structure Does (s : State) (es : List Event) (r : Regs) (t : State) : Prop where
  trace : t.trace = s.trace ++ es
  lines : t.lines = s.lines.applyAll es
  regs : t.regs = r

section
variable {s t u : State} {es fs : List Event} {r q : Regs}

theorem Does.start (s : State) : Does s [] s.regs s := ⟨(List.append_nil _).symm, rfl, rfl⟩

/-- The end of a command. -/
theorem Does.ran (h : Does s es r t) : Ran s es r t.leave := ⟨h.trace, h.lines, h.regs, rfl⟩

/-- The same events and registers, written otherwise. -/
theorem Does.as (h : Does s es r t) (he : es = fs) (hr : r = q) : Does s fs q t := he ▸ hr ▸ h

/-- A change that shows neither in the trace nor in the lines nor in the registers. -/
theorem Does.quiet (h : Does s es r t) (ht : u.trace = t.trace) (hl : u.lines = t.lines) (hr : u.regs = t.regs) :
    Does s es r u := ⟨ht.trans h.trace, hl.trans h.lines, hr.trans h.regs⟩

/-- Writes of registers show in the registers alone. -/
theorem Does.write (h : Does s es r t) (ht : u.trace = t.trace) (hl : u.lines = t.lines) (hr : u.regs = q) :
    Does s es q u := ⟨ht.trans h.trace, hl.trans h.lines, hr⟩

theorem Does.isWired (h : Does s es r t) (l : Line) : t.isWired l = r.isWired l := by
  rw [← h.regs]; rfl

theorem Does.par (h : Does s es r t) : t.par = r.par := congrArg Regs.par h.regs

theorem Does.emitAny (h : Does s es r t) (e : Event) :
    Does s (es ++ [e]) { r with doDrives := doDrivesAfter r.doDrives e } (t.emit e) where
  trace := by rw [State.emit_trace, h.trace, List.append_assoc]
  lines := by rw [State.emit_lines, h.lines, Lines.applyAll_append]; rfl
  regs := by rw [State.emit_regs, ← h.regs]; rfl

/-- An event that makes DO no output leaves the registers. -/
theorem Does.emit (h : Does s es r t) (e : Event) (he : doDrivesAfter r.doDrives e = r.doDrives) :
    Does s (es ++ [e]) r (t.emit e) := by
  have k := h.emitAny e
  rwa [he] at k

theorem Does.enter (h : Does s es r t) (p : Phase) : Does s es r (t.enter p) :=
  h.quiet (State.enter_trace t p) (State.enter_lines t p) (State.enter_regs t p)

theorem Does.dropFidx (h : Does s es r t) : Does s es r t.dropFidx :=
  h.quiet (State.dropFidx_trace t) (State.dropFidx_lines t) (State.dropFidx_regs t)

theorem Does.dropBidx (h : Does s es r t) : Does s es r t.dropBidx :=
  h.quiet (State.dropBidx_trace t) (State.dropBidx_lines t) (State.dropBidx_regs t)

theorem Does.dropWidx (h : Does s es r t) : Does s es r t.dropWidx :=
  h.quiet (State.dropWidx_trace t) (State.dropWidx_lines t) (State.dropWidx_regs t)

theorem Does.dropAcc (h : Does s es r t) : Does s es r t.dropAcc :=
  h.quiet (State.dropAcc_trace t) (State.dropAcc_lines t) (State.dropAcc_regs t)

theorem Does.setFidx (h : Does s es r t) (k : BitVec 3) : Does s es r { t with fidx := k } :=
  ⟨h.trace, h.lines, h.regs⟩

theorem Does.setBidx (h : Does s es r t) (k : BitVec 4) : Does s es r { t with bidx := k } :=
  ⟨h.trace, h.lines, h.regs⟩

theorem Does.setWidx (h : Does s es r t) (k : BitVec 8) : Does s es r { t with widx := k } :=
  ⟨h.trace, h.lines, h.regs⟩

theorem Does.setAcc (h : Does s es r t) (a : Word) : Does s es r { t with acc := a } :=
  ⟨h.trace, h.lines, h.regs⟩

theorem Does.warn (h : Does s es r t) (w : Warning) : Does s (es ++ warnEvents r w) r (t.warn w) := by
  have hd : t.debug = r.debug := congrArg Regs.debug h.regs
  unfold State.warn warnEvents
  rw [hd, h.par]
  split
  · exact h.emit _ rfl
  · exact h.as (List.append_nil _).symm rfl

/-! ### Latch Control and the Shift Protocol -/

theorem Does.pulseLe (h : Does s es r t) : Does s (es ++ latchEvents) r (pulseLe t) :=
  ((h.emit (.drv .le true) rfl).emit (.drv .le false) rfl).as (List.append_assoc _ _ _) rfl

theorem Does.latchIfWired (h : Does s es r t) :
    Does s (es ++ whenWired (r.isWired .le) latchEvents) r (latchIfWired t) := by
  unfold Machine.latchIfWired whenWired
  rw [h.isWired]
  split
  · exact h.pulseLe
  · exact h.as (List.append_nil _).symm rfl

theorem Does.latchPulse (h : Does s es r t) :
    Does s (es ++ if r.isWired .le then latchEvents else warnEvents r .unwired) r (latchPulse t) := by
  unfold Machine.latchPulse
  rw [h.isWired]
  split
  · exact h.pulseLe
  · exact h.warn _

theorem Does.shiftBit (h : Does s es r t) (b : Bool) : Does s (es ++ bitEvents b) r (shiftBit b t) :=
  (((h.emit (.drv .di b) rfl).emit (.drv .clk true) rfl).emit (.drv .clk false) rfl).as
    (by simp [bitEvents]) rfl

theorem bitsEvents_append (a b : List Bool) : bitsEvents (a ++ b) = bitsEvents a ++ bitsEvents b := by
  simp [bitsEvents]

theorem bitsEvents_cons (b : Bool) (bs : List Bool) : bitsEvents (b :: bs) = bitEvents b ++ bitsEvents bs := by
  simp [bitsEvents]

theorem Does.shiftIndices {n : Nat} (h : Does s es r t) (v : BitVec n) (is : List Nat) :
    Does s (es ++ bitsEvents (is.map v.getLsbD)) r (shiftIndices v is t) := by
  induction is generalizing es t with
  | nil => exact h.as (List.append_nil _).symm rfl
  | cons i is ih =>
    exact (ih ((h.setBidx (BitVec.ofNat 4 i)).shiftBit (v.getLsbD i))).as
      (by rw [List.map_cons, bitsEvents_cons, List.append_assoc]) rfl

theorem Does.shiftByteMsb (h : Does s es r t) (v : Byte) :
    Does s (es ++ bitsEvents ((List.range 8).map fun k => v.getLsbD (7 - k))) r (shiftByteMsb v t) :=
  ((h.shiftIndices v [7, 6, 5, 4, 3, 2, 1, 0]).dropBidx).as (by simp [List.range_succ]) rfl

theorem Does.shiftByteLsb (h : Does s es r t) (v : Byte) :
    Does s (es ++ bitsEvents ((List.range 8).map fun k => v.getLsbD k)) r (shiftByteLsb v t) :=
  ((h.shiftIndices v [0, 1, 2, 3, 4, 5, 6, 7]).dropBidx).as (by simp [List.range_succ]) rfl

/-- The byte split is byte-order-transparent: the word's bits leave from bit 15 to bit 0 (41 R112). -/
theorem wordBits_split (w : Word) :
    wordBits w = ((List.range 8).map fun k => (w.extractLsb' 8 8).getLsbD (7 - k))
      ++ (List.range 8).map fun k => (w.extractLsb' 0 8).getLsbD (7 - k) := by
  simp [wordBits, List.range_succ]

theorem Does.shiftWord (h : Does s es r t) (w : Word) :
    Does s (es ++ bitsEvents (wordBits w)) r (shiftWord w t) :=
  ((h.shiftByteMsb (w.extractLsb' 8 8)).shiftByteMsb (w.extractLsb' 0 8)).as
    (by rw [wordBits_split, bitsEvents_append, List.append_assoc]) rfl

theorem wordBits_fill (level : Bool) : wordBits (fillWord level) = List.replicate 16 level := by
  cases level <;> decide

/-- With LE wired the preload emits its 50 events. -/
theorem Does.preload (h : Does s es r t) (hl : r.isWired .le = true) : Does s (es ++ preloadEvents) r (preload t) :=
  (((h.enter .preload).shiftWord 0xFFFF#16).latchIfWired).as
    (by rw [hl, show wordBits 0xFFFF#16 = List.replicate 16 true from wordBits_fill true, List.append_assoc]; rfl) rfl

theorem Does.shiftWords (h : Does s es r t) (fill : Word) (n : Nat) :
    Does s (es ++ (List.replicate n (bitsEvents (wordBits fill))).flatten) r (shiftWords fill n t) := by
  induction n generalizing es t with
  | zero => exact h.as (List.append_nil _).symm rfl
  | succ n ih =>
    exact (ih ((h.shiftWord fill).setWidx _)).as
      (by rw [List.replicate_succ, List.flatten_cons, List.append_assoc]) rfl

theorem Does.canShift (h : Does s es r t) : t.canShift = r.canShift := by
  unfold State.canShift Regs.canShift
  rw [h.isWired, h.isWired]

theorem Does.shiftBody (h : Does s es r t) (w : Word) :
    Does s (es ++ if r.canShift then bitsEvents (wordBits w) else warnEvents r .unwired) r (shiftBody w t) := by
  unfold Machine.shiftBody
  rw [h.canShift]
  split
  · exact (h.enter .shift).shiftWord w
  · exact h.warn _

theorem Does.sendBody (h : Does s es r t) (w : Word) :
    Does s (es ++ if r.canShift then bitsEvents (wordBits w) ++ whenWired (r.isWired .le) latchEvents
      else warnEvents r .unwired) r (sendBody w t) := by
  unfold Machine.sendBody
  rw [h.canShift]
  split
  · exact ((((h.enter .shift).shiftWord w).enter .latch).latchIfWired).as (List.append_assoc _ _ _) rfl
  · exact h.warn _

theorem Does.allBody (h : Does s es r t) (level : Bool) :
    Does s (es ++ if r.canShift then allEvents r level else warnEvents r .unwired) r (allBody level t) := by
  have hc : t.chain = r.chain := congrArg Regs.chain h.regs
  unfold Machine.allBody
  rw [h.canShift, hc]
  split
  · exact (((((h.enter .shift).setWidx 0#8).shiftWords (fillWord level) r.chain.toNat).dropWidx.enter
      .latch).latchIfWired).as (by rw [wordBits_fill, List.append_assoc]; rfl) rfl
  · exact h.warn _

theorem Does.latchAndWait (h : Does s es r t) (delay : BitVec 16) :
    Does s (es ++ (whenWired (r.isWired .le) latchEvents ++ [.ms delay.toNat])) r (latchAndWait delay t) :=
  ((((h.enter .latch).latchIfWired).enter .wait).emit (.ms delay.toNat) rfl).as (List.append_assoc _ _ _) rfl

/-- What SEND_BITS emits for one bit (41 R117). -/
def perBit (r : Regs) (delay : BitVec 16) (b : Bool) : List Event :=
  bitEvents b ++ if delay ≠ 0#16 then whenWired (r.isWired .le) latchEvents ++ [.ms delay.toNat] else []

theorem Does.sendBitsLoop (h : Does s es r t) (delay : BitVec 16) (bits : Word) (n : Nat) :
    Does s (es ++ (selectedBits n bits).flatMap (perBit r delay)) r (sendBitsLoop delay bits n t) := by
  induction n generalizing es t with
  | zero => exact h.as (List.append_nil _).symm rfl
  | succ n ih =>
    have hb := ((h.enter .shift).setBidx (BitVec.ofNat 4 n)).shiftBit (bits.getLsbD n)
    have hs : selectedBits (n + 1) bits = bits.getLsbD n :: selectedBits n bits := by
      simp only [selectedBits, List.range_succ_eq_map, List.map_cons, List.map_map]
      refine congrArg₂ List.cons rfl (List.map_congr_left fun k _ => ?_)
      exact congrArg bits.getLsbD (by simp only [Nat.succ_eq_add_one]; omega)
    have hstep : ∀ x, Does s (es ++ bitEvents (bits.getLsbD n)) r x → Does s (es ++ perBit r delay (bits.getLsbD n)) r
        (if delay ≠ 0#16 then Machine.latchAndWait delay x else x) := by
      intro x hx
      unfold perBit
      split
      · exact (hx.latchAndWait delay).as (List.append_assoc _ _ _) rfl
      · exact hx.as (by rw [List.append_nil]) rfl
    exact (ih (hstep _ hb)).as (by rw [hs, List.flatMap_cons, List.append_assoc]) rfl

theorem Does.sendBitsBody (h : Does s es r t) (count : BitVec 5) (delay : BitVec 16) (bits : Word) :
    Does s (es ++ if r.canShift then sendBitsEvents r count.toNat delay bits else warnEvents r .unwired) r
      (sendBitsBody count delay bits t) := by
  unfold Machine.sendBitsBody
  rw [h.canShift]
  split
  · have hl := (h.sendBitsLoop delay bits count.toNat).dropBidx
    by_cases hd : delay = 0#16
    · rw [if_pos hd]
      subst hd
      refine ((hl.enter .latch).latchIfWired).as ?_ rfl
      have hp : perBit r 0#16 = bitEvents := by funext b; simp [perBit]
      rw [hp, List.append_assoc]
      rfl
    · rw [if_neg hd]
      refine hl.as ?_ rfl
      have hp : perBit r delay = fun b => bitEvents b ++ whenWired (r.isWired .le) latchEvents ++ [.ms delay.toNat] := by
        funext b; simp [perBit, hd]
      rw [hp]
      simp [sendBitsEvents, hd]
  · exact h.warn _

/-! ### the waveform sequencer -/

theorem Does.playFrames (h : Does s es r t) (k : Nat) (gs : List Frame) :
    Does s (es ++ gs.map Event.frm) r (playFrames k gs t) := by
  induction gs generalizing es t k with
  | nil => exact h.as (List.append_nil _).symm rfl
  | cons g gs ih =>
    exact (ih ((h.setFidx (BitVec.ofNat 3 k)).emit (.frm g) rfl) (k + 1)).as
      (by rw [List.map_cons, List.append_assoc]; rfl) rfl

theorem Does.play (h : Does s es r t) (T : Table) : Does s (es ++ playEvents r.par.tables T) r (playTable T t) := by
  unfold Machine.playTable
  rw [h.par]
  exact (((h.playFrames 0 _).emit (.drv .clk false) rfl).dropFidx).as (List.append_assoc _ _ _) rfl

theorem Does.switchMode (h : Does s es r t) (T : Table) :
    Does s (es ++ switchEvents r.par.tables T) { r with mode := T.modeAfter r.mode } (switchMode T t) := by
  have k := (((h.enter .trans).play .trans).enter .target).play T
  refine (k.write (u := Machine.switchMode T t) (q := { r with mode := T.modeAfter r.mode }) rfl rfl ?_).as
    (List.append_assoc _ _ _) rfl
  exact congrArg (fun x : Regs => { x with mode := T.modeAfter x.mode }) k.regs

theorem Does.normalMode (h : Does s es r t) (hs : r.canSwitch = true) :
    Does s (es ++ switchEvents r.par.tables .normal) { r with mode := .normal } (normalMode t) := by
  unfold Machine.normalMode
  rw [h.isWired, h.isWired, show (r.isWired .le && r.isWired .oe) = true from hs]
  exact h.switchMode .normal

theorem Does.normalMode_absent (h : Does s es r t) (hs : r.canSwitch = false) :
    Does s (es ++ warnEvents r .unwired) r (Machine.normalMode t) := by
  unfold Machine.normalMode
  rw [h.isWired, h.isWired, show (r.isWired .le && r.isWired .oe) = false from hs]
  exact h.warn _

/-! ### the readback -/

/-- The registers after `n` samples. -/
def Regs.afterSamples (r : Regs) (n : Nat) : Regs :=
  { r with doIn := r.doIn.drop n, samplesTaken := r.samplesTaken + n }

theorem Regs.sampleAt_afterSamples (r : Regs) (k : Nat) : (r.afterSamples 1).sampleAt k = r.sampleAt (k + 1) := by
  simp only [Regs.sampleAt, Regs.afterSamples, List.drop_drop]
  rw [Nat.add_comm 1 k, Nat.add_assoc, Nat.add_comm 1 k]

theorem Does.sampleAt (h : Does s es r t) (k : Nat) : t.sampleAt k = r.sampleAt k := by
  rw [← h.regs]; rfl

theorem Does.readIteration (h : Does s es r t) (k : Nat) :
    Does s (es ++ readEvents [r.sampleAt 0]) (r.afterSamples 1) (readIteration k t)
      ∧ (Machine.readIteration k t).acc = accStep t.acc (r.sampleAt 0) := by
  have h0 : State.sampleAt { t with bidx := BitVec.ofNat 4 k } 0 = r.sampleAt 0 := h.sampleAt 0
  constructor
  · have k1 := (h.setBidx (BitVec.ofNat 4 k)).write
      (u := { t with bidx := BitVec.ofNat 4 k, doIn := t.doIn.tail, samplesTaken := t.samplesTaken + 1 })
      (q := r.afterSamples 1) rfl rfl (by rw [← h.regs]; simp [State.regs, Regs.afterSamples])
    have k2 := (((k1.emit (.smp (r.sampleAt 0)) rfl).setAcc (accStep t.acc (r.sampleAt 0))).emit (.drv .clk true) rfl).emit
      (.drv .clk false) rfl
    refine (k2.as (by simp [readEvents]) rfl).quiet ?_ ?_ ?_ <;> rw [← h0] <;> rfl
  · rw [← h0]; rfl

theorem Does.readLoop (h : Does s es r t) (k n : Nat) :
    Does s (es ++ readEvents ((List.range n).map r.sampleAt)) (r.afterSamples n) (readLoop k n t)
      ∧ (Machine.readLoop k n t).acc = ((List.range n).map r.sampleAt).foldl accStep t.acc := by
  induction n generalizing k es r t with
  | zero => exact ⟨h.as (by simp [readEvents]) (by simp [Regs.afterSamples]), rfl⟩
  | succ n ih =>
    obtain ⟨h1, ha⟩ := h.readIteration k
    obtain ⟨h2, hb⟩ := ih h1 (k + 1)
    have hl : (List.range (n + 1)).map r.sampleAt = r.sampleAt 0 :: (List.range n).map (r.afterSamples 1).sampleAt := by
      simp [List.range_succ_eq_map, Function.comp_def, Regs.sampleAt_afterSamples]
    have e : Machine.readLoop k (n + 1) t = Machine.readLoop (k + 1) n (Machine.readIteration k t) := rfl
    rw [e, hl]
    constructor
    · refine h2.as ?_ ?_
      · simp [readEvents]
      · simp [Regs.afterSamples, Nat.add_assoc, Nat.add_comm 1 n]
    · rw [hb, ha]; rfl

theorem Does.readback (h : Does s es r t) :
    Does s (es ++ readEvents r.nextSamples) (r.afterSamples 16) (readback t)
      ∧ (Machine.readback t).acc = readbackWord r.nextSamples := by
  obtain ⟨h1, ha⟩ := ((h.enter .read).setAcc 0x0000#16).readLoop 0 16
  unfold Machine.readback Regs.nextSamples readbackWord
  exact ⟨h1.dropBidx, (State.dropBidx_acc _).trans ha⟩

theorem Does.settle (h : Does s es r t) : Does s (es ++ [.us (settleUs r.par)]) r (settle t) := by
  unfold Machine.settle
  rw [h.par]
  exact (h.enter .settle).emit _ rfl

theorem Does.readbackReady (h : Does s es r t) :
    Does s (es ++ (playEvents r.par.tables .rr ++ [.dirIn .dout, .drv .di false])) r (readbackReady t) :=
  ((((h.enter .rr).play .rr).emit (.dirIn .dout) rfl).emit (.drv .di false) rfl).as
    (by simp only [List.append_assoc, List.cons_append, List.nil_append]) rfl

/-- DO becomes an output once more: the draw of its level is a new one. -/
theorem Does.dataOut (h : Does s es r t) :
    Does s (es ++ [.dirOut .dout]) { r with doDrives := r.doDrives + 1 } (t.emit (.dirOut .dout)) := by
  have k := h.emitAny (.dirOut .dout)
  rwa [doDrivesAfter_dirOut_dout] at k

theorem Does.returnResult (h : Does s es r t) : Does s es { r with result := t.acc } (returnResult t) := by
  unfold Machine.returnResult
  refine Does.dropAcc (h.write rfl rfl ?_)
  exact congrArg (fun x : Regs => { x with result := t.acc }) h.regs

/-! ### output enable -/

theorem Does.driveOe (h : Does s es r t) (v : Bool) : Does s (es ++ oeEvents r v) r (driveOe v t) := by
  have hp : t.pwmcap = r.pwmcap := congrArg Regs.pwmcap h.regs
  unfold Machine.driveOe oeEvents
  rw [h.isWired, hp]
  split
  · split
    · exact ((h.emit (.dirOut .oe) rfl).emit (.drv .oe v) rfl).as (List.append_assoc _ _ _) rfl
    · exact h.emit (.drv .oe v) rfl
  · exact h.warn _

theorem Does.brightnessBody (h : Does s es r t) (level : Byte) :
    Does s (es ++ brightnessEvents r level) r (brightnessBody level t) := by
  have hp : t.pwmcap = r.pwmcap := congrArg Regs.pwmcap h.regs
  unfold Machine.brightnessBody brightnessEvents
  rw [h.isWired, hp]
  split
  · split
    · exact h.emit _ rfl
    · exact h.warn _
  · exact h.warn _

/-! ### the configuration packer -/

/-- With LE and OE wired CONFIG emits its events and ends in Normal mode. -/
theorem Does.configBody (h : Does s es r t) (cur band gain : Byte) (hs : r.canSwitch = true) :
    Does s (es ++ configEvents r cur band gain) { r with mode := .normal } (configBody cur band gain t) := by
  have hw : r.isWired .le = true := by
    have := hs
    simp only [Regs.canSwitch, Bool.and_eq_true] at this
    exact this.1
  unfold Machine.configBody
  rw [h.isWired, h.isWired, show (r.isWired .le && r.isWired .oe) = true from hs]
  have k := ((((((h.preload hw).switchMode .cfg).enter .payload).shiftByteMsb 0x00#8).shiftByteLsb
    (pack cur band gain)).latchPulse).normalMode hs
  refine k.as ?_ rfl
  rw [show Regs.isWired { r with mode := Table.modeAfter r.mode .cfg } .le = true from hw]
  have hz : ((List.range 8).map fun k => (0x00#8).getLsbD (7 - k)) = List.replicate 8 false := by decide
  simp only [if_true, hz, configEvents, payloadBits, bitsEvents_append, List.append_assoc]

theorem Does.configBody_absent (h : Does s es r t) (cur band gain : Byte) (hs : r.canSwitch = false) :
    Does s (es ++ warnEvents r .unwired) r (Machine.configBody cur band gain t) := by
  unfold Machine.configBody
  rw [h.isWired, h.isWired, show (r.isWired .le && r.isWired .oe) = false from hs]
  exact h.warn _

/-! ### composite sequences -/

/-- A clause emits its events when its condition, `b`, holds, and otherwise nothing. -/
theorem Does.onlyIf {c : State → Bool} {f : State → State} (h : Does s es r t) (b : Bool) (hb : c t = b)
    (hf : b = true → Does s (es ++ fs) q (f t)) (hq : b = false → q = r) :
    Does s (es ++ whenWired b fs) q (onlyIf c f t) := by
  unfold Machine.onlyIf
  rw [hb]
  cases b
  · exact h.as (List.append_nil _).symm (hq rfl).symm
  · exact hf rfl

theorem Does.canSwitch (h : Does s es r t) : t.canSwitch = r.canSwitch := by
  unfold State.canSwitch Regs.canSwitch
  rw [h.isWired, h.isWired]

theorem Does.waitMs (h : Does s es r t) (n : Nat) : Does s (es ++ [.ms n]) r (waitMs n t) :=
  (h.enter .wait).emit (.ms n) rfl

/-! ### ATTACH -/

theorem Does.attachLe (h : Does s es r t) :
    Does s (es ++ whenWired (r.isWired .le) [.dirOut .le, .drv .le false]) r (attachLe t) := by
  unfold Machine.attachLe whenWired
  rw [h.isWired]
  split
  · exact ((h.emit (.dirOut .le) rfl).emit (.drv .le false) rfl).as (List.append_assoc _ _ _) rfl
  · exact h.as (List.append_nil _).symm rfl

/-- The capability query's answer becomes `PWMCAP` when OE is wired. -/
theorem Does.attachOe (h : Does s es r t) :
    Does s (es ++ whenWired (r.isWired .oe) [.dirOut .oe, .qry r.par.oePwmCapable, .drv .oe false])
      { r with pwmcap := if r.isWired .oe then r.par.oePwmCapable else r.pwmcap } (attachOe t) := by
  unfold Machine.attachOe whenWired
  rw [h.isWired]
  split
  · have k := (h.emit (.dirOut .oe) rfl).emit (.qry r.par.oePwmCapable) rfl
    have k' := k.write (u := { (t.emit (.dirOut .oe)).emit (.qry r.par.oePwmCapable) with pwmcap := r.par.oePwmCapable })
      rfl rfl (congrArg (fun x : Regs => { x with pwmcap := r.par.oePwmCapable }) k.regs)
    have e : (t.emit (.dirOut .oe)).queryPwm
        = (r.par.oePwmCapable, (t.emit (.dirOut .oe)).emit (.qry r.par.oePwmCapable)) := by
      rw [← h.par]; rfl
    rw [e]
    exact (k'.emit (.drv .oe false) rfl).as (by simp only [List.append_assoc, List.cons_append, List.nil_append]) rfl
  · exact h.as (List.append_nil _).symm rfl

theorem Does.attachDo (h : Does s es r t) :
    Does s (es ++ whenWired (r.isWired .dout) [.dirIn .dout]) r (attachDo t) := by
  unfold Machine.attachDo whenWired
  rw [h.isWired]
  split
  · exact h.emit _ rfl
  · exact h.as (List.append_nil _).symm rfl

end

end Sys2Proof.Machine
end

