-- ==== Sys2Proof/Laws/PerInstr.lean ====
section
/-! SUPPORT. Statements made of every command, one lemma per command. -/

namespace Sys2Proof.Laws

/-- The encoding of a command selects the command's own row of the opcode map (30_encoding R81): its masked bits are the
row's match. -/
def EncodesInItsRow.Statement (i : Instr) : Prop := encode i &&& rowMask i = rowMatch i

theorem EncodesInItsRow.attach (n : BitVec 8) (wires : BitVec 5) : EncodesInItsRow.Statement (.attach n wires) := by
  refine BitVec.eq_of_getLsbD_eq fun j hj => ?_
  simp only [encode, rowMask, rowMatch, BitVec.getLsbD_and, BitVec.getLsbD_append]
  interval_cases j <;> simp

theorem EncodesInItsRow.shift (w : Word) : EncodesInItsRow.Statement (.shift w) := by
  refine BitVec.eq_of_getLsbD_eq fun j hj => ?_
  simp only [encode, rowMask, rowMatch, BitVec.getLsbD_and, BitVec.getLsbD_append]
  interval_cases j <;> simp

theorem EncodesInItsRow.send (w : Word) : EncodesInItsRow.Statement (.send w) := by
  refine BitVec.eq_of_getLsbD_eq fun j hj => ?_
  simp only [encode, rowMask, rowMatch, BitVec.getLsbD_and, BitVec.getLsbD_append]
  interval_cases j <;> simp

theorem EncodesInItsRow.all (level : Bool) : EncodesInItsRow.Statement (.all level) := by
  unfold EncodesInItsRow.Statement
  cases level <;> decide

theorem EncodesInItsRow.sendBits (count : BitVec 5) (delay : BitVec 16) (bits : Word) :
    EncodesInItsRow.Statement (.sendBits count delay bits) := by
  refine BitVec.eq_of_getLsbD_eq fun j hj => ?_
  simp only [encode, rowMask, rowMatch, BitVec.getLsbD_and, BitVec.getLsbD_append]
  interval_cases j <;> simp

theorem EncodesInItsRow.latch : EncodesInItsRow.Statement .latch := by unfold EncodesInItsRow.Statement; decide

theorem EncodesInItsRow.normal : EncodesInItsRow.Statement .normal := by unfold EncodesInItsRow.Statement; decide

theorem EncodesInItsRow.errorDetect : EncodesInItsRow.Statement .errorDetect := by
  unfold EncodesInItsRow.Statement; decide

theorem EncodesInItsRow.config (cur band gain : Byte) : EncodesInItsRow.Statement (.config cur band gain) := by
  refine BitVec.eq_of_getLsbD_eq fun j hj => ?_
  simp only [encode, rowMask, rowMatch, BitVec.getLsbD_and, BitVec.getLsbD_append]
  interval_cases j <;> simp

theorem EncodesInItsRow.on : EncodesInItsRow.Statement .on := by unfold EncodesInItsRow.Statement; decide

theorem EncodesInItsRow.off : EncodesInItsRow.Statement .off := by unfold EncodesInItsRow.Statement; decide

theorem EncodesInItsRow.brightness (level : Byte) : EncodesInItsRow.Statement (.brightness level) := by
  refine BitVec.eq_of_getLsbD_eq fun j hj => ?_
  simp only [encode, rowMask, rowMatch, BitVec.getLsbD_and, BitVec.getLsbD_append]
  interval_cases j <;> simp

theorem EncodesInItsRow.reset : EncodesInItsRow.Statement .reset := by unfold EncodesInItsRow.Statement; decide

theorem EncodesInItsRow.flash (leaveOn : Bool) (bracket : BitVec 16) (onMs : BitVec 32) :
    EncodesInItsRow.Statement (.flash leaveOn bracket onMs) := by
  refine BitVec.eq_of_getLsbD_eq fun j hj => ?_
  simp only [encode, rowMask, rowMatch, BitVec.getLsbD_and, BitVec.getLsbD_append]
  interval_cases j <;> simp

end Sys2Proof.Laws
end

