-- ==== Sys2Proof/Tests/Slice0.lean ====
section
/-! SUPPORT. Tests: one step of each command on a small state, the decoder on words written out from the spec, the ill-formed
commands, and for each statement with hypotheses a witness that meets them. Expected results come from the examples and
corner cases of spec/, named in each comment. -/

namespace Sys2Proof.Tests

open Sys2Proof Sys2Proof.Machine

/-! ### States -/

/-- A block attached to one chip with these wires, debug on, nothing shifted yet: the line state of 40 R106 on the wired
lines. -/
def attached (wires : BitVec 5) (capable : Bool) : State :=
  { State.reset with
    chain := 1#8
    wired := wires
    pwmcap := capable && wires.getLsbD 3
    debug := true
    par := ⟨capable, 7, 0, standardTables⟩
    lines :=
      { dir := ⟨.out, .out, if wires.getLsbD 2 then .out else .uncfg, if wires.getLsbD 3 then .out else .uncfg,
          if wires.getLsbD 4 then .inp else .uncfg⟩
        lvl := ⟨.x, .low, if wires.getLsbD 2 then .low else .x, if wires.getLsbD 3 then .low else .x, .x⟩
        oem := .dig
        duty := .x } }

/-- All five lines wired, OE a plain pin. -/
def wired5 : State := attached 0b11111#5 false

/-- All five lines wired, OE capable of a duty cycle. -/
def capable5 : State := attached 0b11111#5 true

/-- All five lines wired, with another set of tables than the default. -/
def substituted : State :=
  { wired5 with par := ⟨false, 7, 0, { standardTables with trans := [frame true false true], normal := [frame true false false] }⟩ }

/-- 2-wire mode: DI and CLK alone. -/
def wired2 : State := attached 0b00011#5 false

/-- A block right after power-on with debug on. -/
def fresh : State := { State.reset with debug := true, par := ⟨true, 7, 0, standardTables⟩ }

/-- The state after an outcome, or the state given when there is none. -/
def after (d : State) : Host.Outcome State Fault Refusal → State
  | .next t => t
  | _ => d

/-- The state after one word. -/
def run (s : State) (w : Cmd) : State := after s (runWord w s)

/-! ### Ill-formed commands (30 R79) -/

theorem test_attach_needs_a_chip : (Instr.attach 0#8 0b11111#5).wellFormed = false := by decide
theorem test_attach_needs_data : (Instr.attach 1#8 0b11110#5).wellFormed = false := by decide
theorem test_attach_needs_clock : (Instr.attach 1#8 0b11101#5).wellFormed = false := by decide
theorem test_sendBits_needs_a_bit : (Instr.sendBits 0#5 0#16 0#16).wellFormed = false := by decide
theorem test_sendBits_at_most_16 : (Instr.sendBits 17#5 0#16 0#16).wellFormed = false := by decide
theorem test_boundaries_well_formed :
    (Instr.attach 255#8 0b00011#5).wellFormed = true ∧ (Instr.sendBits 1#5 0#16 0#16).wellFormed = true
      ∧ (Instr.sendBits 16#5 0xFFFF#16 0#16).wellFormed = true := by decide

/-! ### Decoding: a word for every row, its fields written out from 30 R72 to R78 -/

theorem test_decode_attach : decode (0x01#8 ++ 0x2A#8 ++ 0#43 ++ 0b01011#5) = .ok (.attach 42#8 0b01011#5) := by decide
theorem test_decode_shift : decode (0x02#8 ++ 0#40 ++ 0x1234#16) = .ok (.shift 0x1234#16) := by decide
theorem test_decode_send : decode (0x03#8 ++ 0#40 ++ 0xBEEF#16) = .ok (.send 0xBEEF#16) := by decide
theorem test_decode_all : decode (0x04#8 ++ 0#55 ++ 1#1) = .ok (.all true) := by decide
theorem test_decode_sendBits :
    decode (0x05#8 ++ 0#3 ++ 9#5 ++ 0x00FA#16 ++ 0#16 ++ 0x0155#16) = .ok (.sendBits 9#5 250#16 0x0155#16) := by decide
theorem test_decode_latch : decode (0x06#8 ++ 0#56) = .ok .latch := by decide
theorem test_decode_normal : decode (0x07#8 ++ 0#56) = .ok .normal := by decide
theorem test_decode_errorDetect : decode (0x08#8 ++ 0#56) = .ok .errorDetect := by decide
theorem test_decode_config :
    decode (0x09#8 ++ 0#32 ++ 0x80#8 ++ 0x02#8 ++ 0x7F#8) = .ok (.config 128#8 2#8 127#8) := by decide
theorem test_decode_on : decode (0x0A#8 ++ 0#56) = .ok .on := by decide
theorem test_decode_off : decode (0x0B#8 ++ 0#56) = .ok .off := by decide
theorem test_decode_brightness : decode (0x0C#8 ++ 0#48 ++ 0x40#8) = .ok (.brightness 64#8) := by decide
theorem test_decode_reset : decode (0x0D#8 ++ 0#56) = .ok .reset := by decide
theorem test_decode_flash :
    decode (0x0E#8 ++ 0#7 ++ 1#1 ++ 100#16 ++ 500#32) = .ok (.flash true 100#16 500#32) := by decide
/-- 30 R82: 0x00 and 0x0F to 0xFF are illegal. -/
theorem test_decode_illegal :
    decode 0#64 = .error .illegalOpcode ∧ decode 0x0F00000000000000#64 = .error .illegalOpcode
      ∧ decode 0xFFFFFFFFFFFFFFFF#64 = .error .illegalOpcode := by decide
/-- 30 R72 to R78: the reserved bits next to each field. -/
theorem test_decode_reserved :
    decode 0x0101000000000023#64 = .error .reservedNonzero ∧ decode 0x0201000000000000#64 = .error .reservedNonzero
      ∧ decode 0x0400000000000002#64 = .error .reservedNonzero ∧ decode 0x0520000000000000#64 = .error .reservedNonzero
      ∧ decode 0x0500000000010000#64 = .error .reservedNonzero ∧ decode 0x0900000001000000#64 = .error .reservedNonzero
      ∧ decode 0x0C00000000000100#64 = .error .reservedNonzero ∧ decode 0x0E02000000000000#64 = .error .reservedNonzero
      ∧ decode 0x0600000000000001#64 = .error .reservedNonzero := by decide
theorem test_decodeTableWord : decodeTableWord 64 0x0C000000000000FF = some (.brightness 255#8) := by decide

/-! ### Commands, one step each -/

/-- 40 R100's example: `ATTACH 1, {DI, CLK}` on a fresh block. -/
theorem test_attach_two_wires :
    (run fresh 0x0101000000000003#64).trace = [.dirOut .clk, .dirOut .di, .drv .clk false]
      ∧ (run fresh 0x0101000000000003#64).chain = 1#8 ∧ (run fresh 0x0101000000000003#64).wired = 0b00011#5 := by decide
/-- 40 R102: a redundant attach warns and leaves the chain length. -/
theorem test_attach_redundant :
    (run wired5 0x0109000000000003#64).trace = [.warn .redundantAttach 7] ∧ (run wired5 0x0109000000000003#64).chain = 1#8 := by
  decide
/-- 41 R114's example: `SHIFT 0x8001`. -/
theorem test_shift_8001 : dataBits (run wired2 0x0200000000008001#64).trace = [true] ++ List.replicate 14 false ++ [true] := by
  decide
/-- 41 R115's example: `SEND 0x00FF` with LE wired. -/
theorem test_send_latches :
    dataBits (run wired5 0x03000000000000FF#64).trace = List.replicate 8 false ++ List.replicate 8 true
      ∧ (run wired5 0x03000000000000FF#64).trace.drop 48 = [.drv .le true, .drv .le false] := by decide
/-- 41 R116's example: `ALL LOW` with a chain of two. -/
theorem test_all_two_chips :
    dataBits (run { wired5 with chain := 2#8 } 0x0400000000000000#64).trace = List.replicate 32 false
      ∧ (run { wired5 with chain := 2#8 } 0x0400000000000000#64).trace.drop 96 = [.drv .le true, .drv .le false] := by
  decide +kernel
/-- 41 R117's example and its corner case with a delay: `SEND_BITS 3, 0x0005, 0` and `SEND_BITS 2, 0x0002, 10`. -/
theorem test_sendBits :
    dataBits (run wired5 0x0503000000000005#64).trace = [true, false, true]
      ∧ (run wired5 0x0502000A00000002#64).trace
        = [.drv .di true, .drv .clk true, .drv .clk false, .drv .le true, .drv .le false, .ms 10,
           .drv .di false, .drv .clk true, .drv .clk false, .drv .le true, .drv .le false, .ms 10] := by decide
/-- 41 R117: a count of 0 or 17 is out of range. -/
theorem test_sendBits_faults :
    (run wired5 0x0500000000000005#64).fault = 0b100#3 ∧ (run wired5 0x0511000000000005#64).fault = 0b100#3 := by decide
/-- 42 R131's example: a pulse, or in 2-wire mode a warning. -/
theorem test_latch :
    (run wired5 0x0600000000000000#64).trace = [.drv .le true, .drv .le false]
      ∧ (run wired2 0x0600000000000000#64).trace = [.warn .unwired 7] := by decide
/-- 43 R148's example. -/
theorem test_normal :
    (run wired5 0x0700000000000000#64).trace
      = [.frm ⟨true, true, false⟩, .frm ⟨false, true, false⟩, .frm ⟨true, false, false⟩, .frm ⟨false, true, false⟩,
         .frm ⟨true, true, false⟩, .frm ⟨false, true, false⟩, .drv .clk false, .frm ⟨true, true, false⟩,
         .frm ⟨false, true, false⟩, .frm ⟨true, true, false⟩, .frm ⟨false, true, false⟩, .drv .clk false]
      ∧ (run wired5 0x0700000000000000#64).mode = .normal := by decide
/-- 20 R52, 43 R145: NORMAL plays whatever frames `WAVE_TABLES` holds. -/
theorem test_normal_substituted :
    (run substituted 0x0700000000000000#64).trace
      = [.frm ⟨true, false, true⟩, .drv .clk false, .frm ⟨true, false, false⟩, .drv .clk false] := by decide
/-- 44 R160's example: samples 1, 0, ..., 0, 1 give 0x8001. -/
theorem test_errorDetect_result :
    (run { wired5 with doIn := [true] ++ List.replicate 14 false ++ [true] } 0x0800000000000000#64).result = 0x8001#16
      ∧ (run { wired5 with doIn := [true] ++ List.replicate 14 false ++ [true] } 0x0800000000000000#64).lines.dir.dout = .out := by
  decide
/-- 44 R169: with DO absent the result is 0 and there is one warning. -/
theorem test_errorDetect_unwired :
    (run { attached 0b01111#5 false with result := 0xFFFF#16 } 0x0800000000000000#64).result = 0#16
      ∧ (run { attached 0b01111#5 false with result := 0xFFFF#16 } 0x0800000000000000#64).trace = [.warn .unwired 7] := by decide
/-- 45 R180's example: `CONFIG 1, 0, 32` sends eight zeros, then 0 0 0 0 0 1 0 1. -/
theorem test_config_payload :
    (dataBits (run wired5 0x0900000000010020#64).trace).drop 16
      = List.replicate 8 false ++ [false, false, false, false, false, true, false, true] := by decide +kernel
/-- 45 R180's corner cases: gain 64 packs 0x00 and gain 127 packs 0x3F. -/
theorem test_pack : pack 0#8 0#8 64#8 = 0x00#8 ∧ pack 0#8 0#8 127#8 = 0x3F#8 ∧ pack 2#8 255#8 0#8 = 0xC0#8 := by decide
/-- 46 R190's example. -/
theorem test_on_capable : (run capable5 0x0A00000000000000#64).trace = [.dirOut .oe, .drv .oe false] := by decide
/-- 46 R191's example. -/
theorem test_off : (run wired5 0x0B00000000000000#64).trace = [.drv .oe true] := by decide
/-- 46 R192's example, and the order of its warnings. -/
theorem test_brightness :
    (run capable5 0x0C00000000000040#64).trace = [.pwm 191#8]
      ∧ (run wired5 0x0C00000000000040#64).trace = [.warn .capabilityMismatch 7]
      ∧ (run wired2 0x0C00000000000040#64).trace = [.warn .unwired 7] := by decide
/-- 47 R200's corner case: in 2-wire mode RESET is the body of `ALL LOW`. -/
theorem test_reset_two_wires :
    (run wired2 0x0D00000000000000#64).trace = (run wired2 0x0400000000000000#64).trace
      ∧ (run wired2 0x0D00000000000000#64).trace.length = 48 := by decide
/-- 47 R200 and 46 R194: RESET ends PWM mode first and ends with OE low. -/
theorem test_reset_leaves_pwm :
    (run { attached 0b01011#5 true with lines := (attached 0b01011#5 true).lines.pwm 9#8 } 0x0D00000000000000#64).trace.take 3
        = [.dirOut .oe, .dirOut .oe, .drv .oe true]
      ∧ (run { attached 0b01011#5 true with lines := (attached 0b01011#5 true).lines.pwm 9#8 }
          0x0D00000000000000#64).lines.lvl.oe = .low := by decide
/-- 47 R201's example: `FLASH 500, 100, 1`. -/
theorem test_flash :
    (run wired5 0x0E010064000001F4#64).trace
      = [.drv .oe true, .ms 100, .drv .oe false, .ms 500, .drv .oe true, .ms 100, .drv .oe false] := by decide
/-- 60 R216: a fault sets its sticky bit; nothing clears it. -/
theorem test_fault_is_sticky :
    (run (run wired5 0#64) 0x0A00000000000000#64).fault = 0b001#3 ∧ (run wired5 0#64).trace = [] := by decide
/-- A step takes the word placed by `withFetchWord`. -/
theorem test_step_fetches :
    (after fresh (step (wired5.withFetchWord 64 0x0B00000000000000))).trace = [.drv .oe true]
      ∧ (after fresh (step (wired5.withFetchWord 64 0x0B00000000000000))).pending = [] := by decide

/-! ### Assembly (30 R83) -/

theorem test_assemble_numbers :
    assembleLine "SEND 43690".toList = assembleLine "SEND 0xAAAA".toList ∧ assembleLine "SEND 65536".toList = none
      ∧ assembleLine "ALL 1".toList = some (.all true) ∧ assembleLine "FLASH 1, 2, 2".toList = none := by decide

/-! ### Witnesses: for each statement with hypotheses, a concrete state and operands that meet them -/

theorem witness_EncodeOfDecodeIsTheWord : decode 0x0C00000000000040#64 = .ok (.brightness 64#8) := by decide
theorem witness_WordSelectsItsRow : 0x0200000000008001#64 &&& rowMask (.shift 0#16) = rowMatch (.shift 0#16) := by decide
theorem witness_ChecksComeInOrder :
    ¬ (1 ≤ (opcodeOf 0#64).toNat ∧ (opcodeOf 0#64).toNat ≤ 14)
    ∧ ¬ (1 ≤ (opcodeOf 0x0F00000000000000#64).toNat ∧ (opcodeOf 0x0F00000000000000#64).toNat ≤ 14)
    ∧ (opcodeOf 0x0100000000000020#64 = opcodeOf (rowMatch (.attach 0#8 0#5))
        ∧ 0x0100000000000020#64 &&& rowMask (.attach 0#8 0#5) ≠ rowMatch (.attach 0#8 0#5))
    ∧ (decode 0x0100000000000003#64 = .ok (.attach 0#8 3#5) ∧ (Instr.attach 0#8 3#5).wellFormed = false)
    ∧ (decode 0x0511000000000000#64 = .ok (.sendBits 17#5 0#16 0#16) ∧ (Instr.sendBits 17#5 0#16 0#16).wellFormed = false)
    ∧ (decode 0x0101000000000003#64 = .ok (.attach 1#8 3#5) ∧ (Instr.attach 1#8 3#5).wellFormed = true) := by decide
theorem witness_AttachWithoutLengthMeansOne :
    pinList [.word ['D', 'I'], .comma, .word ['C', 'L', 'K'], .closeBrace] = some 3#5
    ∧ (∀ cs, Token.word cs ∈ [Token.word ['D', 'I'], .comma, .word ['C', 'L', 'K'], .closeBrace] → pinLine cs ≠ some .le)
    ∧ assembleTokens [.word "LATCH".toList] = some .latch := by
  refine ⟨by decide, fun cs h => ?_, by decide⟩
  simp only [List.mem_cons, List.not_mem_nil, Token.word.injEq, reduceCtorEq, or_false, false_or] at h
  rcases h with rfl | rfl <;> decide
theorem witness_OnlyFourCommandsPlayTargetTables :
    (opcodeOf 0#64).toNat = 0 ∧ 0x0F ≤ (opcodeOf 0x0F00000000000000#64).toNat ∧ 0x0F ≤ (opcodeOf 0xFF00000000000000#64).toNat
    ∧ (opcodeOf 0x0700000000000001#64 = opcodeOf (rowMatch .normal) ∧ 0x0700000000000001#64 &&& rowMask .normal ≠ rowMatch .normal)
    ∧ (∃ t es, runWord 0x0700000000000000#64 wired5 = .next t ∧ t.trace = wired5.trace ++ es
        ∧ ∃ fs ∈ playedTables [] es, isTarget wired5.par.tables fs = true) :=
  ⟨by decide, by decide, by decide, by decide, _, switchEvents standardTables .normal, rfl, by decide, standardTables.normal,
    by decide, by decide⟩
theorem witness_StepRunsTheDecodedCommand :
    { fresh with pending := [0x0600000000000000#64] }.pending = 0x0600000000000000#64 :: []
      ∧ decode 0x0600000000000000#64 = .ok .latch := by decide
theorem witness_IdleBlockWaits : State.reset.pending = [] := rfl
theorem witness_FaultOnlySetsItsStickyBit :
    ({ fresh with pending := [0#64] }.pending = 0#64 :: [] ∧ decode 0#64 = .error .illegalOpcode)
    ∧ (Instr.sendBits 0#5 0#16 0#16).wellFormed = false
    ∧ (∃ t, step { wired5 with fault := 0b101#3, pending := [0x0D00000000000000#64] } = .next t) :=
  ⟨by decide, by decide, _, rfl⟩
theorem witness_AttachWithoutItsOperandsFaults :
    (∃ t, exec (.attach 0#8 0b11111#5) fresh = .next t) ∧ (0b11110#5).getLsbD 0 = false ∧ (0b11101#5).getLsbD 1 = false :=
  ⟨⟨_, rfl⟩, by decide, by decide⟩
theorem witness_SendBitsOutOfRangeFaults : (0#5).toNat = 0 ∧ 16 < (17#5).toNat ∧ 16 < (31#5).toNat := by decide
/-- For `encodedAs` in each command's statement: a word with opcode `op` and no bit of `reserved`, and one with such a bit. -/
abbrev WordPair (op : Byte) (reserved good bad : Cmd) : Prop :=
  opcodeOf good = op ∧ good &&& reserved = 0#64 ∧ opcodeOf bad = op ∧ bad &&& reserved ≠ 0#64
theorem witness_words_attach : WordPair 0x01#8 0x0000FFFFFFFFFFE0#64 0x0101000000000003#64 0x0101000000000023#64 := by decide
theorem witness_words_shift : WordPair 0x02#8 0x00FFFFFFFFFF0000#64 0x0200000000008001#64 0x0200000000018001#64 := by decide
theorem witness_words_send : WordPair 0x03#8 0x00FFFFFFFFFF0000#64 0x030000000000AAAA#64 0x038000000000AAAA#64 := by decide
theorem witness_words_all : WordPair 0x04#8 0x00FFFFFFFFFFFFFE#64 0x0400000000000001#64 0x0400000000000003#64 := by decide
theorem witness_words_sendBits : WordPair 0x05#8 0x00E00000FFFF0000#64 0x0503000000000005#64 0x0503000000010005#64 := by decide
theorem witness_words_latch : WordPair 0x06#8 0x00FFFFFFFFFFFFFF#64 0x0600000000000000#64 0x0600000000000001#64 := by decide
theorem witness_words_normal : WordPair 0x07#8 0x00FFFFFFFFFFFFFF#64 0x0700000000000000#64 0x0780000000000000#64 := by decide
theorem witness_words_errorDetect : WordPair 0x08#8 0x00FFFFFFFFFFFFFF#64 0x0800000000000000#64 0x0800000000000001#64 := by decide
theorem witness_words_config : WordPair 0x09#8 0x00FFFFFFFF000000#64 0x0900000000010020#64 0x0900000001010020#64 := by decide
theorem witness_words_on : WordPair 0x0A#8 0x00FFFFFFFFFFFFFF#64 0x0A00000000000000#64 0x0A00000000000001#64 := by decide
theorem witness_words_off : WordPair 0x0B#8 0x00FFFFFFFFFFFFFF#64 0x0B00000000000000#64 0x0B00000000000001#64 := by decide
theorem witness_words_brightness : WordPair 0x0C#8 0x00FFFFFFFFFFFF00#64 0x0C00000000000040#64 0x0C00000000000140#64 := by decide
theorem witness_words_reset : WordPair 0x0D#8 0x00FFFFFFFFFFFFFF#64 0x0D00000000000000#64 0x0D00000000000001#64 := by decide
theorem witness_words_flash : WordPair 0x0E#8 0x00FE000000000000#64 0x0E010064000001F4#64 0x0E030064000001F4#64 := by decide
theorem witness_AttachFollowsItsRule :
    1#8 ≠ 0#8 ∧ 255#8 ≠ 0#8 ∧ (0b00011#5).getLsbD 0 = true ∧ (0b00011#5).getLsbD 1 = true ∧ fresh.chain = 0#8
      ∧ wired5.chain ≠ 0#8 := by decide
theorem witness_AttachAllLinesLineState : 255#8 ≠ 0#8 ∧ fresh.chain = 0#8 ∧ fresh.lines = State.reset.lines := by decide
theorem witness_AttachHappensOnce :
    wired5.chain ≠ 0#8 ∧ ∃ t, step { wired5 with pending := [0x0109000000000003#64] } = .next t := ⟨by decide, _, rfl⟩
theorem witness_SendBitsFollowsItsRule :
    (1 ≤ (1#5).toNat ∧ (1#5).toNat ≤ 16) ∧ (1 ≤ (16#5).toNat ∧ (16#5).toNat ≤ 16) ∧ (0#5).toNat = 0 ∧ 16 < (17#5).toNat := by
  decide
theorem witness_ShiftIsMsbFirst :
    wired2.canShift = true ∧ wired2.lines.lvl.clk = .low ∧ wired2.isWired .le = false := by decide
theorem witness_LatchFollowsItsRule : wired5.isWired .le = true := by decide
theorem witness_NormalFollowsItsRule :
    wired5.regs.canSwitch = true ∧ wired5.par.tables = standardTables ∧ wired2.regs.canSwitch = false := by decide
theorem witness_ConfigFollowsItsRule :
    (attached 0b01111#5 false).regs.canSwitch = true ∧ (attached 0b01111#5 false).par.tables = standardTables
      ∧ (attached 0b01111#5 false).lines.lvl.clk = .low ∧ (attached 0b00111#5 false).regs.canSwitch = false := by decide
theorem witness_ModeTransitionTable :
    (∃ t, exec .normal wired5 = .next t) ∧ wired5.mode = .unknown
      ∧ (∃ t, exec .errorDetect { wired5 with mode := .normal } = .next t) := ⟨⟨_, rfl⟩, rfl, _, rfl⟩
theorem witness_OutputsAreDarkAfterModeCommand :
    wired5.regs.canSwitch = true ∧ wired5.isWired .dout = true ∧ (∃ t, exec .normal wired5 = .next t)
      ∧ (∃ t, exec (.config 0#8 0#8 127#8) wired5 = .next t) ∧ (∃ t, exec .errorDetect wired5 = .next t)
      ∧ wired5.par.tables = standardTables ∧ wired5.par.tables.normal.getLast? = some (frame false true false)
      ∧ (substituted.regs.canSwitch = true ∧ substituted.par.tables.normal.getLast? = some (frame true false false)
          ∧ ∃ t, exec .normal substituted = .next t) :=
  ⟨by decide, by decide, ⟨_, rfl⟩, ⟨_, rfl⟩, ⟨_, rfl⟩, by decide, by decide, by decide, by decide, _, rfl⟩
theorem witness_ErrorDetectFollowsItsRule :
    (wired5.isWired .le = true ∧ wired5.isWired .oe = true ∧ wired5.isWired .dout = true)
    ∧ (wired5.par.tables = standardTables ∧ wired5.lines.lvl.clk = .low)
    ∧ ¬ ((attached 0b01111#5 false).isWired .le = true ∧ (attached 0b01111#5 false).isWired .oe = true
        ∧ (attached 0b01111#5 false).isWired .dout = true) := by decide
theorem witness_FirstSampleIsTheTopBit :
    wired5.isWired .le = true ∧ wired5.isWired .oe = true ∧ wired5.isWired .dout = true := by decide
theorem witness_ErrorDetectLeavesDataOutAnOutput :
    capable5.isWired .le = true ∧ capable5.isWired .oe = true ∧ capable5.isWired .dout = true := by decide
/-- A block with its lines wired, and stamps of its 131 events that meet the waits with equality: the 2 microseconds of event
64. -/
theorem witness_SettlingTimePasses :
    (wired5.isWired .le = true ∧ wired5.isWired .oe = true ∧ wired5.isWired .dout = true)
      ∧ wired5.par.tables = standardTables
      ∧ (List.replicate 65 0 ++ List.replicate 66 2).length = (errorDetectEvents wired5.regs).length
      ∧ hostMeetsWaits ((errorDetectEvents { wired5.regs with doIn := List.replicate 16 false }).zip
          (List.replicate 65 0 ++ List.replicate 66 2)) = true := by decide +kernel
/-- A state of the statement's with its samples fixed, so that the runs can be evaluated. -/
def counted : State := { wired5 with doIn := List.replicate 16 true }
theorem witness_EventCounts :
    (counted.par.tables = standardTables ∧ counted.lines.lvl.clk = .low ∧ counted.wired = 0b11111#5)
      ∧ (∃ t, exec .errorDetect counted = .next t ∧ t.trace = counted.trace ++ errorDetectEvents counted.regs)
      ∧ (∃ t, exec (.config 1#8 0#8 32#8) counted = .next t ∧ t.trace = counted.trace ++ configEvents counted.regs 1#8 0#8 32#8)
      ∧ counted.chain = 1#8 ∧ counted.pwmcap = false ∧ counted.lines.oem = .dig
      ∧ (∃ t, exec .reset counted = .next t ∧ t.trace = counted.trace ++ resetEvents counted.regs .dig) :=
  ⟨by decide, ⟨_, rfl, by decide +kernel⟩, ⟨_, rfl, by decide +kernel⟩, by decide, by decide, by decide, _, rfl,
    by decide +kernel⟩
theorem witness_OnFollowsItsRule : wired5.isWired .oe = true ∧ capable5.isWired .oe = true := by decide
theorem witness_OffFollowsItsRule : wired5.isWired .oe = true ∧ capable5.isWired .oe = true := by decide
theorem witness_BrightnessFollowsItsRule : capable5.isWired .oe = true ∧ capable5.pwmcap = true := by decide
theorem witness_NoDutyCycleOnAnIncapablePin :
    (wired5.pwmcap = false ∧ ∃ t es, exec (.brightness 64#8) wired5 = .next t ∧ t.trace = wired5.trace ++ es)
      ∧ capable5.isWired .oe = true ∧ capable5.pwmcap = true :=
  ⟨⟨rfl, _, [.warn .capabilityMismatch 7], rfl, by decide⟩, by decide, by decide⟩
theorem witness_DrivingOeEndsPwmMode :
    capable5.isWired .oe = true ∧ capable5.isWired .le = true ∧ capable5.isWired .dout = true ∧ capable5.pwmcap = true
      ∧ (∃ t, exec .on capable5 = .next t) ∧ (∃ t, exec (.flash false 0#16 0#32) capable5 = .next t)
      ∧ (∃ t, exec .normal capable5 = .next t)
      ∧ (capable5.par.tables.trans ++ capable5.par.tables.normal).getLast? = some (frame false true false) :=
  ⟨by decide, by decide, by decide, by decide, ⟨_, rfl⟩, ⟨_, rfl⟩, ⟨_, rfl⟩, by decide⟩
theorem witness_ResetFollowsItsRule :
    wired5.par.tables = standardTables ∧ wired5.wired = 0b11111#5 ∧ wired5.chain = 1#8 ∧ wired5.pwmcap = false
      ∧ wired5.lines.oem = .dig ∧ wired2.wired = 0b00011#5 := by decide
theorem witness_ResetEndsEnabled : capable5.isWired .oe = true := by decide
/-- The invariant holds of an attached block with all its lines wired. -/
theorem witness_inv : wired5.Inv where
  idle := rfl
  mode := .inl rfl
  unattached := fun h => absurd h (by decide)
  attached := fun _ => by decide
  capable := fun h => absurd h (by decide)
  driven := fun l h _ => by cases l <;> first | rfl | exact absurd rfl h
  absent := fun l h => by cases l <;> exact absurd h (by decide)
  undriven := fun l h => by cases l <;> first | rfl | exact absurd rfl h
  clockLow := fun _ => rfl
  latchLow := fun _ => rfl
  doUnknown := rfl
  pwm := fun h => absurd h (by decide)
  tables := by decide
theorem witness_EveryStepKeepsTheInvariant : wired5.Inv ∧ ∃ t, step wired5 = .next t := ⟨witness_inv, _, rfl⟩
theorem witness_OnlyOutputsAreDriven : wired5.Inv ∧ ∃ t, step wired5 = .next t := ⟨witness_inv, _, rfl⟩
theorem witness_TraceOnlyGrows : ∃ t, step { wired5 with pending := [0x0B00000000000000#64] } = .next t := ⟨_, rfl⟩
theorem witness_TargetTablesFollowTheTransition :
    wired5.par.tables.distinct = true
      ∧ ∃ t es, step { wired5 with pending := [0x0700000000000000#64] } = .next t ∧ t.trace = wired5.trace ++ es :=
  ⟨by decide, _, switchEvents standardTables .normal, rfl, by decide⟩
theorem witness_UnattachedBlockOnlyWarns :
    fresh.wired = 0#5 ∧ (Instr.sendBits 16#5 0#16 0#16).wellFormed = true ∧ ∀ n ws, Instr.reset ≠ .attach n ws :=
  ⟨rfl, by decide, fun _ _ h => nomatch h⟩
theorem witness_OnlyErrorDetectWritesResult :
    (∃ t, exec .errorDetect wired5 = .next t) ∧ Instr.reset ≠ .errorDetect ∧ ∃ t, exec .reset wired5 = .next t :=
  ⟨⟨_, rfl⟩, by decide, _, rfl⟩
theorem witness_AtMostOneWarning :
    ∃ t es, exec (.flash true 1#16 1#32) wired2 = .next t ∧ t.trace = wired2.trace ++ es ∧ es.countP Event.isWarning = 4 :=
  ⟨_, flashEvents wired2.regs true 1#16 1#32, rfl, by decide, by decide⟩
theorem witness_ParametersNeverChange : ∃ t, step { fresh with pending := [0x010100000000001F#64] } = .next t := ⟨_, rfl⟩
theorem witness_MicroRegistersFrame :
    (∃ t, exec .on wired5 = .next t) ∧ (∃ t, exec .normal wired5 = .next t) ∧ (∃ t, exec (.send 1#16) wired5 = .next t) :=
  ⟨⟨_, rfl⟩, ⟨_, rfl⟩, _, rfl⟩
/-- A chain of one chip in Normal mode with unknown contents. -/
def oneChip : ChipChain := { ChipChain.atPowerOn 1#8 with mode := .normal }
theorem witness_ShiftedWordEntersTheFirstChip :
    oneChip.inNormal = true ∧ wired5.lines.lvl.clk = .low ∧ oneChip.shift.length = 16 * (0 + 1) := by decide
theorem witness_SentWordReachesTheDrivers :
    wired5.canShift = true ∧ wired5.isWired .le = true ∧ wired5.lines.lvl.clk = .low ∧ oneChip.inNormal = true
      ∧ oneChip.shift.length = 16 * (0 + 1) := by decide
theorem witness_ModeRecordsTheTablesPlayed :
    wired5.par.tables.distinct = true ∧ (ChipChain.atPowerOn 1#8).mode = wired5.mode
      ∧ (ChipChain.atPowerOn 1#8).frames = [] ∧ (ChipChain.atPowerOn 1#8).armed = false
      ∧ ∃ t es, step { wired5 with pending := [0x0700000000000000#64] } = .next t ∧ t.trace = wired5.trace ++ es :=
  ⟨by decide, rfl, rfl, rfl, _, switchEvents standardTables .normal, rfl, by decide⟩
theorem witness_AllFillsEveryChip :
    wired5.canShift = true ∧ wired5.isWired .le = true ∧ wired5.lines.lvl.clk = .low ∧ oneChip.inNormal = true
      ∧ oneChip.shift.length = 16 * wired5.chain.toNat := by decide

end Sys2Proof.Tests
end

section
/-! SUPPORT. What each whole command does, said once: the events it emits and the registers it leaves, as functions of the
registers it starts from. A statement about every command or every step cites `exec_does` and `step_cases`. -/

namespace Sys2Proof.Machine

/-! ### the composite operations -/

section
variable {s t : State} {es : List Event} {r : Regs}

theorem Does.leave (h : Does s es r t) : Does s es r t.leave := h.enter .idle

theorem Does.raiseFault (h : Does s es r t) (c : FaultCause) :
    Does s es { r with fault := faultAfter r.fault c } (t.raiseFault c) :=
  h.write rfl rfl (congrArg (fun x : Regs => { x with fault := faultAfter x.fault c }) h.regs)

/-- The registers after a mode command: `MODE` records Normal when LE and OE are wired (43 R147, R151). -/
def Regs.recordNormal (r : Regs) : Regs := { r with mode := if r.canSwitch then .normal else r.mode }

theorem Regs.recordNormal_of_canSwitch (hs : r.canSwitch = true) : r.recordNormal = { r with mode := .normal } := by
  rw [Regs.recordNormal, hs]; rfl

theorem Regs.recordNormal_of_not_canSwitch (hs : r.canSwitch = false) : r.recordNormal = r := by
  rw [Regs.recordNormal, hs]; rfl

/-- NORMAL with both branches of its guard. -/
theorem Does.normalBody (h : Does s es r t) :
    Does s (es ++ if r.canSwitch then switchEvents r.par.tables .normal else warnEvents r .unwired)
      r.recordNormal (Machine.normalMode t) := by
  cases hs : r.canSwitch
  · exact (h.normalMode_absent hs).as rfl (Regs.recordNormal_of_not_canSwitch hs).symm
  · exact (h.normalMode hs).as rfl (Regs.recordNormal_of_canSwitch hs).symm

/-- CONFIG with both branches of its guard. -/
theorem Does.configCommand (h : Does s es r t) (cur band gain : Byte) :
    Does s (es ++ if r.canSwitch then configEvents r cur band gain else warnEvents r .unwired)
      r.recordNormal (Machine.configBody cur band gain t) := by
  cases hs : r.canSwitch
  · exact (h.configBody_absent cur band gain hs).as rfl (Regs.recordNormal_of_not_canSwitch hs).symm
  · exact (h.configBody cur band gain hs).as rfl (Regs.recordNormal_of_canSwitch hs).symm

/-- LE, OE and DO are wired: the precondition of ERROR_DETECT (44 R160). -/
def Regs.canRead (r : Regs) : Bool := r.isWired .le && r.isWired .oe && r.isWired .dout

/-- The registers ERROR_DETECT leaves when its precondition holds (44 R160). -/
def Regs.afterRead (r : Regs) : Regs :=
  { r.afterSamples 16 with
    mode := .normal
    result := readbackWord r.nextSamples
    doDrives := r.doDrives + 1 }

theorem Does.errorDetectRun (h : Does s es r t) (hle : r.isWired .le = true) (hs : r.canSwitch = true) :
    Does s (es ++ errorDetectEvents r) r.afterRead (errorDetectRun t) := by
  obtain ⟨hread, hacc⟩ := ((((h.preload hle).switchMode .ed).settle).readbackReady).readback
  have hend := ((hread.dataOut).normalMode hs).returnResult
  refine hend.as ?_ ?_
  · simp only [errorDetectEvents, List.append_assoc]
    rfl
  · rw [normalMode_acc, State.emit_acc, hacc]
    rfl

theorem Does.errorDetectBody (h : Does s es r t) :
    Does s (es ++ if r.canRead then errorDetectEvents r else warnEvents r .unwired)
      (if r.canRead then r.afterRead else { r with result := 0x0000#16 }) (errorDetectBody t) := by
  have hguard : (t.isWired .le && t.isWired .oe && t.isWired .dout) = r.canRead := by
    rw [h.isWired, h.isWired, h.isWired]; rfl
  unfold Machine.errorDetectBody
  rw [hguard]
  split
  next hr =>
    have hs : r.canSwitch = true := (Bool.and_eq_true_iff.mp hr).1
    exact h.errorDetectRun (Bool.and_eq_true_iff.mp hs).1 hs
  next =>
    have hw := h.warn .unwired
    exact hw.write rfl rfl (congrArg (fun x : Regs => { x with result := 0x0000#16 }) hw.regs)

theorem Does.leavePwm (h : Does s es r t) :
    Does s (es ++ whenWired (r.isWired .oe && decide (t.lines.oem = .pwm)) [.dirOut .oe]) r (leavePwm t) :=
  h.onlyIf _ (by rw [h.isWired]; rfl) (fun _ => h.emit _ rfl) (fun _ => rfl)

/-- RESET, clause by clause (47 R200). -/
theorem Does.resetBody (h : Does s es r t) :
    Does s (es ++ resetEvents r t.lines.oem) r.recordNormal (resetBody t) := by
  have hdigital := h.leavePwm
  have hnormal := hdigital.onlyIf (c := State.canSwitch) (f := Machine.normalMode) r.canSwitch hdigital.canSwitch
    (fun hs => (hdigital.normalMode hs).as rfl (Regs.recordNormal_of_canSwitch hs).symm)
    Regs.recordNormal_of_not_canSwitch
  have hdark := hnormal.onlyIf (c := (State.isWired · .oe)) (f := offOp) (r.isWired .oe) (hnormal.isWired .oe)
    (fun _ => hnormal.driveOe true) (fun _ => rfl)
  have hrelease := hdark.onlyIf (c := (State.isWired · .dout)) (f := (State.emit · (.dirIn .dout))) (r.isWired .dout)
    (hdark.isWired .dout) (fun _ => hdark.emit (.dirIn .dout) rfl) (fun _ => rfl)
  have hfill := hrelease.allBody false
  have hconfig := hfill.onlyIf (c := State.canSwitch) (f := Machine.configBody 0#8 0#8 127#8) r.canSwitch hfill.canSwitch
    (fun hs => (hfill.configBody 0#8 0#8 127#8 hs).as rfl (Regs.recordNormal_of_canSwitch hs).symm) (fun _ => rfl)
  have hlit := hconfig.onlyIf (c := (State.isWired · .oe)) (f := onOp) (r.isWired .oe) (hconfig.isWired .oe)
    (fun _ => hconfig.driveOe false) (fun _ => rfl)
  refine hlit.as ?_ rfl
  simp only [resetEvents, List.append_assoc]
  rfl

theorem Does.flashBody (h : Does s es r t) (leaveOn : Bool) (bracket : BitVec 16) (onMs : BitVec 32) :
    Does s (es ++ flashEvents r leaveOn bracket onMs) r (flashBody leaveOn bracket onMs t) := by
  have hdark := (((((h.driveOe true).waitMs bracket.toNat).driveOe false).waitMs onMs.toNat).driveOe true).waitMs
    bracket.toNat
  unfold Machine.flashBody
  split
  next hon =>
    refine (hdark.driveOe false).as ?_ rfl
    simp only [flashEvents, hon, if_true, List.append_assoc]
  next hoff =>
    refine hdark.as ?_ rfl
    simp only [flashEvents, hoff, List.append_assoc]
    rfl

/-- The registers the first ATTACH leaves (40 R100). -/
def Regs.afterAttach (r : Regs) (n : BitVec 8) (wires : BitVec 5) : Regs :=
  { r with
    chain := n
    wired := wires
    pwmcap := if wires.getLsbD 3 then r.par.oePwmCapable else r.pwmcap }

theorem Does.attachBody (h : Does s es r t) (n : BitVec 8) (wires : BitVec 5) :
    Does s (es ++ if r.chain != 0#8 then warnEvents r .redundantAttach else attachEvents wires r.par.oePwmCapable)
      (if r.chain != 0#8 then r else r.afterAttach n wires) (attachBody n wires t) := by
  have hguard : t.attached = (r.chain != 0#8) := congrArg (fun x : Regs => x.chain != 0#8) h.regs
  unfold Machine.attachBody
  rw [hguard]
  split
  · exact h.warn _
  · have hrecord : Does s es { r with chain := n, wired := wires } { t with chain := n, wired := wires } :=
      h.write rfl rfl (congrArg (fun x : Regs => { x with chain := n, wired := wires }) h.regs)
    have hlines := ((((((hrecord.emit (.dirOut .clk) rfl).emit (.dirOut .di) rfl).emit (.drv .clk false) rfl).attachLe
      ).attachOe).attachDo)
    refine hlines.as ?_ rfl
    simp only [attachEvents, List.append_assoc, List.cons_append, List.nil_append]
    rfl

end

/-! ### every command -/

/-- The events a command emits from registers `r`, OE being in drive mode `m`. -/
def commandEvents (r : Regs) (m : OeMode) : Instr → List Event
  | .attach n wires =>
    if attachInRange n wires then
      if r.chain != 0#8 then warnEvents r .redundantAttach else attachEvents wires r.par.oePwmCapable
    else []
  | .shift w => if r.canShift then bitsEvents (wordBits w) else warnEvents r .unwired
  | .send w =>
    if r.canShift then bitsEvents (wordBits w) ++ whenWired (r.isWired .le) latchEvents else warnEvents r .unwired
  | .all level => if r.canShift then allEvents r level else warnEvents r .unwired
  | .sendBits count delay bits =>
    if countInRange count then
      if r.canShift then sendBitsEvents r count.toNat delay bits else warnEvents r .unwired
    else []
  | .latch => if r.isWired .le then latchEvents else warnEvents r .unwired
  | .normal => if r.canSwitch then switchEvents r.par.tables .normal else warnEvents r .unwired
  | .errorDetect => if r.canRead then errorDetectEvents r else warnEvents r .unwired
  | .config cur band gain => if r.canSwitch then configEvents r cur band gain else warnEvents r .unwired
  | .on => oeEvents r false
  | .off => oeEvents r true
  | .brightness level => brightnessEvents r level
  | .reset => resetEvents r m
  | .flash leaveOn bracket onMs => flashEvents r leaveOn bracket onMs

/-- The registers a command leaves. -/
def commandRegs (r : Regs) : Instr → Regs
  | .attach n wires =>
    if attachInRange n wires then (if r.chain != 0#8 then r else r.afterAttach n wires)
    else { r with fault := faultAfter r.fault .operandRange }
  | .sendBits count _ _ => if countInRange count then r else { r with fault := faultAfter r.fault .operandRange }
  | .errorDetect => if r.canRead then r.afterRead else { r with result := 0x0000#16 }
  | .normal | .config _ _ _ | .reset => r.recordNormal
  | .shift _ | .send _ | .all _ | .latch | .on | .off | .brightness _ | .flash _ _ _ => r

theorem execAttach_does (n : BitVec 8) (wires : BitVec 5) (s : State) :
    ∃ t, exec (.attach n wires) s = .next t
      ∧ Does s (commandEvents s.regs s.lines.oem (.attach n wires)) (commandRegs s.regs (.attach n wires)) t := by
  refine ⟨_, rfl, ?_⟩
  simp only [commandEvents, commandRegs]
  split
  · exact ((Does.start s).attachBody n wires).leave
  · exact (Does.start s).raiseFault .operandRange

theorem execSendBits_does (count : BitVec 5) (delay : BitVec 16) (bits : Word) (s : State) :
    ∃ t, exec (.sendBits count delay bits) s = .next t
      ∧ Does s (commandEvents s.regs s.lines.oem (.sendBits count delay bits))
          (commandRegs s.regs (.sendBits count delay bits)) t := by
  refine ⟨_, rfl, ?_⟩
  simp only [commandEvents, commandRegs]
  split
  · exact ((Does.start s).sendBitsBody count delay bits).leave
  · exact (Does.start s).raiseFault .operandRange

/-- Every command ends, having emitted its events and left its registers. -/
theorem exec_next (i : Instr) (s : State) :
    ∃ t, exec i s = .next t ∧ Does s (commandEvents s.regs s.lines.oem i) (commandRegs s.regs i) t := by
  have h := Does.start s
  cases i with
  | attach n wires => exact execAttach_does n wires s
  | shift w => exact ⟨_, rfl, (h.shiftBody w).leave⟩
  | send w => exact ⟨_, rfl, (h.sendBody w).leave⟩
  | all level => exact ⟨_, rfl, (h.allBody level).leave⟩
  | sendBits count delay bits => exact execSendBits_does count delay bits s
  | latch => exact ⟨_, rfl, ((h.enter .latch).latchPulse).leave⟩
  | normal => exact ⟨_, rfl, h.normalBody.leave⟩
  | errorDetect => exact ⟨_, rfl, h.errorDetectBody.leave⟩
  | config cur band gain => exact ⟨_, rfl, (h.configCommand cur band gain).leave⟩
  | on => exact ⟨_, rfl, (h.driveOe false).leave⟩
  | off => exact ⟨_, rfl, (h.driveOe true).leave⟩
  | brightness level => exact ⟨_, rfl, (h.brightnessBody level).leave⟩
  | reset => exact ⟨_, rfl, h.resetBody.leave⟩
  | flash leaveOn bracket onMs => exact ⟨_, rfl, (h.flashBody leaveOn bracket onMs).leave⟩

theorem exec_does {i : Instr} {s t : State} (h : exec i s = .next t) :
    Does s (commandEvents s.regs s.lines.oem i) (commandRegs s.regs i) t := by
  obtain ⟨u, hu, hd⟩ := exec_next i s
  obtain rfl : u = t := Host.Outcome.next.inj (hu.symm.trans h)
  exact hd

/-! ### every step -/

/-- A step waits, takes the fault of the word it accepts, or runs the word's command (10 R32, 30 R80). -/
theorem step_cases {s t : State} (h : step s = .next t) :
    (s.pending = [] ∧ t = s)
    ∨ ∃ w rest, s.pending = w :: rest
      ∧ ((∃ c, decode w = .error c ∧ t = State.raiseFault { s with pending := rest } c)
        ∨ ∃ i, decode w = .ok i ∧ exec i { s with pending := rest } = .next t) := by
  cases hp : s.pending with
  | nil =>
    rw [step, State.acceptCommand_nil hp] at h
    exact .inl ⟨rfl, (Host.Outcome.next.inj h).symm⟩
  | cons w rest =>
    rw [step, State.acceptCommand_cons hp] at h
    refine .inr ⟨w, rest, rfl, ?_⟩
    cases hd : decode w with
    | error c =>
      simp only [runWord, hd] at h
      exact .inl ⟨c, rfl, (Host.Outcome.next.inj h).symm⟩
    | ok i =>
      simp only [runWord, hd] at h
      exact .inr ⟨i, rfl, h⟩

/-- The events of a step: none, or those of the command it runs; the line state follows from them (10 R35, R36). -/
theorem step_events {s t : State} (h : step s = .next t) :
    ∃ es, t.trace = s.trace ++ es ∧ t.lines = s.lines.applyAll es
      ∧ (es = [] ∨ ∃ i rest, es = commandEvents { s.regs with pending := rest } s.lines.oem i) := by
  obtain ⟨-, rfl⟩ | ⟨w, rest, -, ⟨c, -, rfl⟩ | ⟨i, -, hx⟩⟩ := step_cases h
  · exact ⟨[], (List.append_nil _).symm, rfl, .inl rfl⟩
  · exact ⟨[], (List.append_nil _).symm, rfl, .inl rfl⟩
  · exact ⟨_, (exec_does hx).trace, (exec_does hx).lines, .inr ⟨i, rest, rfl⟩⟩

end Sys2Proof.Machine
end

section
/-! The family 10_state: what the trace and `RESULT` keep. -/

namespace Sys2Proof.Machine

/-- Settles O49: a step only appends to the trace (10 R35). -/
theorem traceOnlyGrows : Obligations.TraceOnlyGrows := by
  refine ⟨rfl, fun s t h => ?_⟩
  obtain ⟨es, htrace, hlines, -⟩ := step_events h
  exact ⟨es, htrace, hlines⟩

theorem commandRegs_result {i : Instr} (r : Regs) (hi : i ≠ .errorDetect) : (commandRegs r i).result = r.result := by
  cases i with
  | attach n wires =>
    simp only [commandRegs]
    split
    · split <;> rfl
    · rfl
  | sendBits count delay bits => simp only [commandRegs]; split <;> rfl
  | errorDetect => exact absurd rfl hi
  | _ => rfl

theorem commandRegs_errorDetect_result (r : Regs) :
    (commandRegs r .errorDetect).result = if r.canRead then readbackWord r.nextSamples else 0x0000#16 := by
  simp only [commandRegs]
  split <;> rfl

/-- Settles O53: only ERROR_DETECT writes `RESULT` (10 R25). -/
theorem onlyErrorDetectWritesResult : Obligations.OnlyErrorDetectWritesResult := by
  refine ⟨rfl, fun _ => rfl, fun s t h => ?_, fun i s t hi h => ?_⟩
  · exact (congrArg Regs.result (exec_does h).regs).trans (commandRegs_errorDetect_result s.regs)
  · exact (congrArg Regs.result (exec_does h).regs).trans (commandRegs_result s.regs hi)

end Sys2Proof.Machine
end

section
/-! The family 10_state: every event that drives a line finds it an output (10 R38). Between commands the wired lines other
than DO are outputs (10 R31). But for the first ATTACH, which configures each line before it drives it, a command drives only
such lines and makes no other line than DO an input, so the order of its events plays no part. -/

namespace Sys2Proof.Machine

/-- An event drives only wired lines that the block may drive, and releases none but DO. -/
def Event.fits (r : Regs) : Event → Prop
  | .drv l _ => l ≠ .dout ∧ r.isWired l = true
  | .frm _ => r.isWired .clk = true ∧ r.isWired .oe = true ∧ r.isWired .le = true
  | .pwm _ => r.isWired .oe = true
  | .dirIn l => l = .dout
  | _ => True

/-- Every event of a list drives only wired lines that the block may drive, and releases none but DO. -/
def Fits (r : Regs) (es : List Event) : Prop := ∀ e ∈ es, e.fits r

/-- Each wired line but DO is an output (10 R31). -/
def WiredAreOutputs (r : Regs) (ls : Lines) : Prop := ∀ l, l ≠ .dout → r.isWired l = true → ls.dir.get l = .out

/-! ### the criterion -/

section
variable {r : Regs} {ls : Lines} {es fs : List Event}

theorem WiredAreOutputs.drivesOutput {e : Event} (h : WiredAreOutputs r ls) (he : e.fits r) :
    drivesOutput ls e = true := by
  cases e with
  | drv l v =>
    obtain ⟨hl, hw⟩ := he
    exact decide_eq_true (h l hl hw)
  | frm f =>
    obtain ⟨hclk, hoe, hle⟩ := he
    exact decide_eq_true ⟨h .clk nofun hclk, h .oe nofun hoe, h .le nofun hle⟩
  | pwm d => exact decide_eq_true (h .oe nofun he)
  | _ => rfl

theorem WiredAreOutputs.apply {e : Event} (h : WiredAreOutputs r ls) (he : e.fits r) :
    WiredAreOutputs r (ls.apply e) := by
  intro l hl hw
  cases e with
  | dirOut m =>
    by_cases hm : l = m
    · subst hm
      exact PerLine.get_set_self _ _ _
    · exact (PerLine.get_set_of_ne _ hm _).trans (h l hl hw)
  | dirIn m =>
    have hm : l ≠ m := fun hlm => hl (hlm.trans he)
    exact (PerLine.get_set_of_ne _ hm _).trans (h l hl hw)
  | _ => exact h l hl hw

theorem Fits.drivesOutputs (hes : Fits r es) (h : WiredAreOutputs r ls) : drivesOutputs ls es = true := by
  induction es generalizing ls with
  | nil => rfl
  | cons e es ih =>
    obtain ⟨he, hrest⟩ := List.forall_mem_cons.mp hes
    exact Bool.and_eq_true_iff.mpr ⟨h.drivesOutput he, ih hrest (h.apply he)⟩

/-! ### the lists of events of Machine/Traces.lean -/

theorem Fits.nil : Fits r [] := fun _ h => nomatch h

theorem Fits.cons {e : Event} (he : e.fits r) (h : Fits r es) : Fits r (e :: es) :=
  List.forall_mem_cons.mpr ⟨he, h⟩

theorem Fits.append (h : Fits r es) (k : Fits r fs) : Fits r (es ++ fs) := List.forall_mem_append.mpr ⟨h, k⟩

theorem Fits.flatMap {α : Type} {l : List α} {f : α → List Event} (h : ∀ a, Fits r (f a)) : Fits r (l.flatMap f) := by
  intro e he
  obtain ⟨a, -, ha⟩ := List.mem_flatMap.mp he
  exact h a e ha

theorem Fits.whenWired {c : Bool} (h : c = true → Fits r es) : Fits r (whenWired c es) := by
  unfold Machine.whenWired
  split
  next hc => exact h hc
  next => exact .nil

/-- A command's events under its guard, and its events when the guard fails. -/
theorem Fits.guarded {c : Bool} (h : c = true → Fits r es) (k : Fits r fs) : Fits r (if c then es else fs) := by
  split
  next hc => exact h hc
  next => exact k

theorem Fits.warn (w : Warning) : Fits r (warnEvents r w) := .guarded (fun _ => .cons trivial .nil) .nil

theorem Fits.latch (hle : r.isWired .le = true) : Fits r latchEvents :=
  .cons ⟨nofun, hle⟩ (.cons ⟨nofun, hle⟩ .nil)

theorem Regs.canShift_iff : r.canShift = true ↔ r.isWired .di = true ∧ r.isWired .clk = true := Bool.and_eq_true_iff

theorem Regs.canSwitch_iff : r.canSwitch = true ↔ r.isWired .le = true ∧ r.isWired .oe = true := Bool.and_eq_true_iff

theorem Regs.canRead_iff : r.canRead = true ↔ r.canSwitch = true ∧ r.isWired .dout = true := Bool.and_eq_true_iff

theorem Event.fits_clock (hc : r.canShift = true) (v : Bool) : (Event.drv .clk v).fits r :=
  ⟨nofun, (Regs.canShift_iff.mp hc).2⟩

theorem Event.fits_data (hc : r.canShift = true) (v : Bool) : (Event.drv .di v).fits r :=
  ⟨nofun, (Regs.canShift_iff.mp hc).1⟩

theorem Fits.bit (hc : r.canShift = true) (b : Bool) : Fits r (bitEvents b) :=
  .cons (Event.fits_data hc b) (.cons (Event.fits_clock hc true) (.cons (Event.fits_clock hc false) .nil))

theorem Fits.bits (hc : r.canShift = true) (bs : List Bool) : Fits r (bitsEvents bs) := .flatMap (Fits.bit hc)

theorem Fits.all (hc : r.canShift = true) (level : Bool) : Fits r (allEvents r level) := by
  refine Fits.append (fun e he => ?_) (.whenWired .latch)
  obtain ⟨word, hword, hmem⟩ := List.mem_flatten.mp he
  rw [List.eq_of_mem_replicate hword] at hmem
  exact Fits.bits hc _ e hmem

theorem Fits.sendBits (hc : r.canShift = true) (count : Nat) (delay : BitVec 16) (bits : Word) :
    Fits r (sendBitsEvents r count delay bits) := by
  have hlatch : Fits r (Machine.whenWired (r.isWired .le) latchEvents) := .whenWired .latch
  unfold sendBitsEvents
  split
  · exact (Fits.bits hc _).append hlatch
  · exact .flatMap fun b => ((Fits.bit hc b).append hlatch).append (.cons trivial .nil)

theorem Fits.play (hc : r.canShift = true) (hs : r.canSwitch = true) (ws : WaveTables) (T : Table) :
    Fits r (playEvents ws T) := by
  obtain ⟨hle, hoe⟩ := Regs.canSwitch_iff.mp hs
  refine Fits.append (fun e he => ?_) (.cons (Event.fits_clock hc false) .nil)
  obtain ⟨f, -, rfl⟩ := List.mem_map.mp he
  exact ⟨(Regs.canShift_iff.mp hc).2, hoe, hle⟩

theorem Fits.switch (hc : r.canShift = true) (hs : r.canSwitch = true) (ws : WaveTables) (T : Table) :
    Fits r (switchEvents ws T) := (Fits.play hc hs ws .trans).append (.play hc hs ws T)

theorem Fits.preload (hc : r.canShift = true) (hs : r.canSwitch = true) : Fits r preloadEvents :=
  (Fits.bits hc _).append (.latch (Regs.canSwitch_iff.mp hs).1)

theorem Fits.read (hc : r.canShift = true) (samples : List Bool) : Fits r (readEvents samples) :=
  .flatMap fun _ => .cons trivial (.cons (Event.fits_clock hc true) (.cons (Event.fits_clock hc false) .nil))

theorem Fits.config (hc : r.canShift = true) (hs : r.canSwitch = true) (cur band gain : Byte) :
    Fits r (configEvents r cur band gain) :=
  ((((Fits.preload hc hs).append (.switch hc hs _ _)).append (.bits hc _)).append
    (.latch (Regs.canSwitch_iff.mp hs).1)).append (.switch hc hs _ _)

theorem Fits.errorDetect (hc : r.canShift = true) (hs : r.canSwitch = true) : Fits r (errorDetectEvents r) := by
  have hsettle : Fits r [.us (settleUs r.par)] := .cons trivial .nil
  have hready : Fits r [.dirIn .dout, .drv .di false] := .cons rfl (.cons (Event.fits_data hc false) .nil)
  have hclaim : Fits r [.dirOut .dout] := .cons trivial .nil
  exact (((((((Fits.preload hc hs).append (.switch hc hs _ _)).append hsettle).append (.play hc hs _ _)).append
    hready).append (.read hc _)).append hclaim).append (.switch hc hs _ _)

theorem Fits.oe (v : Bool) : Fits r (oeEvents r v) := by
  refine .guarded (fun hoe => ?_) (.warn _)
  have hdrive : Fits r [.drv .oe v] := .cons ⟨nofun, hoe⟩ .nil
  exact .guarded (fun _ => .cons trivial hdrive) hdrive

theorem Fits.brightness (level : Byte) : Fits r (brightnessEvents r level) :=
  .guarded (fun hoe => .guarded (fun _ => .cons hoe .nil) (.warn _)) (.warn _)

theorem Fits.reset (hc : r.canSwitch = true → r.canShift = true) (m : OeMode) : Fits r (resetEvents r m) := by
  have hdigital : Fits r [.dirOut .oe] := .cons trivial .nil
  have hrelease : Fits r [.dirIn .dout] := .cons rfl .nil
  exact ((((((Fits.whenWired fun _ => hdigital).append (.whenWired fun hs => .switch (hc hs) hs _ _)).append
    (.whenWired fun _ => .oe true)).append (.whenWired fun _ => hrelease)).append
      (.guarded (fun h => .all h false) (.warn _))).append (.whenWired fun hs => .config (hc hs) hs _ _ _)).append
        (.whenWired fun _ => .oe false)

theorem Fits.flash (leaveOn : Bool) (bracket : BitVec 16) (onMs : BitVec 32) :
    Fits r (flashEvents r leaveOn bracket onMs) := by
  have hwait : ∀ n, Fits r [.ms n] := fun _ => .cons trivial .nil
  exact ((((((Fits.oe true).append (hwait _)).append (.oe false)).append (hwait _)).append (.oe true)).append
    (hwait _)).append (.guarded (fun _ => .oe false) .nil)

/-- ATTACH configures each line before it drives it, whatever the line state (40 R100). -/
theorem drivesOutputs_attachEvents (ls : Lines) (wires : BitVec 5) (capable : Bool) :
    drivesOutputs ls (attachEvents wires capable) = true := by
  unfold attachEvents
  cases wires.getLsbD 2 <;> cases wires.getLsbD 3 <;> cases wires.getLsbD 4 <;> rfl

/-! ### every command -/

/-- The events of a command drive only outputs when the wired lines are outputs and a block that can switch modes can shift
(10 R21, R31). -/
theorem drivesOutputs_commandEvents (hout : WiredAreOutputs r ls) (hc : r.canSwitch = true → r.canShift = true)
    (m : OeMode) (i : Instr) : drivesOutputs ls (commandEvents r m i) = true := by
  cases i with
  | attach n wires =>
    simp only [commandEvents]
    split
    · split
      · exact (Fits.warn _).drivesOutputs hout
      · exact drivesOutputs_attachEvents ls wires _
    · rfl
  | shift w => exact (Fits.guarded (fun h => .bits h _) (.warn _)).drivesOutputs hout
  | send w =>
    exact (Fits.guarded (fun h => (Fits.bits h _).append (.whenWired .latch)) (.warn _)).drivesOutputs hout
  | all level => exact (Fits.guarded (fun h => .all h level) (.warn _)).drivesOutputs hout
  | sendBits count delay bits =>
    exact (Fits.guarded (fun _ => .guarded (fun h => .sendBits h _ delay bits) (.warn _)) .nil).drivesOutputs hout
  | latch => exact (Fits.guarded .latch (.warn _)).drivesOutputs hout
  | normal => exact (Fits.guarded (fun hs => .switch (hc hs) hs _ _) (.warn _)).drivesOutputs hout
  | errorDetect =>
    refine (Fits.guarded (fun hr => ?_) (.warn _)).drivesOutputs hout
    have hs := (Regs.canRead_iff.mp hr).1
    exact .errorDetect (hc hs) hs
  | config cur band gain => exact (Fits.guarded (fun hs => .config (hc hs) hs _ _ _) (.warn _)).drivesOutputs hout
  | on => exact (Fits.oe false).drivesOutputs hout
  | off => exact (Fits.oe true).drivesOutputs hout
  | brightness level => exact (Fits.brightness level).drivesOutputs hout
  | reset => exact (Fits.reset hc m).drivesOutputs hout
  | flash leaveOn bracket onMs => exact (Fits.flash leaveOn bracket onMs).drivesOutputs hout

end

/-- A block with a wired line is attached, and then DI and CLK are wired (10 R21, 60 R218). -/
theorem State.Inv.canShift_of_isWired {s : State} (h : s.Inv) {l : Line} (hl : s.isWired l = true) :
    s.canShift = true := by
  have hchain : s.chain ≠ 0#8 := by
    intro h0
    rw [State.isWired, h.unattached h0, BitVec.getLsbD_zero] at hl
    exact Bool.false_ne_true hl
  exact Bool.and_eq_true_iff.mpr (h.attached hchain)

/-- Settles O48: whatever a step drives is an output at that moment (10 R38). -/
theorem onlyOutputsAreDriven : Obligations.OnlyOutputsAreDriven := by
  intro s t hinv hstep
  obtain ⟨es, htrace, -, rfl | ⟨i, rest, rfl⟩⟩ := step_events hstep
  · exact ⟨[], htrace, rfl⟩
  · have hout : WiredAreOutputs { s.regs with pending := rest } s.lines := hinv.driven
    refine ⟨_, htrace, drivesOutputs_commandEvents hout (fun hs => ?_) _ i⟩
    exact hinv.canShift_of_isWired (l := .le) (Regs.canSwitch_iff.mp hs).1

end Sys2Proof.Machine
end

section
/-! SUPPORT. The opcode map read row by row (30 R81): every row has its opcode, its format and the command it reads from a
word, and decoding is the two checks of R80 on the row of the word's opcode. -/

namespace Sys2Proof

/-! ### the rows -/

/-- The format of a row of the opcode map (30 R81). -/
def rowFormat : Instr → Format
  | .attach _ _ => .fa
  | .shift _ | .send _ => .fw
  | .all _ => .fl
  | .sendBits _ _ _ => .fb
  | .latch | .normal | .errorDetect | .on | .off | .reset => .f0
  | .config _ _ _ => .fc
  | .brightness _ => .fv
  | .flash _ _ _ => .ff

/-- The opcode of a row (30 R81). -/
def rowOpcode : Instr → Byte
  | .attach _ _ => 0x01#8
  | .shift _ => 0x02#8
  | .send _ => 0x03#8
  | .all _ => 0x04#8
  | .sendBits _ _ _ => 0x05#8
  | .latch => 0x06#8
  | .normal => 0x07#8
  | .errorDetect => 0x08#8
  | .config _ _ _ => 0x09#8
  | .on => 0x0A#8
  | .off => 0x0B#8
  | .brightness _ => 0x0C#8
  | .reset => 0x0D#8
  | .flash _ _ _ => 0x0E#8

theorem opcodeOf_rowMatch (r : Instr) : opcodeOf (rowMatch r) = rowOpcode r := by
  cases r <;> (dsimp only [rowMatch, rowOpcode]; decide)

/-- The command of `r`'s row with the operands that stand in `w` (30 R72 to R78). -/
def readRow (r : Instr) (w : Cmd) : Instr :=
  match r with
  | .attach _ _ => .attach (w.extractLsb' 48 8) (w.extractLsb' 0 5)
  | .shift _ => .shift (w.extractLsb' 0 16)
  | .send _ => .send (w.extractLsb' 0 16)
  | .all _ => .all (w.getLsbD 0)
  | .sendBits _ _ _ => .sendBits (w.extractLsb' 48 5) (w.extractLsb' 32 16) (w.extractLsb' 0 16)
  | .config _ _ _ => .config (w.extractLsb' 16 8) (w.extractLsb' 8 8) (w.extractLsb' 0 8)
  | .brightness _ => .brightness (w.extractLsb' 0 8)
  | .flash _ _ _ => .flash (w.getLsbD 48) (w.extractLsb' 32 16) (w.extractLsb' 0 32)
  | .latch => .latch
  | .normal => .normal
  | .errorDetect => .errorDetect
  | .on => .on
  | .off => .off
  | .reset => .reset

/-- Reading operands stays in the row. -/
@[simp] theorem rowMatch_readRow (r : Instr) (w : Cmd) : rowMatch (readRow r w) = rowMatch r := by
  cases r <;> rfl

/-- One command of each row, in the order of the opcode map. -/
def rows : List Instr :=
  [.attach 0#8 0#5, .shift 0#16, .send 0#16, .all false, .sendBits 0#5 0#16 0#16, .latch, .normal, .errorDetect,
    .config 0#8 0#8 0#8, .on, .off, .brightness 0#8, .reset, .flash false 0#16 0#32]

theorem rowOpcodes_eq_range : rows.map (fun r => (rowOpcode r).toNat) = List.range' 1 14 := by decide

/-- A legal opcode is that of a row (30 R81). -/
theorem exists_row_of_legal {op : Byte} (h : 1 ≤ op.toNat ∧ op.toNat ≤ 14) : ∃ r, op = rowOpcode r := by
  have hmem : op.toNat ∈ rows.map fun r => (rowOpcode r).toNat := by
    rw [rowOpcodes_eq_range, List.mem_range'_1]
    omega
  obtain ⟨r, -, hr⟩ := List.mem_map.mp hmem
  exact ⟨r, BitVec.eq_of_toNat_eq hr.symm⟩

/-! ### the mask of a row -/

/-- The opcode field of a word (30 R71). -/
def opcodeMask : Cmd := 0xFF00000000000000#64

theorem and_opcodeMask (w : Cmd) : w &&& opcodeMask = opcodeOf w ++ 0#56 := by
  have hw : w = opcodeOf w ++ w.extractLsb' 0 56 := by
    have hjoin := BitVec.extractLsb'_append_extractLsb'_eq_extractLsb' (x := w) (show 56 = 0 + 56 from rfl) (len₂ := 8)
    exact (hjoin.trans BitVec.extractLsb'_eq_self).symm
  have hmask : opcodeMask = BitVec.allOnes 8 ++ 0#56 := by decide
  calc
    w &&& opcodeMask = (opcodeOf w ++ w.extractLsb' 0 56) &&& (BitVec.allOnes 8 ++ 0#56) := by rw [← hw, hmask]
    _ = opcodeOf w ++ 0#56 := by rw [BitVec.and_append, BitVec.and_allOnes, BitVec.and_zero]

/-- A row's mask is the opcode field and the reserved bits of the row's format. -/
theorem rowMask_eq (r : Instr) : rowMask r = opcodeMask ||| reservedBits (rowFormat r) := by
  cases r <;> (dsimp only [rowMask, rowFormat]; decide)

theorem rowMask_and_opcodeMask (r : Instr) : rowMask r &&& opcodeMask = opcodeMask := by
  cases r <;> (dsimp only [rowMask]; decide)

theorem rowMask_and_reservedBits (r : Instr) :
    rowMask r &&& reservedBits (rowFormat r) = reservedBits (rowFormat r) := by
  cases r <;> (dsimp only [rowMask, rowFormat]; decide)

theorem rowMatch_and_opcodeMask (r : Instr) : rowMatch r &&& opcodeMask = rowMatch r := by
  cases r <;> (dsimp only [rowMatch]; decide)

theorem rowMatch_and_reservedBits (r : Instr) : rowMatch r &&& reservedBits (rowFormat r) = 0#64 := by
  cases r <;> (dsimp only [rowMatch, rowFormat]; decide)

theorem and_opcodeMask_eq_rowMatch_iff (w : Cmd) (r : Instr) :
    w &&& opcodeMask = rowMatch r ↔ opcodeOf w = rowOpcode r := by
  rw [← rowMatch_and_opcodeMask r, and_opcodeMask, and_opcodeMask, BitVec.append_left_inj, opcodeOf_rowMatch]

/-- The mask selects the words with the row's opcode and no reserved bit. -/
theorem selects_iff (w : Cmd) (r : Instr) :
    w &&& rowMask r = rowMatch r ↔ opcodeOf w = rowOpcode r ∧ w &&& reservedBits (rowFormat r) = 0#64 := by
  rw [← and_opcodeMask_eq_rowMatch_iff]
  constructor
  · intro h
    constructor
    · calc
        w &&& opcodeMask = (w &&& rowMask r) &&& opcodeMask := by rw [BitVec.and_assoc, rowMask_and_opcodeMask]
        _ = rowMatch r := by rw [h, rowMatch_and_opcodeMask]
    · calc
        w &&& reservedBits (rowFormat r) = (w &&& rowMask r) &&& reservedBits (rowFormat r) := by
          rw [BitVec.and_assoc, rowMask_and_reservedBits]
        _ = 0#64 := by rw [h, rowMatch_and_reservedBits]
  · rintro ⟨hop, hres⟩
    rw [rowMask_eq, BitVec.and_or_distrib_left, hop, hres, BitVec.or_zero]

/-! ### the decoder -/

theorem withReserved_eq_ok_iff {f : Format} {w : Cmd} {i j : Instr} :
    withReserved f w j = .ok i ↔ w &&& reservedBits f = 0#64 ∧ j = i := by
  unfold withReserved
  split
  next h => simp [h]
  next h => simp [h]

/-- Under the opcode of a row the decoder checks the reserved bits of the row's format and reads the row's operands. -/
theorem decode_of_opcode {w : Cmd} {r : Instr} (h : opcodeOf w = rowOpcode r) :
    decode w = withReserved (rowFormat r) w (readRow r w) := by
  unfold decode
  rw [h]
  cases r <;> rfl

/-- The first check of 30 R80. -/
theorem decode_of_illegal {w : Cmd} (h : ¬ (1 ≤ (opcodeOf w).toNat ∧ (opcodeOf w).toNat ≤ 14)) :
    decode w = .error .illegalOpcode := by
  unfold decode
  split
  case h_15 => rfl
  all_goals omega

/-- The second check of 30 R80. -/
theorem decode_of_reserved {w : Cmd} {r : Instr} (h : opcodeOf w = rowOpcode r) (hn : w &&& rowMask r ≠ rowMatch r) :
    decode w = .error .reservedNonzero := by
  have hres : w &&& reservedBits (rowFormat r) ≠ 0#64 := fun h0 => hn ((selects_iff w r).mpr ⟨h, h0⟩)
  rw [decode_of_opcode h, withReserved, if_neg hres]

theorem decode_of_selects {w : Cmd} {r : Instr} (h : w &&& rowMask r = rowMatch r) : decode w = .ok (readRow r w) := by
  obtain ⟨hop, hres⟩ := (selects_iff w r).mp h
  rw [decode_of_opcode hop, withReserved, if_pos hres]

/-- A word the decoder accepts is one that its command's row selects. -/
theorem selects_of_decode {w : Cmd} {i : Instr} (h : decode w = .ok i) : w &&& rowMask i = rowMatch i := by
  by_cases hlegal : 1 ≤ (opcodeOf w).toNat ∧ (opcodeOf w).toNat ≤ 14
  · obtain ⟨r, hr⟩ := exists_row_of_legal hlegal
    rw [decode_of_opcode hr, withReserved_eq_ok_iff] at h
    obtain ⟨hres, rfl⟩ := h
    have hmask : rowMask (readRow r w) = rowMask r := by cases r <;> rfl
    rw [hmask, rowMatch_readRow]
    exact (selects_iff w r).mpr ⟨hr, hres⟩
  · rw [decode_of_illegal hlegal] at h
    cases h

end Sys2Proof
end

section
/-! The family 30_encoding: row selection and the order of the checks (30 R80, R81). -/

namespace Sys2Proof.Machine

/-- Settles O3: a row selects the words it decodes, and only those (30 R81). -/
theorem wordSelectsItsRow : Obligations.WordSelectsItsRow := by
  intro w r
  constructor
  · exact fun h => ⟨readRow r w, decode_of_selects h, rowMatch_readRow r w⟩
  · rintro ⟨i, hi, hrow⟩
    have hop : opcodeOf w = rowOpcode r := by
      rw [((selects_iff w i).mp (selects_of_decode hi)).1, ← opcodeOf_rowMatch, hrow, opcodeOf_rowMatch]
    rw [decode_of_opcode hop, withReserved_eq_ok_iff] at hi
    exact (selects_iff w r).mpr ⟨hop, hi.1⟩

/-! ### running one word -/

theorem runWord_of_ok {w : Cmd} {i : Instr} (h : decode w = .ok i) (s : State) : runWord w s = exec i s := by
  rw [runWord, h]

theorem runWord_of_error {w : Cmd} {c : FaultCause} (h : decode w = .error c) (s : State) :
    runWord w s = .next (s.raiseFault c) := by
  rw [runWord, h]

theorem runWord_of_illegal {w : Cmd} (h : ¬ (1 ≤ (opcodeOf w).toNat ∧ (opcodeOf w).toNat ≤ 14)) (s : State) :
    runWord w s = .next (s.raiseFault .illegalOpcode) := runWord_of_error (decode_of_illegal h) s

theorem runWord_of_reserved {w : Cmd} {r : Instr} (h : opcodeOf w = opcodeOf (rowMatch r))
    (hn : w &&& rowMask r ≠ rowMatch r) (s : State) : runWord w s = .next (s.raiseFault .reservedNonzero) :=
  runWord_of_error (decode_of_reserved (h.trans (opcodeOf_rowMatch r)) hn) s

/-- The third check of 30 R80: an operand out of its range (30 R79) is the first thing its command looks at. -/
theorem exec_of_not_wellFormed {i : Instr} (h : i.wellFormed = false) (s : State) :
    exec i s = .next (s.raiseFault .operandRange) := by
  cases i with
  | attach n wires =>
    have hrange : attachInRange n wires = false := h
    simp only [exec, execAttach, hrange, Bool.false_eq_true, if_false]
  | sendBits count delay bits =>
    have hrange : countInRange count = false := h
    simp only [exec, execSendBits, hrange, Bool.false_eq_true, if_false]
  | _ => cases h

/-- Settles O4: opcode, reserved bits and operand values are checked in this order (30 R80). -/
theorem checksComeInOrder : Obligations.ChecksComeInOrder := fun _ s =>
  ⟨fun h => runWord_of_illegal h s, fun _ h hn => runWord_of_reserved h hn s,
    fun _ hi hill => (runWord_of_ok hi s).trans (exec_of_not_wellFormed hill s), fun _ hi _ => runWord_of_ok hi s⟩

end Sys2Proof.Machine
end

section
/-! The family 30_encoding: only NORMAL, ERROR_DETECT, CONFIG and RESET play tables (30 R82). Every other command emits no
frame, and without a frame no table is played. -/

namespace Sys2Proof.Machine

/-- No event of a list is a waveform frame. -/
def Frameless (es : List Event) : Prop := ∀ f, Event.frm f ∉ es

/-- Without frames no table is played: `DRV(CLK, 0)` ends a table only after a frame. -/
theorem Frameless.playedTables {es : List Event} (h : Frameless es) : playedTables [] es = [] := by
  induction es with
  | nil => rfl
  | cons e es ih =>
    have hrest : Machine.playedTables [] es = [] := ih fun f hf => h f (List.mem_cons_of_mem e hf)
    cases e with
    | frm f => exact absurd List.mem_cons_self (h f)
    | drv l v => cases l <;> cases v <;> exact hrest
    | _ => exact hrest

/-! ### lists of events without frames -/

section
variable {es fs : List Event}

theorem Frameless.nil : Frameless [] := fun _ => List.not_mem_nil

theorem Frameless.append (h : Frameless es) (k : Frameless fs) : Frameless (es ++ fs) := fun f hf =>
  (List.mem_append.mp hf).elim (h f) (k f)

theorem Frameless.flatMap {α : Type} {l : List α} {g : α → List Event} (h : ∀ a, Frameless (g a)) :
    Frameless (l.flatMap g) := by
  intro f hf
  obtain ⟨a, -, ha⟩ := List.mem_flatMap.mp hf
  exact h a f ha

theorem Frameless.ite {c : Prop} [Decidable c] (h : Frameless es) (k : Frameless fs) :
    Frameless (if c then es else fs) := by
  split
  · exact h
  · exact k

theorem Frameless.whenWired {c : Bool} (h : Frameless es) : Frameless (whenWired c es) := .ite h .nil

end

theorem Frameless.warn (r : Regs) (w : Warning) : Frameless (warnEvents r w) := .ite (by simp [Frameless]) .nil

theorem Frameless.latch : Frameless latchEvents := by simp [Frameless, latchEvents]

theorem Frameless.bit (b : Bool) : Frameless (bitEvents b) := by simp [Frameless, bitEvents]

theorem Frameless.bits (bs : List Bool) : Frameless (bitsEvents bs) := .flatMap Frameless.bit

theorem Frameless.all (r : Regs) (level : Bool) : Frameless (allEvents r level) := by
  refine .append (fun f hf => ?_) (.whenWired .latch)
  obtain ⟨word, hword, hmem⟩ := List.mem_flatten.mp hf
  rw [List.eq_of_mem_replicate hword] at hmem
  exact Frameless.bits _ f hmem

theorem Frameless.sendBits (r : Regs) (count : Nat) (delay : BitVec 16) (bits : Word) :
    Frameless (sendBitsEvents r count delay bits) := by
  have hlatch : Frameless (Machine.whenWired (r.isWired .le) latchEvents) := .whenWired .latch
  exact .ite ((Frameless.bits _).append hlatch)
    (.flatMap fun b => ((Frameless.bit b).append hlatch).append (by simp [Frameless]))

theorem Frameless.attach (wires : BitVec 5) (capable : Bool) : Frameless (attachEvents wires capable) :=
  .append (.append (.append (by simp [Frameless]) (.whenWired (by simp [Frameless]))) (.whenWired (by simp [Frameless])))
    (.whenWired (by simp [Frameless]))

theorem Frameless.oe (r : Regs) (v : Bool) : Frameless (oeEvents r v) :=
  .ite (.ite (by simp [Frameless]) (by simp [Frameless])) (.warn r _)

theorem Frameless.brightness (r : Regs) (level : Byte) : Frameless (brightnessEvents r level) :=
  .ite (.ite (by simp [Frameless]) (.warn r _)) (.warn r _)

theorem Frameless.flash (r : Regs) (leaveOn : Bool) (bracket : BitVec 16) (onMs : BitVec 32) :
    Frameless (flashEvents r leaveOn bracket onMs) := by
  have hwait : ∀ n, Frameless [.ms n] := by simp [Frameless]
  exact ((((((Frameless.oe r true).append (hwait _)).append (.oe r false)).append (hwait _)).append (.oe r true)).append
    (hwait _)).append (.ite (.oe r false) .nil)

/-! ### the commands that play tables -/

/-- NORMAL, ERROR_DETECT, CONFIG and RESET: the commands that switch modes (30 R82). -/
def SwitchesMode (i : Instr) : Prop :=
  i = .normal ∨ i = .errorDetect ∨ (∃ cur band gain, i = .config cur band gain) ∨ i = .reset

/-- Every other command emits no frame. -/
theorem Frameless.command {i : Instr} (hi : ¬ SwitchesMode i) (r : Regs) (m : OeMode) :
    Frameless (commandEvents r m i) := by
  cases i with
  | attach n wires => exact .ite (.ite (.warn r _) (.attach wires _)) .nil
  | shift w => exact .ite (.bits _) (.warn r _)
  | send w => exact .ite ((Frameless.bits _).append (.whenWired .latch)) (.warn r _)
  | all level => exact .ite (.all r level) (.warn r _)
  | sendBits count delay bits => exact .ite (.ite (.sendBits r _ delay bits) (.warn r _)) .nil
  | latch => exact .ite .latch (.warn r _)
  | on => exact .oe r false
  | off => exact .oe r true
  | brightness level => exact .brightness r level
  | flash leaveOn bracket onMs => exact .flash r leaveOn bracket onMs
  | normal => exact absurd (.inl rfl) hi
  | errorDetect => exact absurd (.inr (.inl rfl)) hi
  | config cur band gain => exact absurd (.inr (.inr (.inl ⟨cur, band, gain, rfl⟩))) hi
  | reset => exact absurd (.inr (.inr (.inr rfl))) hi

/-- A word whose events hold a frame is one of a command that switches modes. -/
theorem switchesMode_of_not_frameless {w : Cmd} {s t : State} {es : List Event} (h : runWord w s = .next t)
    (htrace : t.trace = s.trace ++ es) (hes : ¬ Frameless es) : ∃ i, decode w = .ok i ∧ SwitchesMode i := by
  cases hd : decode w with
  | error c =>
    rw [runWord_of_error hd] at h
    obtain rfl := Host.Outcome.next.inj h
    have hnil : es = [] := List.append_right_eq_self.mp htrace.symm
    exact absurd (hnil ▸ Frameless.nil) hes
  | ok i =>
    rw [runWord_of_ok hd] at h
    have hevents : es = commandEvents s.regs s.lines.oem i :=
      List.append_cancel_left (htrace.symm.trans (exec_does h).trace)
    by_cases hi : SwitchesMode i
    · exact ⟨i, rfl, hi⟩
    · exact absurd (hevents ▸ Frameless.command hi _ _) hes

/-- Settles O7: illegal opcodes and reserved bits fault, and only the four mode commands play a target table (30 R82). -/
theorem onlyFourCommandsPlayTargetTables : Obligations.OnlyFourCommandsPlayTargetTables := by
  refine fun w s => ⟨fun h => runWord_of_illegal (by omega) s, fun _ h hn => runWord_of_reserved h hn s, ?_⟩
  rintro t es hrun htrace ⟨fs, hplayed, -⟩
  refine switchesMode_of_not_frameless hrun htrace fun hnone => ?_
  rw [hnone.playedTables] at hplayed
  exact absurd hplayed List.not_mem_nil

end Sys2Proof.Machine
end

section
/-! The family 30_encoding: the assembler. Its examples (30 R85), its one pseudo-instruction, and that a line's mnemonic
names its command (30 R84). -/

namespace Sys2Proof.Machine

/-- Settles O5: the examples of 30 R85 are closed words and lines, and evaluation gives each. -/
theorem exampleWordsDecode : Obligations.ExampleWordsDecode := by
  unfold Obligations.ExampleWordsDecode
  and_intros <;> rfl

/-! ### ATTACH -/

theorem assembleTokens_attach (pins : List Token) :
    assembleTokens (.word "ATTACH".toList :: .openBrace :: pins) = (pinList pins).map (Instr.attach 1#8) := rfl

theorem assembleTokens_attach_of_chain {cs : List Char} {n : BitVec 8} (hn : chainOperand cs = some n)
    (pins : List Token) :
    assembleTokens (.word "ATTACH".toList :: .word cs :: .comma :: .openBrace :: pins)
      = (pinList pins).map (Instr.attach n) := by
  have hoperands : assembleTokens (.word "ATTACH".toList :: .word cs :: .comma :: .openBrace :: pins)
      = attachOperands (.word cs :: .comma :: .openBrace :: pins) := rfl
  rw [hoperands, attachOperands, hn]
  cases pinList pins <;> rfl

theorem attachOperands_eq_attach {ts : List Token} {i : Instr} (h : attachOperands ts = some i) :
    ∃ n ws, i = .attach n ws := by
  revert h
  fun_cases attachOperands ts
  case case1 pins =>
    intro h
    obtain ⟨ws, -, rfl⟩ := Option.map_eq_some_iff.mp h
    exact ⟨1#8, ws, rfl⟩
  case case2 =>
    rintro ⟨⟩
    exact ⟨_, _, rfl⟩
  all_goals exact nofun

/-! ### pin sets -/

theorem pinBit_getLsbD (l m : Line) : (pinBit l).getLsbD (lineBit m) = decide (l = m) := by
  cases l <;> cases m <;> decide

theorem pinBit_getLsbD_of_ne {l m : Line} (h : l ≠ m) : (pinBit l).getLsbD (lineBit m) = false := by
  rw [pinBit_getLsbD, decide_eq_false h]

/-- A pin left out of the set has its `WIRES` bit 0 (30 R84). -/
theorem pinList_getLsbD_of_absent {pins : List Token} {ws : BitVec 5} {l : Line} (h : pinList pins = some ws)
    (habsent : ∀ cs, .word cs ∈ pins → pinLine cs ≠ some l) : ws.getLsbD (lineBit l) = false := by
  revert h
  fun_induction pinList pins generalizing ws with
  | case1 p =>
    intro h
    obtain ⟨m, hm, rfl⟩ := Option.map_eq_some_iff.mp h
    exact pinBit_getLsbD_of_ne fun hml => habsent p List.mem_cons_self (hml ▸ hm)
  | case2 p rest m us hus hm ih =>
    rintro ⟨⟩
    have hpin : (pinBit m).getLsbD (lineBit l) = false :=
      pinBit_getLsbD_of_ne fun hml => habsent p List.mem_cons_self (hml ▸ hm)
    have hrest : us.getLsbD (lineBit l) = false :=
      ih (fun cs hcs => habsent cs (List.mem_cons_of_mem _ (List.mem_cons_of_mem _ hcs))) hus
    rw [BitVec.getLsbD_or, hpin, hrest, Bool.or_false]
  | case3 => exact nofun
  | case4 => exact nofun

/-! ### mnemonics -/

theorem plainMnemonic_eq_some {m : List Char} {i : Instr} (h : plainMnemonic m = some i) :
    m = i.mnemonic.toList := by
  revert h
  fun_cases plainMnemonic m <;> rintro ⟨⟩ <;> assumption

theorem unaryMnemonic_eq_some {m a : List Char} {i : Instr} (h : unaryMnemonic m a = some i) :
    m = i.mnemonic.toList := by
  revert h
  fun_cases unaryMnemonic m a
  case case5 => exact nofun
  all_goals
    intro h
    obtain ⟨v, -, rfl⟩ := Option.map_eq_some_iff.mp h
    assumption

theorem ternaryMnemonic_eq_some {m a b c : List Char} {i : Instr} (h : ternaryMnemonic m a b c = some i) :
    m = i.mnemonic.toList := by
  revert h
  fun_cases ternaryMnemonic m a b c <;> rintro ⟨⟩ <;> assumption

/-- A line assembles only to the command its mnemonic names (30 R84). -/
theorem assembleTokens_mnemonic {ts : List Token} {i : Instr} (h : assembleTokens ts = some i) :
    ∃ rest, ts = .word i.mnemonic.toList :: rest := by
  revert h
  fun_cases assembleTokens ts with
  | case1 m => exact fun h => ⟨_, by rw [plainMnemonic_eq_some h]⟩
  | case3 m a => exact fun h => ⟨_, by rw [unaryMnemonic_eq_some h]⟩
  | case4 m a b c => exact fun h => ⟨_, by rw [ternaryMnemonic_eq_some h]⟩
  | case5 rest =>
    intro h
    obtain ⟨n, ws, rfl⟩ := attachOperands_eq_attach h
    exact ⟨rest, rfl⟩
  | case2 => exact nofun
  | case6 => exact nofun
  | case7 => exact nofun

/-- Settles O6: ATTACH without a length is ATTACH with length 1, and no other mnemonic stands for another command (30
R84). -/
theorem attachWithoutLengthMeansOne : Obligations.AttachWithoutLengthMeansOne := by
  refine ⟨fun pins => ?_, fun _ _ _ h => pinList_getLsbD_of_absent h, rfl, fun _ _ h => assembleTokens_mnemonic h⟩
  have hone : chainOperand ['1'] = some 1#8 := rfl
  exact (assembleTokens_attach pins).trans (assembleTokens_attach_of_chain hone pins).symm

end Sys2Proof.Machine
end

section
/-! SUPPORT. Two facts that the statement of each command is made of: which words are the command (30 R81, R82), and that a
command whose operands are in range ends in `PHASE = IDLE` (10 R33). -/

namespace Sys2Proof.Machine

/-- A word with a row's opcode is the row's command, unless a reserved bit of the row's format is 1 (30 R81, R82). -/
theorem encodedAs_readRow (r : Instr) : encodedAs (rowOpcode r) (reservedBits (rowFormat r)) (readRow r) := by
  intro w s hop
  have hsecond := decode_of_opcode hop
  constructor
  · intro hres
    have hok : decode w = .ok (readRow r w) := by rw [hsecond, withReserved, if_pos hres]
    exact ⟨hok, runWord_of_ok hok s⟩
  · intro hres
    have herror : decode w = .error .reservedNonzero := by rw [hsecond, withReserved, if_neg hres]
    exact runWord_of_error herror s

/-- A command with its operands in range ends in `PHASE = IDLE`. -/
theorem exec_phase {i : Instr} {s t : State} (hi : i.wellFormed = true) (h : exec i s = .next t) : t.phase = .idle := by
  cases i with
  | attach n wires =>
    have hrange : attachInRange n wires = true := hi
    rw [exec, execAttach, if_pos hrange] at h
    exact Host.Outcome.next.inj h ▸ State.leave_phase _
  | sendBits count delay bits =>
    have hrange : countInRange count = true := hi
    rw [exec, execSendBits, if_pos hrange] at h
    exact Host.Outcome.next.inj h ▸ State.leave_phase _
  | _ => exact Host.Outcome.next.inj h ▸ State.leave_phase _

/-- A command with its operands in range emits its events, leaves its registers, and ends in `PHASE = IDLE`. -/
theorem exec_ran {i : Instr} (hi : i.wellFormed = true) (s : State) :
    ∃ t, exec i s = .next t ∧ Ran s (commandEvents s.regs s.lines.oem i) (commandRegs s.regs i) t := by
  obtain ⟨t, ht, hdoes⟩ := exec_next i s
  exact ⟨t, ht, hdoes.trace, hdoes.lines, hdoes.regs, exec_phase hi ht⟩

end Sys2Proof.Machine
end

section
/-! The family 40_attach. -/

namespace Sys2Proof.Machine

/-! ### the operands -/

section
variable {n : BitVec 8} {wires : BitVec 5}

theorem attachInRange_iff :
    attachInRange n wires = true ↔ n ≠ 0#8 ∧ wires.getLsbD 0 = true ∧ wires.getLsbD 1 = true := by
  simp [attachInRange, and_assoc]

/-- Chain length 0, or DI or CLK not wired, is out of range (40 R101). -/
theorem attach_wellFormed_eq_false (h : n = 0#8 ∨ wires.getLsbD 0 = false ∨ wires.getLsbD 1 = false) :
    (Instr.attach n wires).wellFormed = false := by
  obtain rfl | hdi | hclk := h
  · rfl
  · rw [Instr.wellFormed, hdi, Bool.and_false, Bool.false_and]
  · rw [Instr.wellFormed, hclk, Bool.and_false]

/-! ### the two outcomes of an ATTACH in range -/

/-- The first ATTACH sets up the block (40 R100). -/
theorem exec_attach_first {s : State} (hrange : attachInRange n wires = true) (hchain : s.chain = 0#8) :
    ∃ t, exec (.attach n wires) s = .next t
      ∧ Ran s (attachEvents wires s.par.oePwmCapable) (s.regs.afterAttach n wires) t := by
  obtain ⟨t, ht, hran⟩ := exec_ran (i := .attach n wires) hrange s
  have hfirst : ¬ (s.regs.chain != 0#8) = true := by simp [State.regs, hchain]
  simp only [commandEvents, commandRegs, if_pos hrange, if_neg hfirst] at hran
  exact ⟨t, ht, hran⟩

/-- A redundant ATTACH only warns (40 R102). -/
theorem exec_attach_redundant {s : State} (hrange : attachInRange n wires = true) (hchain : s.chain ≠ 0#8) :
    ∃ t, exec (.attach n wires) s = .next t ∧ Ran s (warnEvents s.regs .redundantAttach) s.regs t := by
  obtain ⟨t, ht, hran⟩ := exec_ran (i := .attach n wires) hrange s
  have hagain : (s.regs.chain != 0#8) = true := bne_iff_ne.mpr hchain
  simp only [commandEvents, commandRegs, if_pos hrange, if_pos hagain] at hran
  exact ⟨t, ht, hran⟩

end

/-- Settles O11: the range check comes first, and it takes the fault alone (40 R101). -/
theorem attachWithoutItsOperandsFaults : Obligations.AttachWithoutItsOperandsFaults := fun _ _ s h =>
  exec_of_not_wellFormed (attach_wellFormed_eq_false h) s

/-- Settles O15: the three outcomes of ATTACH (40 R100 to R102), and its word. -/
theorem attachFollowsItsRule : Obligations.AttachFollowsItsRule := by
  refine ⟨encodedAs_readRow (.attach 0#8 0#5), fun n wires s => ⟨?_, ?_, ?_⟩⟩
  · exact fun hn hdi hclk hchain => exec_attach_first (attachInRange_iff.mpr ⟨hn, hdi, hclk⟩) hchain
  · exact fun hn hdi hclk hchain => exec_attach_redundant (attachInRange_iff.mpr ⟨hn, hdi, hclk⟩) hchain
  · exact fun h => exec_of_not_wellFormed (attach_wellFormed_eq_false h) s

/-! ### the line state after the first ATTACH -/

/-- ATTACH drives no line high: each line it drives it parks low (40 R100). -/
theorem drv_true_not_mem_attachEvents (l : Line) (wires : BitVec 5) (capable : Bool) :
    Event.drv l true ∉ attachEvents wires capable := by
  simp [attachEvents, whenWired]

/-- From power-on, with all five lines wired: nothing has driven DI, and DO is an input (40 R106). -/
theorem reset_lines_applyAll_attachEvents (capable : Bool) :
    State.reset.lines.applyAll (attachEvents 0b11111#5 capable) =
      { dir := ⟨.out, .out, .out, .out, .inp⟩, lvl := ⟨.x, .low, .low, .low, .x⟩, oem := .dig, duty := .x } := rfl

/-- Settles O16: the line state is that of the events of the first ATTACH, none of which is a rise of CLK or LE (40 R106). -/
theorem attachAllLinesLineState : Obligations.AttachAllLinesLineState := by
  intro n s hn hchain hlines
  have hrange : attachInRange n 0b11111#5 = true := attachInRange_iff.mpr ⟨hn, rfl, rfl⟩
  obtain ⟨t, ht, hran⟩ := exec_attach_first hrange hchain
  have hend := hran.lines
  rw [hlines, reset_lines_applyAll_attachEvents] at hend
  refine ⟨t, ht, ?_⟩
  rw [hend]
  exact ⟨rfl, rfl, rfl, rfl, _, hran.trace, drv_true_not_mem_attachEvents .clk _ _,
    drv_true_not_mem_attachEvents .le _ _⟩

end Sys2Proof.Machine
end

section
/-! SUPPORT. The shift events `SB[b1 ... bn]` of a list of bits (41 R110): the bits on DI, the pulses and the rising edges of
CLK, and the levels they end with. -/

namespace Sys2Proof.Machine

theorem bitsEvents_singleton (b : Bool) : bitsEvents [b] = bitEvents b := List.append_nil _

/-! ### what the events hold -/

theorem dataBits_append (es fs : List Event) : dataBits (es ++ fs) = dataBits es ++ dataBits fs :=
  List.filterMap_append

theorem dataBits_bitEvents (b : Bool) : dataBits (bitEvents b) = [b] := rfl

/-- The bits written on DI are the bits sent, in their order. -/
theorem dataBits_bitsEvents (bs : List Bool) : dataBits (bitsEvents bs) = bs := by
  induction bs with
  | nil => rfl
  | cons b bs ih => rw [bitsEvents_cons, dataBits_append, dataBits_bitEvents, ih, List.singleton_append]

/-- One write of each level on CLK for each bit. -/
theorem count_clk_bitEvents (b v : Bool) : (bitEvents b).count (.drv .clk v) = 1 := by
  cases b <;> cases v <;> decide

/-- As many writes of each level on CLK as there are bits. -/
theorem count_clk_bitsEvents (bs : List Bool) (v : Bool) : (bitsEvents bs).count (.drv .clk v) = bs.length := by
  induction bs with
  | nil => rfl
  | cons b bs ih =>
    rw [bitsEvents_cons, List.count_append, count_clk_bitEvents, ih, List.length_cons, Nat.add_comm]

/-- Shifting writes DI and CLK alone (41 R110). -/
theorem drv_not_mem_bitsEvents {l : Line} (hdi : l ≠ .di) (hclk : l ≠ .clk) (bs : List Bool) (v : Bool) :
    Event.drv l v ∉ bitsEvents bs := by
  simp [bitsEvents, bitEvents, hdi, hclk]

/-! ### what the events do to the lines -/

/-- One bit leaves DI at the bit and CLK low (41 R110). -/
theorem lvl_applyAll_bitEvents (ls : Lines) (b : Bool) :
    (ls.applyAll (bitEvents b)).lvl = { ls.lvl with di := levelOf b, clk := .low } := rfl

theorem risingEdges_append (ls : Lines) (es fs : List Event) :
    risingEdges ls (es ++ fs) = risingEdges ls es + risingEdges (ls.applyAll es) fs := by
  induction es generalizing ls with
  | nil => exact (Nat.zero_add _).symm
  | cons e es ih =>
    rw [List.cons_append, risingEdges, ih, risingEdges, Lines.applyAll_cons, Nat.add_assoc]

/-- From CLK low one bit is one pulse: the write of DI moves no clock, and the write of CLK low is no rise. -/
theorem risingEdges_bitEvents {ls : Lines} (h : ls.lvl.clk = .low) (b : Bool) : risingEdges ls (bitEvents b) = 1 := by
  simp [bitEvents, risingEdges, Lines.apply, Lines.drv, PerLine.set, levelOf, h]

/-- From CLK low each bit is one pulse, since each leaves CLK low for the next. -/
theorem risingEdges_bitsEvents {ls : Lines} (h : ls.lvl.clk = .low) (bs : List Bool) :
    risingEdges ls (bitsEvents bs) = bs.length := by
  induction bs generalizing ls with
  | nil => rfl
  | cons b bs ih =>
    have hnext : (ls.applyAll (bitEvents b)).lvl.clk = .low := congrArg PerLine.clk (lvl_applyAll_bitEvents ls b)
    rw [bitsEvents_cons, risingEdges_append, risingEdges_bitEvents h, ih hnext, List.length_cons, Nat.add_comm]

/-- The last bit sent stays on DI, and CLK stays low (41 R113). -/
theorem lvl_applyAll_bitsEvents {bs : List Bool} {b : Bool} (h : bs.getLast? = some b) (ls : Lines) :
    (ls.applyAll (bitsEvents bs)).lvl.di = levelOf b ∧ (ls.applyAll (bitsEvents bs)).lvl.clk = .low := by
  obtain ⟨front, rfl⟩ := List.getLast?_eq_some_iff.mp h
  rw [bitsEvents_append, Lines.applyAll_append, bitsEvents_singleton, lvl_applyAll_bitEvents]
  exact ⟨rfl, rfl⟩

/-- The last bit sent stays on DI, and CLK stays low, after an operation that shifts bits alone. -/
theorem Does.lvl_of_bits {s t : State} {r : Regs} {bs : List Bool} {b : Bool} (h : Does s (bitsEvents bs) r t)
    (hlast : bs.getLast? = some b) : t.lines.lvl.di = levelOf b ∧ t.lines.lvl.clk = .low := by
  rw [h.lines]
  exact lvl_applyAll_bitsEvents hlast s.lines

/-! ### the bits of a word -/

theorem length_wordBits (w : Word) : (wordBits w).length = 16 := rfl

/-- Bit 15 first and bit 0 last (20 R53). -/
theorem wordBits_getElem? (w : Word) {k : Nat} (hk : k < 16) : (wordBits w)[k]? = some (w.getLsbD (15 - k)) := by
  rw [wordBits, List.getElem?_map, List.getElem?_range hk, Option.map_some]

end Sys2Proof.Machine
end

section
/-! The family 41_shift. -/

namespace Sys2Proof.Machine

/-! ### SHIFT and SEND -/

/-- SHIFT under its guard: the word's events, or a warning (41 R114). -/
theorem exec_shift_ran (w : Word) (s : State) :
    ∃ t, exec (.shift w) s = .next t
      ∧ Ran s (if s.canShift then bitsEvents (wordBits w) else warnEvents s.regs .unwired) s.regs t :=
  exec_ran (i := .shift w) rfl s

/-- SEND under its guard: the word's events and a latch if LE is wired, or a warning (41 R115). -/
theorem exec_send_ran (w : Word) (s : State) :
    ∃ t, exec (.send w) s = .next t
      ∧ Ran s (if s.canShift then bitsEvents (wordBits w) ++ whenWired (s.isWired .le) latchEvents
          else warnEvents s.regs .unwired) s.regs t :=
  exec_ran (i := .send w) rfl s

/-- Settles O18: SHIFT emits the word's shift events and writes no register (41 R114). -/
theorem shiftFollowsItsRule : Obligations.ShiftFollowsItsRule :=
  ⟨encodedAs_readRow (.shift 0#16), exec_shift_ran⟩

/-- Settles O19: SEND is SHIFT and a latch if LE is wired (41 R115). -/
theorem sendFollowsItsRule : Obligations.SendFollowsItsRule :=
  ⟨encodedAs_readRow (.send 0#16), exec_send_ran⟩

/-- On a block that can shift, SHIFT emits the word's events alone. -/
theorem exec_shift_of_canShift {s : State} (hc : s.canShift = true) (w : Word) :
    ∃ t, exec (.shift w) s = .next t ∧ t.trace = s.trace ++ bitsEvents (wordBits w) := by
  obtain ⟨t, ht, hran⟩ := exec_shift_ran w s
  rw [if_pos hc] at hran
  exact ⟨t, ht, hran.trace⟩

/-- In 2-wire mode SEND emits the word's events alone (41 R119). -/
theorem exec_send_of_le_absent {s : State} (hc : s.canShift = true) (hle : s.isWired .le = false) (w : Word) :
    ∃ t, exec (.send w) s = .next t ∧ t.trace = s.trace ++ bitsEvents (wordBits w) := by
  obtain ⟨t, ht, hran⟩ := exec_send_ran w s
  rw [if_pos hc, hle] at hran
  exact ⟨t, ht, hran.trace.trans (by rw [whenWired, if_neg Bool.false_ne_true, List.append_nil])⟩

/-- Settles O23: SHIFT, and SEND in 2-wire mode, emit the events of the word's 16 bits, one clock pulse for each (41 R119). -/
theorem shiftIsMsbFirst : Obligations.ShiftIsMsbFirst := by
  intro w s hc hclk
  have hedges : risingEdges s.lines (bitsEvents (wordBits w)) = 16 := risingEdges_bitsEvents hclk (wordBits w)
  constructor
  · obtain ⟨t, ht, htrace⟩ := exec_shift_of_canShift hc w
    refine ⟨t, _, ht, htrace, hedges, count_clk_bitsEvents _ true, count_clk_bitsEvents _ false, ?_⟩
    rw [dataBits_bitsEvents]
    exact ⟨length_wordBits w, fun k hk => wordBits_getElem? w hk⟩
  · intro hle
    obtain ⟨t, ht, htrace⟩ := exec_send_of_le_absent hc hle w
    exact ⟨t, _, ht, htrace, hedges, dataBits_bitsEvents _, drv_not_mem_bitsEvents (l := .le) nofun nofun _⟩

/-! ### ALL -/

/-- Settles O20: ALL shifts the fill word once per chip and latches once (41 R116). -/
theorem allFollowsItsRule : Obligations.AllFollowsItsRule :=
  ⟨encodedAs_readRow (.all false), fun level s => exec_ran (i := .all level) rfl s⟩

/-! ### SEND_BITS -/

section
variable {count : BitVec 5}

theorem countInRange_iff : countInRange count = true ↔ 1 ≤ count.toNat ∧ count.toNat ≤ 16 := by
  simp [countInRange]

/-- `COUNT` 0 or above 16 is out of range (30 R79). -/
theorem sendBits_wellFormed_eq_false (h : count.toNat = 0 ∨ 16 < count.toNat) (delay : BitVec 16) (bits : Word) :
    (Instr.sendBits count delay bits).wellFormed = false := by
  have hrange : ¬ countInRange count = true := fun hc => by
    have := countInRange_iff.mp hc
    omega
  exact Bool.eq_false_of_not_eq_true hrange

/-- SEND_BITS in range under its guard: its events, or a warning (41 R117). -/
theorem exec_sendBits_ran (h : 1 ≤ count.toNat ∧ count.toNat ≤ 16) (delay : BitVec 16) (bits : Word) (s : State) :
    ∃ t, exec (.sendBits count delay bits) s = .next t
      ∧ Ran s (if s.canShift then sendBitsEvents s.regs count.toNat delay bits else warnEvents s.regs .unwired)
          s.regs t := by
  have hrange := countInRange_iff.mpr h
  obtain ⟨t, ht, hran⟩ := exec_ran (i := .sendBits count delay bits) hrange s
  simp only [commandEvents, commandRegs, if_pos hrange] at hran
  exact ⟨t, ht, hran⟩

end

/-- Settles O21: SEND_BITS in range sends its bits with their latches and waits; out of range it faults (41 R117). -/
theorem sendBitsFollowsItsRule : Obligations.SendBitsFollowsItsRule :=
  ⟨encodedAs_readRow (.sendBits 0#5 0#16 0#16), fun _ delay bits s =>
    ⟨fun h => exec_sendBits_ran h delay bits s,
      fun h => exec_of_not_wellFormed (sendBits_wellFormed_eq_false h delay bits) s⟩⟩

/-! ### the data line -/

/-- Settles O24: a word ends with its bit 0, a byte with bit 0 or bit 7 by its order, and the last bit stays on DI
(41 R113). -/
theorem dataLineHoldsTheLastBit : Obligations.DataLineHoldsTheLastBit := by
  intro w v s
  have hstart := Does.start s
  obtain ⟨hword, hwordClk⟩ := (hstart.shiftWord w).lvl_of_bits (b := w.getLsbD 0) rfl
  obtain ⟨hmsb, hmsbClk⟩ := (hstart.shiftByteMsb v).lvl_of_bits (b := v.getLsbD 0) rfl
  obtain ⟨hlsb, hlsbClk⟩ := (hstart.shiftByteLsb v).lvl_of_bits (b := v.getLsbD 7) rfl
  exact ⟨hword, hwordClk, hmsb, hmsbClk, hlsb, hlsbClk⟩

end Sys2Proof.Machine
end

section
/-! The family 42_latch. -/

namespace Sys2Proof.Machine

/-- A latch pulse leaves LE low and no other level changed (42 R130). -/
theorem lvl_applyAll_latchEvents (ls : Lines) : (ls.applyAll latchEvents).lvl = { ls.lvl with le := .low } := rfl

/-- LATCH under its guard: one latch pulse, or a warning; only LE is consulted (42 R131). -/
theorem exec_latch_ran (s : State) :
    ∃ t, exec .latch s = .next t
      ∧ Ran s (if s.isWired .le then latchEvents else warnEvents s.regs .unwired) s.regs t :=
  exec_ran (i := .latch) rfl s

/-- Settles O25: LATCH is one pulse, which ends with LE low, or a warning (42 R131). -/
theorem latchFollowsItsRule : Obligations.LatchFollowsItsRule := by
  refine ⟨encodedAs_readRow .latch, fun s => ?_⟩
  obtain ⟨t, ht, hran⟩ := exec_latch_ran s
  refine ⟨t, ht, hran, fun hle => ?_⟩
  rw [hran.lines, if_pos hle, lvl_applyAll_latchEvents]

end Sys2Proof.Machine
end

section
/-! The family 43_mode. -/

namespace Sys2Proof.Machine

/-! ### the events of a mode switch -/

/-- A table ends with the clock low, whatever its frames: the forced `DRV(CLK, 0)` is its last event (43 R145, R150). -/
theorem clk_applyAll_playEvents (ls : Lines) (ws : WaveTables) (T : Table) :
    (ls.applyAll (playEvents ws T)).lvl.clk = .low := by
  rw [playEvents, Lines.applyAll_append]
  rfl

/-- A mode switch ends as its target table does. -/
theorem clk_applyAll_switchEvents (ls : Lines) (ws : WaveTables) (T : Table) :
    (ls.applyAll (switchEvents ws T)).lvl.clk = .low := by
  rw [switchEvents, Lines.applyAll_append, clk_applyAll_playEvents]

/-- Settles O26: the transition table, then the target, each ending with the clock low; `MODE` alone is written (43 R146,
R150). -/
theorem switchModePlaysTransitionFirst : Obligations.SwitchModePlaysTransitionFirst := by
  intro T s
  have hplay := (Does.start s).play T
  have hswitch := (Does.start s).switchMode T
  refine ⟨?_, hplay.trace, ?_, ?_, hswitch.lines, ?_⟩
  · rw [hplay.lines]
    exact clk_applyAll_playEvents _ _ T
  · rw [hswitch.lines]
    exact clk_applyAll_switchEvents _ _ T
  · rw [hswitch.trace, List.append_assoc]
    rfl
  · rw [hswitch.regs]
    cases T <;> rfl

/-! ### NORMAL -/

/-- With LE and OE wired NORMAL plays its tables and records Normal, whatever `MODE` holds (43 R148). -/
theorem exec_normal_ran {s : State} (hs : s.regs.canSwitch = true) :
    ∃ t, exec .normal s = .next t ∧ Ran s (switchEvents s.par.tables .normal) { s.regs with mode := .normal } t := by
  obtain ⟨t, ht, hran⟩ := exec_ran (i := .normal) rfl s
  simp only [commandEvents, commandRegs, if_pos hs, Regs.recordNormal_of_canSwitch hs] at hran
  exact ⟨t, ht, hran⟩

/-- With LE or OE absent NORMAL only warns (43 R147). -/
theorem exec_normal_absent {s : State} (hs : s.regs.canSwitch = false) :
    ∃ t, exec .normal s = .next t ∧ Ran s (warnEvents s.regs .unwired) s.regs t := by
  obtain ⟨t, ht, hran⟩ := exec_ran (i := .normal) rfl s
  simp only [commandEvents, commandRegs, hs, Bool.false_eq_true, if_false, Regs.recordNormal_of_not_canSwitch hs] at hran
  exact ⟨t, ht, hran⟩

/-- The last frame of the default Normal table leaves OE at 1 (43 R141). -/
theorem oe_applyAll_switchEvents_standard (ls : Lines) :
    (ls.applyAll (switchEvents standardTables .normal)).lvl.oe = .high := rfl

/-- Settles O27: NORMAL switches to Normal, or only warns; the default tables give its 12 events (43 R148). -/
theorem normalFollowsItsRule : Obligations.NormalFollowsItsRule := by
  refine ⟨encodedAs_readRow .normal, fun s => ⟨fun hs => ?_, exec_normal_absent⟩⟩
  obtain ⟨t, ht, hran⟩ := exec_normal_ran hs
  refine ⟨t, ht, hran, fun hstandard => ⟨?_, ?_⟩⟩
  · rw [hran.lines, hstandard, oe_applyAll_switchEvents_standard]
  · rw [hran.trace, hstandard]
    rfl

/-! ### `MODE` after each command -/

/-- The value of `MODE` a command leaves (43 R151). -/
def commandMode (r : Regs) : Instr → Mode
  | .normal | .config _ _ _ | .reset => if r.canSwitch then .normal else r.mode
  | .errorDetect => if r.canRead then .normal else r.mode
  | _ => r.mode

theorem commandRegs_mode (r : Regs) (i : Instr) : (commandRegs r i).mode = commandMode r i := by
  cases i with
  | attach n wires =>
    simp only [commandRegs]
    split
    · split <;> rfl
    · rfl
  | sendBits count delay bits => simp only [commandRegs]; split <;> rfl
  | errorDetect => exact apply_ite Regs.mode (r.canRead = true) r.afterRead { r with result := 0x0000#16 }
  | _ => rfl

theorem exec_mode {i : Instr} {s t : State} (h : exec i s = .next t) : t.mode = commandMode s.regs i :=
  (congrArg Regs.mode (exec_does h).regs).trans (commandRegs_mode s.regs i)

/-- A command leaves `MODE` at Normal or as it was: the other modes last only within a command (43 R151). -/
theorem commandMode_eq_normal_or_self (r : Regs) (i : Instr) : commandMode r i = .normal ∨ commandMode r i = r.mode := by
  cases i with
  | normal | config | reset | errorDetect => exact ite_eq_or_eq _ _ _
  | _ => exact .inr rfl

/-- Settles O28: the table of `MODE` after each command, and so only Unknown or Normal between commands (43 R151). -/
theorem modeTransitionTable : Obligations.ModeTransitionTable := by
  refine ⟨rfl, fun i s t h => ⟨?_, fun hmode => ?_⟩⟩
  · rw [exec_mode h]
    cases i <;> rfl
  · rw [exec_mode h]
    obtain hnormal | hself := commandMode_eq_normal_or_self s.regs i
    · exact .inr hnormal
    · rw [hself]
      exact hmode

end Sys2Proof.Machine
end

section
/-! SUPPORT. Clock pulses: lists of events that, from CLK low, raise CLK a fixed number of times and leave it low (00 R14).
The counts of consecutive lists add up. -/

namespace Sys2Proof.Machine

/-- From CLK low the events have `n` rising edges of CLK, and they end with CLK low. -/
def Pulses (n : Nat) (es : List Event) : Prop :=
  ∀ ls : Lines, ls.lvl.clk = .low → risingEdges ls es = n ∧ (ls.applyAll es).lvl.clk = .low

section
variable {m n : Nat} {es fs : List Event}

theorem Pulses.nil : Pulses 0 [] := fun _ h => ⟨rfl, h⟩

theorem Pulses.append (he : Pulses m es) (hf : Pulses n fs) : Pulses (m + n) (es ++ fs) := by
  intro ls hlow
  obtain ⟨hm, hmid⟩ := he ls hlow
  obtain ⟨hn, hend⟩ := hf _ hmid
  rw [risingEdges_append, hm, hn, Lines.applyAll_append]
  exact ⟨rfl, hend⟩

/-- An event that leaves the level of CLK is no pulse. -/
theorem Pulses.still {e : Event} (h : ∀ ls : Lines, (ls.apply e).lvl.clk = ls.lvl.clk) : Pulses 0 [e] := by
  intro ls hlow
  have hafter : (ls.apply e).lvl.clk = .low := (h ls).trans hlow
  refine ⟨?_, hafter⟩
  simp [risingEdges, hafter]

/-- Making DO an output moves no clock. -/
theorem Pulses.dirOut_dout : Pulses 0 [.dirOut .dout] := by
  refine .still fun ls => ?_
  rw [Lines.apply, Lines.dirOut]
  split <;> rfl

/-- Lists of one pulse for each element of a list. -/
theorem Pulses.flatMap {α : Type} {g : α → List Event} (h : ∀ a, Pulses 1 (g a)) (as : List α) :
    Pulses as.length (as.flatMap g) := by
  induction as with
  | nil => exact .nil
  | cons a as ih =>
    rw [List.flatMap_cons, List.length_cons, Nat.add_comm]
    exact (h a).append ih

end

/-- Each bit shifted is one pulse (41 R110). -/
theorem Pulses.bits (bs : List Bool) : Pulses bs.length (bitsEvents bs) :=
  .flatMap (fun b ls hlow => ⟨risingEdges_bitEvents hlow b, congrArg PerLine.clk (lvl_applyAll_bitEvents ls b)⟩) bs

/-- Each sample read is followed by one pulse (44 R165). -/
theorem Pulses.read (samples : List Bool) : Pulses samples.length (readEvents samples) := by
  refine .flatMap (fun b ls hlow => ⟨?_, rfl⟩) samples
  simp [risingEdges, Lines.apply, Lines.drv, PerLine.set, levelOf, hlow]

theorem Pulses.latch : Pulses 0 latchEvents := Pulses.append (.still fun _ => rfl) (.still fun _ => rfl)

/-- The preload is the 16 pulses of its word (44 R161, 45 R187). -/
theorem Pulses.preload : Pulses 16 preloadEvents := Pulses.append (.bits (List.replicate 16 true)) .latch

/-- The rising edges of CLK in a default table (43 R140 to R144). -/
def Table.standardPulses : Table → Nat
  | .trans => 3
  | .normal => 2
  | .cfg => 2
  | .ed => 3
  | .rr => 1

theorem clk_apply_drv_clk (ls : Lines) (v : Bool) : (ls.apply (.drv .clk v)).lvl.clk = levelOf v := rfl

theorem clk_apply_frm (ls : Lines) (f : Frame) : (ls.apply (.frm f)).lvl.clk = levelOf f.clk := rfl

theorem Pulses.play_standard (T : Table) : Pulses T.standardPulses (playEvents standardTables T) := by
  intro ls hlow
  refine ⟨?_, clk_applyAll_playEvents ls standardTables T⟩
  cases T <;>
    simp [Table.standardPulses, playEvents, WaveTables.frames, standardTables, frame, risingEdges, clk_apply_frm,
      clk_apply_drv_clk, levelOf, hlow]

theorem Pulses.switch_standard (T : Table) : Pulses (3 + T.standardPulses) (switchEvents standardTables T) :=
  (Pulses.play_standard .trans).append (.play_standard T)

end Sys2Proof.Machine
end

section
/-! The family 44_error_detect. -/

namespace Sys2Proof.Machine

/-! ### the two outcomes of ERROR_DETECT -/

theorem canRead_regs_iff {s : State} :
    s.regs.canRead = true ↔ s.isWired .le = true ∧ s.isWired .oe = true ∧ s.isWired .dout = true := by
  rw [Regs.canRead_iff, Regs.canSwitch_iff, and_assoc]
  exact Iff.rfl

/-- With LE, OE and DO wired ERROR_DETECT emits its steps, and `RESULT` is the readback word (44 R160). -/
theorem exec_errorDetect_ran {s : State} (hr : s.regs.canRead = true) :
    ∃ t, exec .errorDetect s = .next t ∧ Ran s (errorDetectEvents s.regs) s.regs.afterRead t := by
  obtain ⟨t, ht, hran⟩ := exec_ran (i := .errorDetect) rfl s
  simp only [commandEvents, commandRegs, if_pos hr] at hran
  exact ⟨t, ht, hran⟩

/-- With LE, OE or DO absent ERROR_DETECT warns, and `RESULT` becomes 0 (44 R160, R169). -/
theorem exec_errorDetect_absent {s : State} (hr : ¬ s.regs.canRead = true) :
    ∃ t, exec .errorDetect s = .next t
      ∧ Ran s (warnEvents s.regs .unwired) { s.regs with result := 0x0000#16 } t := by
  obtain ⟨t, ht, hran⟩ := exec_ran (i := .errorDetect) rfl s
  simp only [commandEvents, commandRegs, if_neg hr] at hran
  exact ⟨t, ht, hran⟩

/-! ### the events counted -/

theorem length_nextSamples (r : Regs) : r.nextSamples.length = 16 := by
  rw [Regs.nextSamples, List.length_map, List.length_range]

theorem length_readEvents (samples : List Bool) : (readEvents samples).length = samples.length * 3 := by
  simp [readEvents]

section
variable {r : Regs}

/-- With the default tables, the preload's 50 events, 14 of the switch, 1 wait, 3 of the readback-ready table, 2 and 1 of DO
and DI, 48 of the readback and 12 of the switch back (44 R160). -/
theorem length_errorDetectEvents_standard (h : r.par.tables = standardTables) :
    (errorDetectEvents r).length = 131 := by
  simp only [errorDetectEvents, List.length_append, length_readEvents, length_nextSamples, h]
  rfl

/-- With the default tables, 16 pulses of the preload, 6 of the switch, 1 of the readback-ready table, 16 of the readback
and 5 of the switch back (44 R160). -/
theorem Pulses.errorDetect_standard (h : r.par.tables = standardTables) : Pulses 44 (errorDetectEvents r) := by
  have hswitch : Pulses 22 (preloadEvents ++ switchEvents standardTables .ed) := Pulses.preload.append (.switch_standard .ed)
  have hready : Pulses 23 (preloadEvents ++ switchEvents standardTables .ed ++ [.us (settleUs r.par)]
      ++ playEvents standardTables .rr ++ [.dirIn .dout, .drv .di false]) :=
    ((hswitch.append (.still fun _ => rfl)).append (.play_standard .rr)).append
      (Pulses.append (.still fun _ => rfl) (.still fun _ => rfl))
  have hread := hready.append (.read r.nextSamples)
  rw [length_nextSamples] at hread
  rw [errorDetectEvents, h]
  exact (hread.append .dirOut_dout).append (.switch_standard .normal)

end

/-- Settles O31: ERROR_DETECT emits its steps and leaves the readback word in `RESULT`, or it warns and `RESULT` is 0
(44 R160). -/
theorem errorDetectFollowsItsRule : Obligations.ErrorDetectFollowsItsRule := by
  refine ⟨encodedAs_readRow .errorDetect, fun s => ⟨fun hwired => ?_, fun habsent => ?_⟩⟩
  · obtain ⟨t, ht, hran⟩ := exec_errorDetect_ran (canRead_regs_iff.mpr hwired)
    exact ⟨t, ht, hran, fun htables => ⟨length_errorDetectEvents_standard htables, fun hclk =>
      (Pulses.errorDetect_standard htables s.lines hclk).1⟩⟩
  · exact exec_errorDetect_absent fun hr => habsent (canRead_regs_iff.mp hr)

/-! ### the readback word -/

theorem accStep_getLsbD_zero (acc : Word) (b : Bool) : (accStep acc b).getLsbD 0 = b := by
  simp [accStep]

/-- A new sample moves each bit one place up. -/
theorem accStep_getLsbD_succ (acc : Word) (b : Bool) {j : Nat} (hj : j + 1 < 16) :
    (accStep acc b).getLsbD (j + 1) = acc.getLsbD j := by
  simp [accStep, hj, BitVec.getLsbD_eq_getElem (Nat.lt_of_succ_lt hj)]

/-- Bit `j` of the readback word is sample `j` counted from the last one taken (44 R165). -/
theorem readbackWord_getLsbD (samples : List Bool) {j : Nat} (hj : j < 16) (hlen : j < samples.length) :
    some ((readbackWord samples).getLsbD j) = samples.reverse[j]? := by
  induction samples using List.reverseRecOn generalizing j with
  | nil => exact absurd hlen (Nat.not_lt_zero j)
  | append_singleton samples b ih =>
    have hlast : readbackWord (samples ++ [b]) = accStep (readbackWord samples) b := List.foldl_append
    rw [hlast, List.reverse_concat]
    cases j with
    | zero => rw [accStep_getLsbD_zero, List.getElem?_cons_zero]
    | succ j =>
      rw [List.length_append, List.length_singleton] at hlen
      rw [accStep_getLsbD_succ _ _ hj, List.getElem?_cons_succ, ih (by omega) (by omega)]

/-- The 16 samples fill the word from the top: sample `k` is bit `15 - k` (44 R165). -/
theorem readbackWord_nextSamples_getLsbD (r : Regs) {k : Nat} (hk : k < 16) :
    (readbackWord r.nextSamples).getLsbD (15 - k) = r.sampleAt k := by
  have hlen : 15 - k < r.nextSamples.length := by rw [length_nextSamples]; omega
  have hindex : r.nextSamples.length - 1 - (15 - k) = k := by rw [length_nextSamples]; omega
  apply Option.some.inj
  rw [readbackWord_getLsbD r.nextSamples (by omega) hlen, List.getElem?_reverse hlen, hindex, Regs.nextSamples,
    List.getElem?_map, List.getElem?_range hk, Option.map_some]

/-! ### the micro-sequencer in the readback -/

theorem readIteration_bidx {k : Nat} (hk : k < 16) (s : State) : (readIteration k s).bidx.toNat = k := by
  have hbidx : (readIteration k s).bidx = BitVec.ofNat 4 k := rfl
  rw [hbidx, BitVec.toNat_ofNat, Nat.mod_eq_of_lt hk]

theorem readIteration_phase (k : Nat) (s : State) : (readIteration k s).phase = s.phase := rfl

theorem readLoop_phase (k n : Nat) (s : State) : (readLoop k n s).phase = s.phase := by
  induction n generalizing k s with
  | zero => rfl
  | succ n ih => rw [readLoop, ih, readIteration_phase]

@[simp] theorem State.dropBidx_phase (s : State) : s.dropBidx.phase = s.phase := rfl

/-- The readback enters `PH_READ` and stays in it (10 R33). -/
theorem readback_phase (s : State) : (readback s).phase = .read := by
  rw [readback, State.dropBidx_phase, readLoop_phase, State.enter_phase]

/-- ERROR_DETECT's events with the readback in their midst (44 R160). -/
theorem errorDetectEvents_eq_append_readEvents (r : Regs) :
    ∃ pre post, errorDetectEvents r = pre ++ readEvents r.nextSamples ++ post :=
  ⟨preloadEvents ++ switchEvents r.par.tables .ed ++ [.us (settleUs r.par)] ++ playEvents r.par.tables .rr
    ++ [.dirIn .dout, .drv .di false], [.dirOut .dout] ++ switchEvents r.par.tables .normal,
    by rw [errorDetectEvents, List.append_assoc]⟩

/-- Settles O32: the readback word takes sample 0 at its top bit and one sample before each clock pulse (44 R165). -/
theorem firstSampleIsTheTopBit : Obligations.FirstSampleIsTheTopBit := by
  intro s hle hoe hdout
  obtain ⟨t, ht, hran⟩ := exec_errorDetect_ran (canRead_regs_iff.mpr ⟨hle, hoe, hdout⟩)
  have hresult : t.result = readbackWord s.regs.nextSamples := congrArg Regs.result hran.regs
  refine ⟨t, ht, fun k hk => ?_, ?_, fun k u hk => ⟨readIteration_bidx hk u, readIteration_phase k u⟩, readback_phase,
    hran.phase⟩
  · rw [hresult]
    exact readbackWord_nextSamples_getLsbD s.regs hk
  · obtain ⟨pre, post, hevents⟩ := errorDetectEvents_eq_append_readEvents s.regs
    have hsamples : s.regs.nextSamples = (List.range 16).map s.sampleAt := rfl
    refine ⟨pre, post, ?_⟩
    rw [hran.trace, hevents, hsamples, ← List.append_assoc, ← List.append_assoc]

end Sys2Proof.Machine
end

section
/-! The family 45_config. -/

namespace Sys2Proof.Machine

/-! ### the packed byte -/

theorem truthy_eq_decide (b : Byte) : truthy b = decide (b ≠ 0#8) := by
  rw [truthy, bne_eq, decide_not, beq_eq_decide]

/-- Two single bits above six: the top bits are bits 7 and 6 of the byte (45 R182). -/
theorem ofBool_append_ofBool_append (c b : Bool) (g : BitVec 6) :
    BitVec.ofBool c ++ BitVec.ofBool b ++ g
      = g.setWidth 8 ||| (if c then 0x80#8 else 0#8) ||| (if b then 0x40#8 else 0#8) := by
  revert c b g
  decide

/-- The packer as one union of the gain's low six bits, bit 7 and bit 6 (45 R182). -/
theorem pack_eq_or (cur band gain : Byte) :
    pack cur band gain = (gain.extractLsb' 0 6).setWidth 8 ||| (if truthy cur then 0x80#8 else 0#8)
      ||| (if truthy band then 0x40#8 else 0#8) := by
  cases hcur : truthy cur <;> cases hband : truthy band <;> simp [pack, hcur, hband]

/-- Settles O37: the packed byte is the current bit, the band bit and the low six gain bits (45 R182). -/
theorem packedByteIsItsFields : Obligations.PackedByteIsItsFields := by
  intro cur band gain
  rw [pack_eq_or, ← ofBool_append_ofBool_append, truthy_eq_decide, truthy_eq_decide]

/-! ### the two outcomes of CONFIG -/

section
variable {s : State}

/-- With LE and OE wired CONFIG emits its five steps and records Normal (45 R180). -/
theorem exec_config_ran (hs : s.regs.canSwitch = true) (cur band gain : Byte) :
    ∃ t, exec (.config cur band gain) s = .next t
      ∧ Ran s (configEvents s.regs cur band gain) { s.regs with mode := .normal } t := by
  obtain ⟨t, ht, hran⟩ := exec_ran (i := .config cur band gain) rfl s
  simp only [commandEvents, commandRegs, if_pos hs, Regs.recordNormal_of_canSwitch hs] at hran
  exact ⟨t, ht, hran⟩

/-- With LE or OE absent CONFIG only warns (45 R180). -/
theorem exec_config_absent (hs : s.regs.canSwitch = false) (cur band gain : Byte) :
    ∃ t, exec (.config cur band gain) s = .next t ∧ Ran s (warnEvents s.regs .unwired) s.regs t := by
  obtain ⟨t, ht, hran⟩ := exec_ran (i := .config cur band gain) rfl s
  simp only [commandEvents, commandRegs, hs, Bool.false_eq_true, if_false, Regs.recordNormal_of_not_canSwitch hs] at hran
  exact ⟨t, ht, hran⟩

end

/-! ### the events counted -/

/-- The payload is the zero byte and the packed byte (45 R180). -/
theorem length_payloadBits (p : Byte) : (payloadBits p).length = 16 := rfl

theorem length_bitsEvents (bs : List Bool) : (bitsEvents bs).length = bs.length * 3 := by
  simp [bitsEvents, bitEvents]

section
variable {r : Regs}

/-- With the default tables, the preload's 50 events, 12 of the switch, 48 of the payload, 2 of the commit and 12 of the
switch back (45 R180). -/
theorem length_configEvents_standard (h : r.par.tables = standardTables) (cur band gain : Byte) :
    (configEvents r cur band gain).length = 124 := by
  simp only [configEvents, List.length_append, length_bitsEvents, length_payloadBits, h]
  rfl

/-- With the default tables, 16 pulses of the preload, 5 of the switch, 16 of the payload and 5 of the switch back; the
commit moves no clock (45 R180). -/
theorem Pulses.config_standard (h : r.par.tables = standardTables) (cur band gain : Byte) :
    Pulses 42 (configEvents r cur band gain) := by
  rw [configEvents, h]
  have hswitch : Pulses 21 (preloadEvents ++ switchEvents standardTables .cfg) := Pulses.preload.append (.switch_standard .cfg)
  have hpayload := hswitch.append (.bits (payloadBits (pack cur band gain)))
  rw [length_payloadBits] at hpayload
  exact (hpayload.append .latch).append (.switch_standard .normal)

end

/-- Settles O36: CONFIG emits its five steps and records Normal, or it only warns; the default tables give its 124 events
and 42 rising edges (45 R180). -/
theorem configFollowsItsRule : Obligations.ConfigFollowsItsRule := by
  refine ⟨encodedAs_readRow (.config 0#8 0#8 0#8), fun cur band gain s =>
    ⟨fun hs => ?_, fun hs => exec_config_absent hs cur band gain⟩⟩
  obtain ⟨t, ht, hran⟩ := exec_config_ran hs cur band gain
  exact ⟨t, ht, hran, fun htables => ⟨length_configEvents_standard htables cur band gain, fun hclk =>
    (Pulses.config_standard htables cur band gain s.lines hclk).1⟩⟩

end Sys2Proof.Machine
end

section
/-! The family 46_power. -/

namespace Sys2Proof.Machine

/-! ### OE as a plain output at a level -/

/-- OE is a plain digital output at the level of `v`, and carries no duty cycle (10 R29, 46 R194). -/
structure Lines.OeDriven (ls : Lines) (v : Bool) : Prop where
  oem : ls.oem = .dig
  level : ls.lvl.oe = levelOf v

theorem Lines.OeDriven.drv_oe (ls : Lines) (v : Bool) : (ls.apply (.drv .oe v)).OeDriven v := ⟨rfl, rfl⟩

theorem Lines.OeDriven.frm (ls : Lines) (f : Frame) : (ls.apply (.frm f)).OeDriven f.oe := ⟨rfl, rfl⟩

section
variable {ls : Lines} {v : Bool} {r : Regs}

theorem Lines.OeDriven.drv_clk (h : ls.OeDriven v) (b : Bool) : (ls.apply (.drv .clk b)).OeDriven v := ⟨h.oem, h.level⟩

theorem Lines.OeDriven.ms (h : ls.OeDriven v) (n : Nat) : (ls.apply (.ms n)).OeDriven v := ⟨h.oem, h.level⟩

/-- The drive comes last, whether or not the direction event comes before it (46 R190, R191). -/
theorem Lines.OeDriven.oeEvents (hoe : r.isWired .oe = true) (ls : Lines) (v : Bool) :
    (ls.applyAll (oeEvents r v)).OeDriven v := by
  rw [Machine.oeEvents, if_pos hoe]
  split
  · exact .drv_oe (ls.apply (.dirOut .oe)) v
  · exact .drv_oe ls v

/-! ### OE after a mode switch -/

/-- A table that has frames leaves OE at the level of its last one: the forced `DRV(CLK, 0)` does not reach OE. -/
theorem Lines.OeDriven.playEvents {ws : WaveTables} {T : Table} {f : Frame} (hf : (ws.frames T).getLast? = some f)
    (ls : Lines) : (ls.applyAll (playEvents ws T)).OeDriven f.oe := by
  obtain ⟨before, hframes⟩ := List.getLast?_eq_some_iff.mp hf
  rw [Machine.playEvents, hframes, List.map_append, Lines.applyAll_append, Lines.applyAll_append]
  exact (Lines.OeDriven.frm _ f).drv_clk false

/-- A table without frames leaves OE as it finds it. -/
theorem Lines.OeDriven.playEvents_of_no_frame {ws : WaveTables} {T : Table} (h : ls.OeDriven v)
    (hnone : ws.frames T = []) : (ls.applyAll (Machine.playEvents ws T)).OeDriven v := by
  rw [Machine.playEvents, hnone]
  exact h.drv_clk false

/-- The last frame of a mode switch is its target table's, or the transition table's when the target has none. -/
theorem Lines.OeDriven.switchEvents {ws : WaveTables} {T : Table} {f : Frame}
    (hf : (ws.trans ++ ws.frames T).getLast? = some f) (ls : Lines) :
    (ls.applyAll (switchEvents ws T)).OeDriven f.oe := by
  rw [Machine.switchEvents, Lines.applyAll_append]
  rw [List.getLast?_append, Option.or_eq_some_iff] at hf
  obtain htarget | ⟨hnone, htrans⟩ := hf
  · exact .playEvents htarget _
  · exact (Lines.OeDriven.playEvents (T := .trans) htrans ls).playEvents_of_no_frame (List.getLast?_eq_none_iff.mp hnone)

/-! ### OE after the commands that drive it -/

/-- FLASH ends with OE low when `LEAVE_ON`, and high otherwise: the last bracket does not reach OE (47 R201). -/
theorem Lines.OeDriven.flashEvents (hoe : r.isWired .oe = true) (leaveOn : Bool) (bracket : BitVec 16)
    (onMs : BitVec 32) (ls : Lines) : (ls.applyAll (flashEvents r leaveOn bracket onMs)).OeDriven (!leaveOn) := by
  simp only [Machine.flashEvents, Lines.applyAll_append]
  cases leaveOn with
  | true => exact .oeEvents hoe _ false
  | false => exact (Lines.OeDriven.oeEvents hoe _ true).ms bracket.toNat

/-- RESET ends with ON (47 R200, R204). -/
theorem Lines.OeDriven.resetEvents (hoe : r.isWired .oe = true) (m : OeMode) (ls : Lines) :
    (ls.applyAll (resetEvents r m)).OeDriven false := by
  rw [Machine.resetEvents, Lines.applyAll_append, hoe]
  exact .oeEvents hoe _ false

/-- NORMAL, CONFIG and ERROR_DETECT end with the switch to Normal mode when their lines are wired (43 R148, 44 R160,
45 R180). -/
theorem commandEvents_ends_switch_normal {i : Instr} (hs : r.canSwitch = true) (m : OeMode)
    (hi : i = .normal ∨ (∃ cur band gain, i = .config cur band gain) ∨ (i = .errorDetect ∧ r.isWired .dout = true)) :
    ∃ before, commandEvents r m i = before ++ switchEvents r.par.tables .normal := by
  obtain rfl | ⟨cur, band, gain, rfl⟩ | ⟨rfl, hdo⟩ := hi
  · exact ⟨[], if_pos hs⟩
  · exact ⟨_, if_pos hs⟩
  · exact ⟨_, if_pos (Regs.canRead_iff.mpr ⟨hs, hdo⟩)⟩

end

/-- Settles O42: each of these commands drives OE last, with `DRV` or with a frame, and so ends duty-cycle mode (46 R194,
70 R252). -/
theorem drivingOeEndsPwmMode : Obligations.DrivingOeEndsPwmMode := by
  refine ⟨fun ls v f => ⟨(Lines.OeDriven.drv_oe ls v).oem, (Lines.OeDriven.frm ls f).oem⟩, ?_, ?_, ?_⟩
  · intro i s t (hoe : s.regs.isWired .oe = true) hexec hi
    rw [(exec_does hexec).lines]
    obtain rfl | rfl | rfl | ⟨leaveOn, bracket, onMs, rfl⟩ := hi
    · exact (Lines.OeDriven.oeEvents hoe s.lines false).oem
    · exact (Lines.OeDriven.oeEvents hoe s.lines true).oem
    · exact (Lines.OeDriven.resetEvents hoe s.lines.oem s.lines).oem
    · exact (Lines.OeDriven.flashEvents hoe leaveOn bracket onMs s.lines).oem
  · intro i s t (hoe : s.regs.isWired .oe = true) (hle : s.regs.isWired .le = true) hexec hi f hf
    obtain ⟨before, hevents⟩ := commandEvents_ends_switch_normal (Regs.canSwitch_iff.mpr ⟨hle, hoe⟩) s.lines.oem hi
    rw [(exec_does hexec).lines, hevents, Lines.applyAll_append]
    have hend := Lines.OeDriven.switchEvents (T := .normal) hf (s.lines.applyAll before)
    exact ⟨hend.oem, hend.level⟩
  · exact fun s v hoe hcap => (if_pos hoe).trans (if_pos hcap)

/-! ### duty-cycle writes -/

theorem Event.isPwm_iff {e : Event} : e.isPwm = true ↔ ∃ d, e = .pwm d := by
  cases e <;> simp [Event.isPwm]

@[simp] theorem mem_whenWired {e : Event} {c : Bool} {es : List Event} : e ∈ whenWired c es ↔ c = true ∧ e ∈ es := by
  cases c <;> simp [whenWired]

section
variable {d : Byte}

@[simp] theorem pwm_not_mem_warnEvents (r : Regs) (w : Warning) : .pwm d ∉ warnEvents r w := by
  simp [warnEvents]

@[simp] theorem pwm_not_mem_latchEvents : .pwm d ∉ latchEvents := by
  simp [latchEvents]

@[simp] theorem pwm_not_mem_bitEvents (b : Bool) : .pwm d ∉ bitEvents b := by
  simp [bitEvents]

@[simp] theorem pwm_not_mem_bitsEvents (bs : List Bool) : .pwm d ∉ bitsEvents bs := by
  simp [bitsEvents]

@[simp] theorem pwm_not_mem_readEvents (samples : List Bool) : .pwm d ∉ readEvents samples := by
  simp [readEvents]

@[simp] theorem pwm_not_mem_switchEvents (ws : WaveTables) (T : Table) : .pwm d ∉ switchEvents ws T := by
  simp [switchEvents, playEvents]

@[simp] theorem pwm_not_mem_preloadEvents : .pwm d ∉ preloadEvents := by
  simp [preloadEvents]

@[simp] theorem pwm_not_mem_attachEvents (wires : BitVec 5) (capable : Bool) : .pwm d ∉ attachEvents wires capable := by
  simp [attachEvents]

@[simp] theorem pwm_not_mem_allEvents (r : Regs) (level : Bool) : .pwm d ∉ allEvents r level := by
  simp [allEvents]

@[simp] theorem pwm_not_mem_sendBitsEvents (r : Regs) (count : Nat) (delay : BitVec 16) (bits : Word) :
    .pwm d ∉ sendBitsEvents r count delay bits := by
  unfold sendBitsEvents
  split <;> simp

@[simp] theorem pwm_not_mem_configEvents (r : Regs) (cur band gain : Byte) : .pwm d ∉ configEvents r cur band gain := by
  simp [configEvents]

@[simp] theorem pwm_not_mem_errorDetectEvents (r : Regs) : .pwm d ∉ errorDetectEvents r := by
  simp [errorDetectEvents, playEvents]

/-- ON and OFF drive OE, and never set a duty cycle (46 R190, R191). -/
@[simp] theorem pwm_not_mem_oeEvents (r : Regs) (v : Bool) : .pwm d ∉ oeEvents r v := by
  unfold oeEvents
  split
  · split <;> simp
  · simp

@[simp] theorem pwm_not_mem_resetEvents (r : Regs) (m : OeMode) : .pwm d ∉ resetEvents r m := by
  have hfill : .pwm d ∉ if r.canShift then allEvents r false else warnEvents r .unwired := by split <;> simp
  simp [resetEvents, hfill]

@[simp] theorem pwm_not_mem_flashEvents (r : Regs) (leaveOn : Bool) (bracket : BitVec 16) (onMs : BitVec 32) :
    .pwm d ∉ flashEvents r leaveOn bracket onMs := by
  simp [flashEvents]

/-- BRIGHTNESS sets a duty cycle on a wired, capable pin alone, and it is the inverted level (46 R192). -/
theorem pwm_mem_brightnessEvents_iff {r : Regs} {level : Byte} :
    .pwm d ∈ brightnessEvents r level ↔ r.isWired .oe = true ∧ r.pwmcap = true ∧ d = 255#8 - level := by
  unfold brightnessEvents
  split
  next hoe =>
    split
    next hcap => simp [hoe, hcap]
    next hcap => simp [hcap]
  next hoe => simp [hoe]

theorem not_mem_ite {e : Event} {es fs : List Event} {c : Prop} [Decidable c] (he : e ∉ es) (hf : e ∉ fs) :
    e ∉ if c then es else fs := by
  split
  · exact he
  · exact hf

/-- BRIGHTNESS is the only command that sets a duty cycle, and only on a wired, capable pin (46 R195). -/
theorem pwm_mem_commandEvents {r : Regs} {m : OeMode} {i : Instr} (h : .pwm d ∈ commandEvents r m i) :
    ∃ level, i = .brightness level ∧ r.isWired .oe = true ∧ r.pwmcap = true ∧ d = 255#8 - level := by
  cases i with
  | brightness level => exact ⟨level, rfl, pwm_mem_brightnessEvents_iff.mp h⟩
  | attach n wires => exact absurd h (not_mem_ite (not_mem_ite (by simp) (by simp)) (by simp))
  | sendBits count delay bits => exact absurd h (not_mem_ite (not_mem_ite (by simp) (by simp)) (by simp))
  | on => exact absurd h (pwm_not_mem_oeEvents r false)
  | off => exact absurd h (pwm_not_mem_oeEvents r true)
  | reset => exact absurd h (pwm_not_mem_resetEvents r m)
  | flash leaveOn bracket onMs => exact absurd h (pwm_not_mem_flashEvents r leaveOn bracket onMs)
  | shift | send | all | latch | normal | errorDetect | config => exact absurd h (not_mem_ite (by simp) (by simp))

end

/-! ### ON, OFF and BRIGHTNESS -/

/-- The chain sees CLK, LE and the frames; driving OE is none of these (46 R191). -/
theorem ChipChain.observe_oeEvents (ws : WaveTables) (ls : Lines) (r : Regs) (v : Bool) (c : ChipChain) :
    c.observe ws ls (oeEvents r v) = c := by
  unfold oeEvents warnEvents
  split
  · split <;> rfl
  · split <;> rfl

theorem brightnessEvents_of_capable {r : Regs} (hoe : r.isWired .oe = true) (hcap : r.pwmcap = true) (level : Byte) :
    brightnessEvents r level = [.pwm (255#8 - level)] := by
  rw [brightnessEvents, if_pos hoe, if_pos hcap]

/-- BRIGHTNESS emits its events and writes no register (46 R192). -/
theorem exec_brightness_ran (level : Byte) (s : State) :
    ∃ t, exec (.brightness level) s = .next t ∧ Ran s (brightnessEvents s.regs level) s.regs t :=
  exec_ran (i := .brightness level) rfl s

/-- Settles O41: only BRIGHTNESS writes a duty cycle, only on a capable pin, and there it writes nothing else (46 R195). -/
theorem noDutyCycleOnAnIncapablePin : Obligations.NoDutyCycleOnAnIncapablePin := by
  constructor
  · intro i s t es hcap hexec htrace
    obtain rfl : es = commandEvents s.regs s.lines.oem i :=
      List.append_cancel_left (htrace.symm.trans (exec_does hexec).trace)
    refine List.all_eq_true.mpr fun e he => ?_
    rw [Bool.not_eq_true', Bool.eq_false_iff]
    intro hpwm
    obtain ⟨d, rfl⟩ := Event.isPwm_iff.mp hpwm
    obtain ⟨level, -, -, hcapable, -⟩ := pwm_mem_commandEvents he
    exact Bool.false_ne_true (hcap.symm.trans hcapable)
  · intro level s (hoe : s.regs.isWired .oe = true) hcap
    obtain ⟨t, ht, hran⟩ := exec_brightness_ran level s
    rw [brightnessEvents_of_capable hoe hcap] at hran
    exact ⟨t, ht, hran.trace⟩

/-- Settles O38: ON drives OE low as a plain output, or only warns (46 R190). -/
theorem onFollowsItsRule : Obligations.OnFollowsItsRule := by
  refine ⟨encodedAs_readRow .on, fun s => ?_⟩
  obtain ⟨t, ht, hran⟩ := exec_ran (i := .on) rfl s
  refine ⟨t, ht, hran, fun (hoe : s.regs.isWired .oe = true) => ?_⟩
  rw [hran.lines]
  have hend := Lines.OeDriven.oeEvents hoe s.lines false
  exact ⟨hend.level, hend.oem⟩

/-- Settles O39: OFF drives OE high as a plain output, or only warns, and the chain does not see it (46 R191). -/
theorem offFollowsItsRule : Obligations.OffFollowsItsRule := by
  refine ⟨encodedAs_readRow .off, fun s => ?_⟩
  obtain ⟨t, ht, hran⟩ := exec_ran (i := .off) rfl s
  have hchip := ChipChain.observe_oeEvents s.par.tables s.lines s.regs true
  refine ⟨t, ht, hran, fun (hoe : s.regs.isWired .oe = true) => ?_, hchip⟩
  rw [hran.lines]
  have hend := Lines.OeDriven.oeEvents hoe s.lines true
  exact ⟨hend.level, hend.oem⟩

/-- Settles O40: BRIGHTNESS writes the inverted duty cycle, which cannot underflow, or warns of the first thing that stops
it (46 R192). -/
theorem brightnessFollowsItsRule : Obligations.BrightnessFollowsItsRule := by
  refine ⟨encodedAs_readRow (.brightness 0#8), fun level s => ?_⟩
  obtain ⟨t, ht, hran⟩ := exec_brightness_ran level s
  refine ⟨t, ht, hran, fun (hoe : s.regs.isWired .oe = true) hcap => ?_⟩
  have hlines : t.lines = s.lines.apply (.pwm (255#8 - level)) := by
    rw [hran.lines, brightnessEvents_of_capable hoe hcap]
    rfl
  rw [hlines]
  exact ⟨rfl, rfl, by bv_omega, rfl⟩

end Sys2Proof.Machine
end

section
/-! The family 47_composite. -/

namespace Sys2Proof.Machine

/-! ### the events of RESET in its two wirings -/

/-- 48 events for each chip of the chain, and the latch pulse when LE is wired (41 R116). -/
theorem length_allEvents (r : Regs) (level : Bool) :
    (allEvents r level).length = 48 * r.chain.toNat + (whenWired (r.isWired .le) latchEvents).length := by
  simp [allEvents, length_bitsEvents, Nat.mul_comm]

section
variable {r : Regs}

/-- On a pin without duty cycles OE is driven alone, with no direction event before it (46 R190, R191). -/
theorem oeEvents_of_incapable (hoe : r.isWired .oe = true) (hcap : r.pwmcap = false) (v : Bool) :
    oeEvents r v = [.drv .oe v] := by
  rw [oeEvents, if_pos hoe, hcap]
  rfl

/-- ON and OFF end with the drive, capable pin or not (46 R190, R191). -/
theorem oeEvents_ends_drv (hoe : r.isWired .oe = true) (v : Bool) :
    ∃ before, oeEvents r v = before ++ [.drv .oe v] := by
  rw [oeEvents, if_pos hoe]
  split
  · exact ⟨[.dirOut .oe], rfl⟩
  · exact ⟨[], rfl⟩

/-- Clause (g) comes last, so RESET ends as ON does (47 R204). -/
theorem resetEvents_ends_drv (hoe : r.isWired .oe = true) (m : OeMode) :
    ∃ before, resetEvents r m = before ++ [.drv .oe false] := by
  obtain ⟨before, hon⟩ := oeEvents_ends_drv hoe false
  rw [resetEvents, hoe, hon]
  exact ⟨_, (List.append_assoc _ before _).symm⟩

theorem Regs.isWired_of_all_wired (h : r.wired = 0b11111#5) (l : Line) : r.isWired l = true := by
  rw [Regs.isWired, h]
  cases l <;> rfl

/-- In 2-wire mode DI and CLK are the lines wired. -/
theorem Regs.isWired_of_two_wire (h : r.wired = 0b00011#5) (l : Line) : r.isWired l = decide (l = .di ∨ l = .clk) := by
  rw [Regs.isWired, h]
  cases l <;> rfl

/-- With all lines wired and OE a plain output, every clause but (a) emits its events (47 R200). -/
theorem resetEvents_of_all_wired (h : r.wired = 0b11111#5) (hcap : r.pwmcap = false) :
    resetEvents r .dig = switchEvents r.par.tables .normal ++ [.drv .oe true] ++ [.dirIn .dout] ++ allEvents r false
      ++ configEvents r 0#8 0#8 127#8 ++ [.drv .oe false] := by
  have hw := Regs.isWired_of_all_wired h
  have hshift : r.canShift = true := Regs.canShift_iff.mpr ⟨hw .di, hw .clk⟩
  have hswitch : r.canSwitch = true := Regs.canSwitch_iff.mpr ⟨hw .le, hw .oe⟩
  rw [resetEvents, if_pos hshift, hswitch, hw .dout, oeEvents_of_incapable (hw .oe) hcap,
    oeEvents_of_incapable (hw .oe) hcap, hw .oe]
  rfl

/-- In 2-wire mode clause (e) alone emits events, whatever the recorded mode of OE (47 R200). -/
theorem resetEvents_of_two_wire (h : r.wired = 0b00011#5) (m : OeMode) : resetEvents r m = allEvents r false := by
  have hw := Regs.isWired_of_two_wire h
  have hle : r.isWired .le = false := hw .le
  have hoe : r.isWired .oe = false := hw .oe
  have hdo : r.isWired .dout = false := hw .dout
  have hshift : r.canShift = true := Regs.canShift_iff.mpr ⟨hw .di, hw .clk⟩
  have hswitch : r.canSwitch = false := by rw [Regs.canSwitch, hle, Bool.false_and]
  simp [resetEvents, whenWired, hoe, hdo, hshift, hswitch]

/-- The clauses add up: 12 + 1 + 1 + 50 + 124 + 1 (47 R200). -/
theorem length_resetEvents_standard (htables : r.par.tables = standardTables) (h : r.wired = 0b11111#5)
    (hchain : r.chain = 1#8) (hcap : r.pwmcap = false) : (resetEvents r .dig).length = 189 := by
  have hswitch : (switchEvents r.par.tables .normal).length = 12 := by rw [htables]; rfl
  have hfill : (allEvents r false).length = 50 := by
    rw [length_allEvents, hchain, Regs.isWired_of_all_wired h]
    rfl
  simp only [resetEvents_of_all_wired h hcap, List.length_append, hswitch, hfill,
    length_configEvents_standard htables, List.length_singleton]

/-- In 2-wire mode nothing latches (47 R200). -/
theorem length_allEvents_of_two_wire (h : r.wired = 0b00011#5) (level : Bool) :
    (allEvents r level).length = 48 * r.chain.toNat := by
  rw [length_allEvents, Regs.isWired_of_two_wire h]
  rfl

end

/-! ### RESET -/

/-- RESET emits its clauses' events, and `MODE` is the one register it may write (47 R200). -/
theorem exec_reset_ran (s : State) :
    ∃ t, exec .reset s = .next t ∧ Ran s (resetEvents s.regs s.lines.oem) s.regs.recordNormal t :=
  exec_ran (i := .reset) rfl s

/-- Settles O43: RESET emits its clauses in order and records Normal; its events in the rule's own case and in 2-wire mode
are counted (47 R200). -/
theorem resetFollowsItsRule : Obligations.ResetFollowsItsRule := by
  refine ⟨encodedAs_readRow .reset, fun s => ?_⟩
  obtain ⟨t, ht, hran⟩ := exec_reset_ran s
  refine ⟨t, ht, hran, fun htables hall hchain hcap hoem => ⟨?_, ?_⟩, fun htwo => ?_⟩
  · rw [hoem]
    exact length_resetEvents_standard htables hall hchain hcap
  · rw [hran.lines]
    exact (Lines.OeDriven.resetEvents (Regs.isWired_of_all_wired (r := s.regs) hall .oe) _ _).level
  · exact ⟨resetEvents_of_two_wire htwo _, length_allEvents_of_two_wire htwo false⟩

/-- Settles O44: RESET ends with ON, so OE is a plain output at 0, and its last event drives it there (47 R204). -/
theorem resetEndsEnabled : Obligations.ResetEndsEnabled := by
  intro s (hoe : s.regs.isWired .oe = true)
  obtain ⟨t, ht, hran⟩ := exec_reset_ran s
  have hend := Lines.OeDriven.resetEvents hoe s.lines.oem s.lines
  rw [← hran.lines] at hend
  obtain ⟨before, hlast⟩ := resetEvents_ends_drv hoe s.lines.oem
  refine ⟨t, ht, hend.level, hend.oem, s.trace ++ before, ?_⟩
  rw [hran.trace, hlast, List.append_assoc]

/-! ### FLASH -/

/-- Settles O45: FLASH emits its off, on and off periods with every wait, and writes no register (47 R201). -/
theorem flashFollowsItsRule : Obligations.FlashFollowsItsRule :=
  ⟨encodedAs_readRow (.flash false 0#16 0#32), fun leaveOn bracket onMs s =>
    exec_ran (i := .flash leaveOn bracket onMs) rfl s⟩

end Sys2Proof.Machine
end

section
/-! The family 60_exceptions: a word that raises a fault does nothing else, and the fault is sticky (60 R214, R216). -/

namespace Sys2Proof.Machine

/-- With a word at the command port a step accepts it and runs it (10 R32). -/
theorem step_of_pending {s : State} {w : Cmd} {rest : List Cmd} (h : s.pending = w :: rest) :
    step s = runWord w { s with pending := rest } := by
  rw [step, State.acceptCommand_cons h]

/-- Taking a fault clears no bit (60 R216). -/
theorem and_faultAfter (fault : BitVec 3) (c : FaultCause) : fault &&& faultAfter fault c = fault := by
  refine BitVec.eq_of_getLsbD_eq fun j _ => ?_
  rw [faultAfter, BitVec.getLsbD_and, BitVec.getLsbD_or]
  exact inf_sup_self

/-- A command with its operands in range writes no bit of `FAULT`; RESET is one of them (60 R216). -/
theorem commandRegs_fault {i : Instr} (hi : i.wellFormed = true) (r : Regs) : (commandRegs r i).fault = r.fault := by
  cases i with
  | attach n wires =>
    have hrange : attachInRange n wires = true := hi
    simp only [commandRegs, if_pos hrange]
    split <;> rfl
  | sendBits count delay bits =>
    have hrange : countInRange count = true := hi
    simp only [commandRegs, if_pos hrange]
  | errorDetect => simp only [commandRegs]; split <;> rfl
  | _ => rfl

/-- A command clears no bit of `FAULT` (60 R216). -/
theorem exec_and_fault {i : Instr} {s t : State} (h : exec i s = .next t) : s.fault &&& t.fault = s.fault := by
  cases hi : i.wellFormed with
  | false =>
    obtain rfl := Host.Outcome.next.inj ((exec_of_not_wellFormed hi s).symm.trans h)
    exact and_faultAfter s.fault .operandRange
  | true =>
    have hkeep : t.fault = s.fault := (congrArg Regs.fault (exec_does h).regs).trans (commandRegs_fault hi s.regs)
    rw [hkeep, BitVec.and_self]

/-- Settles O10: a fault sets its bit and nothing else, and no step clears a bit (60 R214, R216). -/
theorem faultOnlySetsItsStickyBit : Obligations.FaultOnlySetsItsStickyBit := by
  refine ⟨⟨rfl, rfl, rfl⟩, fun s w rest c hp hd => ?_, fun i s hi => exec_of_not_wellFormed hi s, fun s t h => ?_⟩
  · exact (step_of_pending hp).trans (runWord_of_error hd _)
  · obtain ⟨-, rfl⟩ | ⟨w, rest, -, ⟨c, -, rfl⟩ | ⟨i, -, hx⟩⟩ := step_cases h
    · exact BitVec.and_self
    · exact and_faultAfter s.fault c
    · exact exec_and_fault (s := { s with pending := rest }) hx

end Sys2Proof.Machine
end

section
/-! The family 60_exceptions: `DEBUG` decides whether the warnings are emitted, and nothing else (60 R212). -/

namespace Sys2Proof.Machine

/-- The registers of the run with `DEBUG = 0`. -/
def Regs.mute (r : Regs) : Regs := { r with debug := false }

/-- The second list is the first one less its warnings (60 R212). -/
def Muted (es fs : List Event) : Prop := es.filter (fun e => !e.isWarning) = fs

/-! ### lists of events and their warnings -/

section
variable {es fs gs hs : List Event}

theorem Muted.nil : Muted [] [] := rfl

theorem Muted.append (h : Muted es fs) (k : Muted gs hs) : Muted (es ++ gs) (fs ++ hs) := by
  rw [Muted, List.filter_append, h, k]

theorem Muted.ite {c : Prop} [Decidable c] (h : Muted es fs) (k : Muted gs hs) :
    Muted (if c then es else gs) (if c then fs else hs) := by
  split
  · exact h
  · exact k

theorem Muted.whenWired {c : Bool} (h : Muted es fs) : Muted (whenWired c es) (whenWired c fs) := .ite h .nil

theorem Muted.flatMap {α : Type} {l : List α} {g : α → List Event} (h : ∀ a, Muted (g a) (g a)) :
    Muted (l.flatMap g) (l.flatMap g) := by
  rw [Muted, List.filter_flatMap]
  exact congrArg (List.flatMap · l) (funext h)

/-- A warning reaches no line (10 R36). -/
theorem Muted.applyAll (h : Muted es fs) (ls : Lines) : ls.applyAll fs = ls.applyAll es := by
  subst h
  induction es generalizing ls with
  | nil => rfl
  | cons e es ih =>
    cases e with
    | warn w device => exact ih ls
    | _ => exact ih _

end

/-! ### the lists of events of Machine/Traces.lean -/

theorem Muted.bit (b : Bool) : Muted (bitEvents b) (bitEvents b) := rfl

theorem Muted.bits (bs : List Bool) : Muted (bitsEvents bs) (bitsEvents bs) := .flatMap Muted.bit

theorem Muted.latch : Muted latchEvents latchEvents := rfl

theorem Muted.play (ws : WaveTables) (T : Table) : Muted (playEvents ws T) (playEvents ws T) := by
  refine .append (List.filter_eq_self.mpr fun e he => ?_) rfl
  obtain ⟨f, -, rfl⟩ := List.mem_map.mp he
  rfl

theorem Muted.switch (ws : WaveTables) (T : Table) : Muted (switchEvents ws T) (switchEvents ws T) :=
  (Muted.play ws .trans).append (.play ws T)

theorem Muted.preload : Muted preloadEvents preloadEvents := (Muted.bits _).append .latch

theorem Muted.read (samples : List Bool) : Muted (readEvents samples) (readEvents samples) := .flatMap fun _ => rfl

theorem Muted.attach (wires : BitVec 5) (capable : Bool) :
    Muted (attachEvents wires capable) (attachEvents wires capable) :=
  .append (.append (.append rfl (.whenWired rfl)) (.whenWired rfl)) (.whenWired rfl)

section
variable (r : Regs)

theorem Muted.warn (w : Warning) : Muted (warnEvents r w) (warnEvents r.mute w) := by
  unfold warnEvents
  split <;> rfl

theorem Muted.all (level : Bool) : Muted (allEvents r level) (allEvents r.mute level) := by
  refine .append (List.filter_eq_self.mpr fun e he => ?_) (.whenWired .latch)
  obtain ⟨word, hword, hmem⟩ := List.mem_flatten.mp he
  rw [List.eq_of_mem_replicate hword] at hmem
  exact List.filter_eq_self.mp (Muted.bits _) e hmem

theorem Muted.sendBits (count : Nat) (delay : BitVec 16) (bits : Word) :
    Muted (sendBitsEvents r count delay bits) (sendBitsEvents r.mute count delay bits) := by
  have hlatch : Muted (Machine.whenWired (r.isWired .le) latchEvents) (Machine.whenWired (r.isWired .le) latchEvents) :=
    .whenWired .latch
  exact .ite ((Muted.bits _).append hlatch) (.flatMap fun b => ((Muted.bit b).append hlatch).append rfl)

theorem Muted.errorDetect : Muted (errorDetectEvents r) (errorDetectEvents r.mute) :=
  (((((((Muted.preload).append (.switch _ _)).append rfl).append (.play _ _)).append rfl).append (.read _)).append
    rfl).append (.switch _ _)

theorem Muted.config (cur band gain : Byte) :
    Muted (configEvents r cur band gain) (configEvents r.mute cur band gain) :=
  (((Muted.preload.append (.switch _ _)).append (.bits _)).append .latch).append (.switch _ _)

theorem Muted.oe (v : Bool) : Muted (oeEvents r v) (oeEvents r.mute v) := .ite (.ite rfl rfl) (.warn r _)

theorem Muted.brightness (level : Byte) : Muted (brightnessEvents r level) (brightnessEvents r.mute level) :=
  .ite (.ite rfl (.warn r _)) (.warn r _)

theorem Muted.reset (m : OeMode) : Muted (resetEvents r m) (resetEvents r.mute m) :=
  ((((((Muted.whenWired rfl).append (.whenWired (.switch _ _))).append (.whenWired (.oe r true))).append
    (.whenWired rfl)).append (.ite (.all r false) (.warn r _))).append (.whenWired (.config r _ _ _))).append
      (.whenWired (.oe r false))

theorem Muted.flash (leaveOn : Bool) (bracket : BitVec 16) (onMs : BitVec 32) :
    Muted (flashEvents r leaveOn bracket onMs) (flashEvents r.mute leaveOn bracket onMs) :=
  ((((((Muted.oe r true).append rfl).append (.oe r false)).append rfl).append (.oe r true)).append rfl).append
    (.ite (.oe r false) .nil)

/-! ### every command -/

/-- With `DEBUG = 0` a command emits its events less the warnings (60 R212). -/
theorem Muted.command (m : OeMode) (i : Instr) : Muted (commandEvents r m i) (commandEvents r.mute m i) := by
  cases i with
  | attach n wires => exact .ite (.ite (.warn r _) (.attach wires _)) .nil
  | shift w => exact .ite (.bits _) (.warn r _)
  | send w => exact .ite ((Muted.bits _).append (.whenWired .latch)) (.warn r _)
  | all level => exact .ite (.all r level) (.warn r _)
  | sendBits count delay bits => exact .ite (.ite (.sendBits r _ delay bits) (.warn r _)) .nil
  | latch => exact .ite .latch (.warn r _)
  | normal => exact .ite (.switch _ _) (.warn r _)
  | errorDetect => exact .ite (.errorDetect r) (.warn r _)
  | config cur band gain => exact .ite (.config r cur band gain) (.warn r _)
  | on => exact .oe r false
  | off => exact .oe r true
  | brightness level => exact .brightness r level
  | reset => exact .reset r m
  | flash leaveOn bracket onMs => exact .flash r leaveOn bracket onMs

/-- What a command writes does not depend on `DEBUG` (60 R212). -/
theorem commandRegs_mute (i : Instr) : commandRegs r.mute i = (commandRegs r i).mute := by
  cases i with
  | attach | sendBits | errorDetect =>
    simp only [commandRegs, apply_ite Regs.mute]
    rfl
  | _ => rfl

end

/-- Settles O51: the run without `DEBUG` leaves the warnings out, and they touch neither lines nor registers (60 R212). -/
theorem debugOnlyAddsWarnings : Obligations.DebugOnlyAddsWarnings := by
  intro i s
  obtain ⟨t, ht, hloud⟩ := exec_next i { s with debug := true }
  obtain ⟨u, hu, hmute⟩ := exec_next i { s with debug := false }
  have hevents := Muted.command (State.regs { s with debug := true }) s.lines.oem i
  refine ⟨t, u, _, ht, hu, hloud.trace, ?_, ?_, ?_⟩
  · rw [hevents]
    exact hmute.trace
  · exact hmute.lines.trans ((hevents.applyAll s.lines).trans hloud.lines.symm)
  · rw [hloud.regs, hmute.regs]
    exact commandRegs_mute (State.regs { s with debug := true }) i

end Sys2Proof.Machine
end

section
/-! The family 60_exceptions: an unattached block has no line wired, so every guard fails (60 R218). -/

namespace Sys2Proof.Machine

/-! ### the guards -/

section
variable {r : Regs}

theorem Regs.isWired_of_unwired (h : r.wired = 0#5) (l : Line) : r.isWired l = false := by
  rw [Regs.isWired, h, BitVec.getLsbD_zero]

theorem Regs.canShift_of_unwired (h : r.wired = 0#5) : r.canShift = false := by
  rw [Regs.canShift, Regs.isWired_of_unwired h, Bool.false_and]

theorem Regs.canSwitch_of_unwired (h : r.wired = 0#5) : r.canSwitch = false := by
  rw [Regs.canSwitch, Regs.isWired_of_unwired h, Bool.false_and]

theorem Regs.canRead_of_unwired (h : r.wired = 0#5) : r.canRead = false := by
  rw [Regs.canRead, Regs.isWired_of_unwired h, Bool.false_and, Bool.false_and]

/-! ### the events and the registers -/

theorem oeEvents_of_unwired (h : r.wired = 0#5) (v : Bool) : oeEvents r v = warnEvents r .unwired := by
  rw [oeEvents, Regs.isWired_of_unwired h]
  rfl

/-- Clause (e) of RESET is the one that warns; the others are passed over (47 R200). -/
theorem resetEvents_of_unwired (h : r.wired = 0#5) (m : OeMode) : resetEvents r m = warnEvents r .unwired := by
  simp [resetEvents, whenWired, Regs.isWired_of_unwired h, Regs.canShift_of_unwired h, Regs.canSwitch_of_unwired h]

/-- Each step of FLASH that drives OE warns, and the waits stay (47 R201). -/
theorem flashEvents_of_unwired (h : r.wired = 0#5) (leaveOn : Bool) (bracket : BitVec 16) (onMs : BitVec 32) :
    flashEvents r leaveOn bracket onMs
      = warnEvents r .unwired ++ [.ms bracket.toNat] ++ warnEvents r .unwired ++ [.ms onMs.toNat] ++ warnEvents r .unwired
        ++ [.ms bracket.toNat] ++ (if leaveOn then warnEvents r .unwired else []) := by
  simp only [flashEvents, oeEvents_of_unwired h]

/-- But for ATTACH, which has no wiring to look at, and FLASH, a command warns once and emits nothing else (60 R218). -/
theorem commandEvents_of_unwired (h : r.wired = 0#5) (m : OeMode) {i : Instr} (hi : i.wellFormed = true)
    (hattach : ∀ n ws, i ≠ .attach n ws) (hflash : ∀ leaveOn bracket onMs, i ≠ .flash leaveOn bracket onMs) :
    commandEvents r m i = warnEvents r .unwired := by
  have hshift : ¬ r.canShift = true := Bool.eq_false_iff.mp (Regs.canShift_of_unwired h)
  have hswitch : ¬ r.canSwitch = true := Bool.eq_false_iff.mp (Regs.canSwitch_of_unwired h)
  cases i with
  | attach n wires => exact absurd rfl (hattach n wires)
  | flash leaveOn bracket onMs => exact absurd rfl (hflash leaveOn bracket onMs)
  | shift | send | all => exact if_neg hshift
  | sendBits count delay bits => exact (if_pos hi).trans (if_neg hshift)
  | latch => exact if_neg (Bool.eq_false_iff.mp (Regs.isWired_of_unwired h .le))
  | normal | config => exact if_neg hswitch
  | errorDetect => exact if_neg (Bool.eq_false_iff.mp (Regs.canRead_of_unwired h))
  | on => exact oeEvents_of_unwired h false
  | off => exact oeEvents_of_unwired h true
  | brightness level => exact if_neg (Bool.eq_false_iff.mp (Regs.isWired_of_unwired h .oe))
  | reset => exact resetEvents_of_unwired h m

/-- `RESULT` is the one register written, by ERROR_DETECT (60 R218). -/
theorem commandRegs_of_unwired (h : r.wired = 0#5) {i : Instr} (hi : i.wellFormed = true)
    (hattach : ∀ n ws, i ≠ .attach n ws) :
    commandRegs r i = if i = .errorDetect then { r with result := 0x0000#16 } else r := by
  cases i with
  | attach n wires => exact absurd rfl (hattach n wires)
  | sendBits count delay bits => exact if_pos hi
  | errorDetect => exact if_neg (Bool.eq_false_iff.mp (Regs.canRead_of_unwired h))
  | normal | config | reset => exact Regs.recordNormal_of_not_canSwitch (Regs.canSwitch_of_unwired h)
  | _ => rfl

/-! ### the lines -/

/-- A warning reaches no line (10 R36). -/
@[simp] theorem Lines.applyAll_warnEvents (ls : Lines) (r : Regs) (w : Warning) : ls.applyAll (warnEvents r w) = ls := by
  unfold warnEvents
  split <;> rfl

/-- With OE absent FLASH emits warnings and waits, and neither reaches a line (10 R36). -/
theorem Lines.applyAll_flashEvents_of_unwired (h : r.wired = 0#5) (ls : Lines) (leaveOn : Bool) (bracket : BitVec 16)
    (onMs : BitVec 32) : ls.applyAll (flashEvents r leaveOn bracket onMs) = ls := by
  have hwait : ∀ (ls : Lines) n, ls.applyAll [.ms n] = ls := fun _ _ => rfl
  rw [flashEvents_of_unwired h]
  simp only [Lines.applyAll_append, Lines.applyAll_warnEvents, hwait]
  split
  · exact Lines.applyAll_warnEvents ls r _
  · rfl

theorem Lines.applyAll_commandEvents_of_unwired (h : r.wired = 0#5) (ls : Lines) (m : OeMode) {i : Instr}
    (hi : i.wellFormed = true) (hattach : ∀ n ws, i ≠ .attach n ws) : ls.applyAll (commandEvents r m i) = ls := by
  by_cases hflash : ∃ leaveOn bracket onMs, i = .flash leaveOn bracket onMs
  · obtain ⟨leaveOn, bracket, onMs, rfl⟩ := hflash
    exact Lines.applyAll_flashEvents_of_unwired h ls leaveOn bracket onMs
  · rw [commandEvents_of_unwired h m hi hattach fun leaveOn bracket onMs hf => hflash ⟨leaveOn, bracket, onMs, hf⟩]
    exact Lines.applyAll_warnEvents ls r _

end

/-- Settles O52: without wiring every command but ATTACH takes its unwired path (60 R218). -/
theorem unattachedBlockOnlyWarns : Obligations.UnattachedBlockOnlyWarns := by
  intro i s (h : s.regs.wired = 0#5) hi hattach
  obtain ⟨t, ht, hran⟩ := exec_ran hi s
  have hlines := hran.lines.trans (Lines.applyAll_commandEvents_of_unwired h s.lines s.lines.oem hi hattach)
  refine ⟨t, _, ht, commandRegs_of_unwired h hi hattach ▸ hran, hlines, ?_⟩
  cases i with
  | flash leaveOn bracket onMs => exact flashEvents_of_unwired h leaveOn bracket onMs
  | _ => exact commandEvents_of_unwired h s.lines.oem hi hattach nofun

end Sys2Proof.Machine
end

section
/-! The family other: decoding and encoding are inverse to each other (30_encoding sections 2 to 4). The encoding of a command
stands in its row, and in a word of a row the bits outside the mask are the operands, so neither direction loses a bit. -/

namespace Sys2Proof.Machine

/-! ### decoding an encoding -/

/-- The encoding of a command stands in the command's own row (30 R81). -/
theorem encode_and_rowMask (i : Instr) : encode i &&& rowMask i = rowMatch i := by
  cases i with
  | attach n wires => exact Laws.EncodesInItsRow.attach n wires
  | shift w => exact Laws.EncodesInItsRow.shift w
  | send w => exact Laws.EncodesInItsRow.send w
  | all level => exact Laws.EncodesInItsRow.all level
  | sendBits count delay bits => exact Laws.EncodesInItsRow.sendBits count delay bits
  | latch => exact Laws.EncodesInItsRow.latch
  | normal => exact Laws.EncodesInItsRow.normal
  | errorDetect => exact Laws.EncodesInItsRow.errorDetect
  | config cur band gain => exact Laws.EncodesInItsRow.config cur band gain
  | on => exact Laws.EncodesInItsRow.on
  | off => exact Laws.EncodesInItsRow.off
  | brightness level => exact Laws.EncodesInItsRow.brightness level
  | reset => exact Laws.EncodesInItsRow.reset
  | flash leaveOn bracket onMs => exact Laws.EncodesInItsRow.flash leaveOn bracket onMs

/-- A field that ends where the fields below it begin. -/
theorem extractLsb'_append_append {a b c : Nat} (high : BitVec a) (field : BitVec b) (low : BitVec c) :
    (high ++ field ++ low).extractLsb' c b = field := by
  rw [BitVec.extractLsb'_append_eq_of_le (Nat.le_refl c), Nat.sub_self]
  exact BitVec.extractLsb'_append_eq_right

/-- The operands read from a command's encoding are the command's own (30 R72 to R78). -/
theorem readRow_encode (i : Instr) : readRow i (encode i) = i := by
  cases i with
  | attach n wires =>
    have hn : (encode (.attach n wires)).extractLsb' 48 8 = n := by
      rw [encode, BitVec.extractLsb'_append_eq_of_le (by decide)]
      exact extractLsb'_append_append _ n _
    exact congrArg₂ Instr.attach hn BitVec.extractLsb'_append_eq_right
  | shift | send | brightness => exact congrArg _ BitVec.extractLsb'_append_eq_right
  | all level => cases level <;> rfl
  | sendBits count delay bits =>
    have hcount : (encode (.sendBits count delay bits)).extractLsb' 48 5 = count := by
      rw [encode, BitVec.extractLsb'_append_eq_of_le (by decide), BitVec.extractLsb'_append_eq_of_le (by decide)]
      exact extractLsb'_append_append _ count _
    have hdelay : (encode (.sendBits count delay bits)).extractLsb' 32 16 = delay := by
      rw [encode, BitVec.extractLsb'_append_eq_of_le (by decide)]
      exact extractLsb'_append_append _ delay _
    rw [readRow, hcount, hdelay]
    exact congrArg _ BitVec.extractLsb'_append_eq_right
  | config cur band gain =>
    have hcur : (encode (.config cur band gain)).extractLsb' 16 8 = cur := by
      rw [encode, BitVec.extractLsb'_append_eq_of_le (by decide)]
      exact extractLsb'_append_append _ cur _
    rw [readRow, hcur]
    exact congrArg₂ _ (extractLsb'_append_append _ band gain) BitVec.extractLsb'_append_eq_right
  | flash leaveOn bracket onMs =>
    have hleave : (encode (.flash leaveOn bracket onMs)).getLsbD 48 = leaveOn := by
      rw [encode, BitVec.getLsbD_append, if_neg (by decide), BitVec.getLsbD_append, if_neg (by decide),
        BitVec.getLsbD_append, if_pos (by decide), BitVec.getLsbD_ofBool]
      rfl
    rw [readRow, hleave]
    exact congrArg₂ _ (extractLsb'_append_append _ bracket onMs) BitVec.extractLsb'_append_eq_right
  | latch | normal | errorDetect | on | off | reset => rfl

/-- Settles O1: the encoding selects the command's row, and the row reads the command's operands (30_encoding sections 2 to
4). -/
theorem decodeOfEncodeIsTheCommand : Obligations.DecodeOfEncodeIsTheCommand := fun i =>
  (decode_of_selects (encode_and_rowMask i)).trans (congrArg _ (readRow_encode i))

/-! ### encoding a decoded word -/

/-- The encoding of the command that a row reads from a word: the row's match, and the word's bits outside the mask. -/
theorem encode_readRow (r : Instr) (w : Cmd) : encode (readRow r w) = rowMatch r ||| (w &&& ~~~rowMask r) := by
  cases r with
  | latch | normal | errorDetect | on | off | reset =>
    have hmask : ~~~0xFFFFFFFFFFFFFFFF#64 = 0#64 := by decide
    simp only [rowMask, hmask, BitVec.and_zero, BitVec.or_zero]
    rfl
  | attach | shift | send | all | sendBits | config | brightness | flash =>
    refine BitVec.eq_of_getLsbD_eq fun j hj => ?_
    simp only [encode, readRow, rowMask, rowMatch, BitVec.getLsbD_and, BitVec.getLsbD_or, BitVec.getLsbD_append]
    interval_cases j <;> simp

/-- A word that a row selects is the encoding of the command the row reads from it. -/
theorem encode_readRow_of_selects {r : Instr} {w : Cmd} (h : w &&& rowMask r = rowMatch r) : encode (readRow r w) = w := by
  rw [encode_readRow, ← h, ← BitVec.and_or_distrib_left, BitVec.or_not_self, BitVec.and_allOnes]

/-- Settles O2: a word the decoder accepts stands in its command's row, which drops none of its bits (30_encoding sections 2
and 4). -/
theorem encodeOfDecodeIsTheWord : Obligations.EncodeOfDecodeIsTheWord := by
  intro w i hi
  have hrow := selects_of_decode hi
  have hread : readRow i w = i := Except.ok.inj ((decode_of_selects hrow).symm.trans hi)
  calc
    encode i = encode (readRow i w) := by rw [hread]
    _ = w := encode_readRow_of_selects hrow

end Sys2Proof.Machine
end

section
/-! The family other: the invariant between commands. Its clauses about the lines split in two. Those of `Held` speak of the
directions and of levels that no command leaves behind, and every single event of a command keeps them; CLK and LE are low
only between commands, so that they end low is said of the lists of events a command is made of. -/

namespace Sys2Proof.Machine

/-! ### the clauses about the registers -/

/-- What the invariant says of the registers alone. -/
structure Regs.Sound (r : Regs) : Prop where
  mode : r.mode = .unknown ∨ r.mode = .normal
  unattached : r.chain = 0#8 → r.wired = 0#5
  attached : r.chain ≠ 0#8 → r.canShift = true
  capable : r.pwmcap = true → r.isWired .oe = true
  tables : r.par.tables.latchLow = true

/-! ### the clauses about the lines -/

/-- What the invariant says of the lines and what holds at every moment of a command too. -/
structure Lines.Held (r : Regs) (ls : Lines) : Prop where
  driven : WiredAreOutputs r ls
  absent : ∀ l, r.isWired l = false → ls.dir.get l = .uncfg
  undriven : ∀ l, ls.dir.get l ≠ .out → ls.lvl.get l = .x
  doUnknown : ls.lvl.dout = .x
  pwm : ls.oem = .pwm → r.pwmcap = true ∧ ls.lvl.oe = .x ∧ ls.duty ≠ .x

/-- What the invariant says of the lines between commands. -/
structure Lines.Parked (r : Regs) (ls : Lines) : Prop where
  held : ls.Held r
  clockLow : r.isWired .clk = true → ls.lvl.clk = .low
  latchLow : r.isWired .le = true → ls.lvl.le = .low

theorem State.inv_iff {s : State} : s.Inv ↔ s.phase = .idle ∧ s.regs.Sound ∧ s.lines.Parked s.regs := by
  constructor
  · intro h
    refine ⟨h.idle, ⟨h.mode, h.unattached, fun hc => ?_, h.capable, h.tables⟩,
      ⟨⟨h.driven, h.absent, h.undriven, h.doUnknown, h.pwm⟩, h.clockLow, h.latchLow⟩⟩
    exact Regs.canShift_iff.mpr (h.attached hc)
  · rintro ⟨hidle, hr, hl⟩
    exact {
      idle := hidle, mode := hr.mode, unattached := hr.unattached
      attached := fun hc => Regs.canShift_iff.mp (hr.attached hc)
      capable := hr.capable, driven := hl.held.driven, absent := hl.held.absent, undriven := hl.held.undriven
      clockLow := hl.clockLow, latchLow := hl.latchLow, doUnknown := hl.held.doUnknown, pwm := hl.held.pwm
      tables := hr.tables }

/-- The clauses about the lines read the wiring and the capability alone. -/
theorem Lines.Parked.of_regs {r q : Regs} {ls : Lines} (h : ls.Parked r) (hw : q.wired = r.wired)
    (hp : q.pwmcap = r.pwmcap) : ls.Parked q := by
  have hwired : q.isWired = r.isWired := by funext l; rw [Regs.isWired, hw, Regs.isWired]
  obtain ⟨⟨hdriven, habsent, hundriven, hdo, hpwm⟩, hclk, hle⟩ := h
  refine ⟨⟨?_, ?_, hundriven, hdo, ?_⟩, ?_, ?_⟩
  · intro l; rw [hwired]; exact hdriven l
  · rwa [hwired]
  · rwa [hp]
  · rwa [hwired]
  · rwa [hwired]

/-! ### single events -/

section
variable {r : Regs} {ls : Lines}

/-- Making a wired line an output. -/
theorem Lines.Held.dirOut {l : Line} (h : ls.Held r) (hl : r.isWired l = true) : (ls.apply (.dirOut l)).Held r := by
  have hlvl : ∀ m, ls.lvl.get m = .x → (ls.dirOut l).lvl.get m = .x := by
    intro m hm
    rw [Lines.dirOut]
    split
    · exact hm
    · by_cases hlm : m = l
      · rw [hlm, PerLine.get_set_self]
      · rw [PerLine.get_set_of_ne _ hlm, hm]
  refine ⟨h.driven.apply trivial, fun m hm => ?_, fun m hm => ?_, hlvl .dout h.doUnknown, fun hpwm => ?_⟩
  · have hne : m ≠ l := by rintro rfl; exact Bool.false_ne_true (hm.symm.trans hl)
    exact (PerLine.get_set_of_ne _ hne _).trans (h.absent m hm)
  · have hne : m ≠ l := by rintro rfl; exact hm (PerLine.get_set_self _ _ _)
    have hdir : (ls.dirOut l).dir.get m = ls.dir.get m := PerLine.get_set_of_ne _ hne _
    exact hlvl m (h.undriven m fun hout => hm (hdir.trans hout))
  · have hbefore : ls.oem = .pwm := by
      by_cases hoe : l = .oe
      · subst hoe; cases hpwm
      · exact (if_neg hoe).symm.trans hpwm
    obtain ⟨hcap, hoe, hduty⟩ := h.pwm hbefore
    exact ⟨hcap, hlvl .oe hoe, hduty⟩

/-- Making DO an input. -/
theorem Lines.Held.dirIn_dout (h : ls.Held r) (hdo : r.isWired .dout = true) : (ls.apply (.dirIn .dout)).Held r := by
  refine ⟨h.driven.apply rfl, fun m hm => ?_, fun m hm => ?_, rfl, h.pwm⟩
  · have hne : m ≠ .dout := by rintro rfl; exact Bool.false_ne_true (hm.symm.trans hdo)
    exact (PerLine.get_set_of_ne _ hne _).trans (h.absent m hm)
  · by_cases hne : m = .dout
    · rw [hne]; rfl
    · have hdir : (ls.dirIn .dout).dir.get m = ls.dir.get m := PerLine.get_set_of_ne _ hne _
      exact (PerLine.get_set_of_ne _ hne _).trans (h.undriven m fun hout => hm (hdir.trans hout))

/-- Driving a wired line other than DO. -/
theorem Lines.Held.drv {l : Line} (h : ls.Held r) (hdo : l ≠ .dout) (hl : r.isWired l = true) (v : Bool) :
    (ls.apply (.drv l v)).Held r := by
  have hother : ∀ m, m ≠ l → (ls.drv l v).lvl.get m = ls.lvl.get m := fun m hm => PerLine.get_set_of_ne _ hm _
  refine ⟨h.driven.apply ⟨hdo, hl⟩, h.absent, fun m hm => ?_, (hother .dout hdo.symm).trans h.doUnknown,
    fun hpwm => ?_⟩
  · have hne : m ≠ l := by rintro rfl; exact hm (h.driven m hdo hl)
    exact (hother m hne).trans (h.undriven m hm)
  · by_cases hoe : l = .oe
    · subst hoe; cases hpwm
    · obtain ⟨hcap, hx, hduty⟩ := h.pwm ((if_neg hoe).symm.trans hpwm)
      exact ⟨hcap, (hother .oe (Ne.symm hoe)).trans hx, hduty⟩

/-- A frame drives CLK, OE and LE. -/
theorem Lines.Held.frm (h : ls.Held r) (hclk : r.isWired .clk = true) (hs : r.canSwitch = true) (f : Frame) :
    (ls.apply (.frm f)).Held r := by
  obtain ⟨hle, hoe⟩ := Regs.canSwitch_iff.mp hs
  refine ⟨h.driven, h.absent, fun m hm => ?_, h.doUnknown, nofun⟩
  cases m with
  | di | dout => exact h.undriven _ hm
  | clk => exact absurd (h.driven .clk nofun hclk) hm
  | le => exact absurd (h.driven .le nofun hle) hm
  | oe => exact absurd (h.driven .oe nofun hoe) hm

/-- A duty-cycle write on a capable pin. -/
theorem Lines.Held.pwm_write (h : ls.Held r) (hcap : r.pwmcap = true) (d : Byte) : (ls.apply (.pwm d)).Held r := by
  refine ⟨h.driven, h.absent, fun m hm => ?_, h.doUnknown, fun _ => ⟨hcap, rfl, nofun⟩⟩
  cases m with
  | oe => rfl
  | _ => exact h.undriven _ hm

end

/-! ### lists of events -/

/-- ALL shifts `16 * CHAIN` copies of its level (41 R116). -/
theorem allEvents_eq_bitsEvents (r : Regs) (level : Bool) :
    allEvents r level
      = bitsEvents (List.replicate (r.chain.toNat * 16) level) ++ whenWired (r.isWired .le) latchEvents := by
  have hwords : ∀ n, (List.replicate n (bitsEvents (List.replicate 16 level))).flatten
      = bitsEvents (List.replicate (n * 16) level) := by
    intro n
    induction n with
    | zero => rfl
    | succ n ih =>
      rw [List.replicate_succ, List.flatten_cons, ih, ← bitsEvents_append, List.replicate_append_replicate,
        Nat.succ_mul, Nat.add_comm]
  rw [allEvents, hwords]

/-- The events lead from lines as they are between commands to such lines again. -/
def Keeps (r : Regs) (es : List Event) : Prop := ∀ ls : Lines, ls.Parked r → (ls.applyAll es).Parked r

section
variable {r : Regs} {es fs : List Event}

theorem Keeps.nil : Keeps r [] := fun _ h => h

theorem Keeps.append (he : Keeps r es) (hf : Keeps r fs) : Keeps r (es ++ fs) := by
  intro ls h
  rw [Lines.applyAll_append]
  exact hf _ (he ls h)

theorem Keeps.guarded {c : Bool} (he : c = true → Keeps r es) (hf : Keeps r fs) : Keeps r (if c then es else fs) := by
  split
  next hc => exact he hc
  next => exact hf

theorem Keeps.whenWired {c : Bool} (h : c = true → Keeps r es) : Keeps r (whenWired c es) := .guarded h .nil

theorem Keeps.flatMap {α : Type} {g : α → List Event} (h : ∀ a, Keeps r (g a)) (as : List α) :
    Keeps r (as.flatMap g) := by
  induction as with
  | nil => exact .nil
  | cons a as ih =>
    rw [List.flatMap_cons]
    exact (h a).append ih

/-- An event that reaches no line. -/
theorem Keeps.silent {e : Event} (he : ∀ ls : Lines, ls.apply e = ls) : Keeps r [e] := by
  intro ls h
  change (ls.apply e).Parked r
  rwa [he]

theorem Keeps.warn (w : Warning) : Keeps r (warnEvents r w) := fun ls h => (Lines.applyAll_warnEvents ls r w).symm ▸ h

theorem Keeps.bit (hc : r.canShift = true) (b : Bool) : Keeps r (bitEvents b) := by
  obtain ⟨hdi, hclk⟩ := Regs.canShift_iff.mp hc
  intro ls h
  exact ⟨((h.held.drv (l := .di) nofun hdi b).drv (l := .clk) nofun hclk true).drv (l := .clk) nofun hclk false,
    fun _ => rfl, h.latchLow⟩

theorem Keeps.bits (hc : r.canShift = true) (bs : List Bool) : Keeps r (bitsEvents bs) := .flatMap (Keeps.bit hc) bs

theorem Keeps.latch (hle : r.isWired .le = true) : Keeps r latchEvents := fun _ h =>
  ⟨(h.held.drv (l := .le) nofun hle true).drv (l := .le) nofun hle false, h.clockLow, fun _ => rfl⟩

theorem Keeps.all (hc : r.canShift = true) (level : Bool) : Keeps r (allEvents r level) := by
  rw [allEvents_eq_bitsEvents]
  exact (Keeps.bits hc _).append (.whenWired .latch)

theorem Keeps.sendBits (hc : r.canShift = true) (count : Nat) (delay : BitVec 16) (bits : Word) :
    Keeps r (sendBitsEvents r count delay bits) := by
  have hlatch : Keeps r (Machine.whenWired (r.isWired .le) latchEvents) := .whenWired .latch
  unfold sendBitsEvents
  split
  · exact (Keeps.bits hc _).append hlatch
  · exact .flatMap (fun b => ((Keeps.bit hc b).append hlatch).append (.silent fun _ => rfl)) _

/-- Frames keep what holds within a command, and leave LE as their last one has it. -/
theorem Lines.Held.frames {ls : Lines} (h : ls.Held r) (hclk : r.isWired .clk = true) (hs : r.canSwitch = true)
    (fs : List Frame) : (ls.applyAll (fs.map Event.frm)).Held r := by
  induction fs generalizing ls with
  | nil => exact h
  | cons f fs ih => exact ih (h.frm hclk hs f)

/-- A table that ends with LE low leaves it low (42 R133). -/
theorem le_applyAll_frames {fs : List Frame} (hfs : endsLatchLow fs = true) {ls : Lines} (h : ls.lvl.le = .low) :
    (ls.applyAll (fs.map Event.frm)).lvl.le = .low := by
  cases fs using List.reverseRecOn with
  | nil => exact h
  | append_singleton front f =>
    have hlast : f.le = false := by simpa [endsLatchLow] using hfs
    rw [List.map_append, Lines.applyAll_append]
    exact congrArg levelOf hlast

theorem endsLatchLow_frames {ws : WaveTables} (h : ws.latchLow = true) (T : Table) : endsLatchLow (ws.frames T) = true := by
  simp only [WaveTables.latchLow, Bool.and_eq_true] at h
  obtain ⟨⟨⟨⟨htrans, hnormal⟩, hcfg⟩, hed⟩, hrr⟩ := h
  cases T <;> assumption

theorem Keeps.play (hc : r.canShift = true) (hs : r.canSwitch = true) {ws : WaveTables} (hws : ws.latchLow = true)
    (T : Table) : Keeps r (playEvents ws T) := by
  have hclk := (Regs.canShift_iff.mp hc).2
  have hle := (Regs.canSwitch_iff.mp hs).1
  intro ls h
  refine ⟨?_, fun _ => clk_applyAll_playEvents ls ws T, fun _ => ?_⟩ <;> rw [playEvents, Lines.applyAll_append]
  · exact (h.held.frames hclk hs _).drv (l := .clk) nofun hclk false
  · exact le_applyAll_frames (endsLatchLow_frames hws T) (h.latchLow hle)

theorem Keeps.read (hc : r.canShift = true) (samples : List Bool) : Keeps r (readEvents samples) := by
  have hclk := (Regs.canShift_iff.mp hc).2
  refine .flatMap (fun b ls h => ?_) samples
  exact ⟨(h.held.drv (l := .clk) nofun hclk true).drv (l := .clk) nofun hclk false, fun _ => rfl, h.latchLow⟩

/-- A direction event of OE or DO leaves CLK and LE. -/
theorem Keeps.dirOut {l : Line} (hl : r.isWired l = true) (h : l = .oe ∨ l = .dout) : Keeps r [.dirOut l] := by
  intro ls hp
  have hlvl : (ls.dirOut l).lvl.clk = ls.lvl.clk ∧ (ls.dirOut l).lvl.le = ls.lvl.le := by
    rw [Lines.dirOut]
    obtain rfl | rfl := h <;> split <;> exact ⟨rfl, rfl⟩
  exact ⟨hp.held.dirOut hl, fun hw => hlvl.1.trans (hp.clockLow hw), fun hw => hlvl.2.trans (hp.latchLow hw)⟩

theorem Keeps.dirIn_dout (hdo : r.isWired .dout = true) : Keeps r [.dirIn .dout] := fun _ h =>
  ⟨h.held.dirIn_dout hdo, h.clockLow, h.latchLow⟩

theorem Keeps.drv_di (hc : r.canShift = true) (v : Bool) : Keeps r [.drv .di v] := fun _ h =>
  ⟨h.held.drv (l := .di) nofun (Regs.canShift_iff.mp hc).1 v, h.clockLow, h.latchLow⟩

theorem Keeps.drv_oe (hoe : r.isWired .oe = true) (v : Bool) : Keeps r [.drv .oe v] := fun _ h =>
  ⟨h.held.drv (l := .oe) nofun hoe v, h.clockLow, h.latchLow⟩

theorem Keeps.oe (v : Bool) : Keeps r (oeEvents r v) :=
  .guarded (fun hoe => .guarded (fun _ => (Keeps.dirOut hoe (.inl rfl)).append (.drv_oe hoe v)) (.drv_oe hoe v)) (.warn _)

theorem Keeps.brightness (level : Byte) : Keeps r (brightnessEvents r level) :=
  .guarded (fun _ => .guarded (fun hcap _ h => ⟨h.held.pwm_write hcap _, h.clockLow, h.latchLow⟩) (.warn _)) (.warn _)

theorem Keeps.preload (hc : r.canShift = true) (hs : r.canSwitch = true) : Keeps r preloadEvents :=
  (Keeps.bits hc _).append (.latch (Regs.canSwitch_iff.mp hs).1)

theorem Keeps.flash (leaveOn : Bool) (bracket : BitVec 16) (onMs : BitVec 32) :
    Keeps r (flashEvents r leaveOn bracket onMs) := by
  have hwait : ∀ n, Keeps r [.ms n] := fun _ => .silent fun _ => rfl
  exact ((((((Keeps.oe true).append (hwait _)).append (.oe false)).append (hwait _)).append (.oe true)).append
    (hwait _)).append (.guarded (fun _ => .oe false) .nil)

end

/-! ### the commands that switch modes -/

section
variable {r : Regs} (hr : r.Sound)
include hr

/-- A wired line means an attached block, and so DI and CLK wired (10 R21). -/
theorem Regs.Sound.canShift_of_isWired {l : Line} (hl : r.isWired l = true) : r.canShift = true := by
  refine hr.attached fun h0 => ?_
  exact Bool.false_ne_true ((Regs.isWired_of_unwired (hr.unattached h0) l).symm.trans hl)

theorem Regs.Sound.canShift_of_canSwitch (hs : r.canSwitch = true) : r.canShift = true :=
  hr.canShift_of_isWired (Regs.canSwitch_iff.mp hs).1

theorem Keeps.switch (hs : r.canSwitch = true) (T : Table) : Keeps r (switchEvents r.par.tables T) :=
  have hc := hr.canShift_of_canSwitch hs
  (Keeps.play hc hs hr.tables .trans).append (.play hc hs hr.tables T)

theorem Keeps.config (hs : r.canSwitch = true) (cur band gain : Byte) : Keeps r (configEvents r cur band gain) :=
  have hc := hr.canShift_of_canSwitch hs
  ((((Keeps.preload hc hs).append (.switch hr hs _)).append (.bits hc _)).append
    (.latch (Regs.canSwitch_iff.mp hs).1)).append (.switch hr hs _)

theorem Keeps.errorDetect (hread : r.canRead = true) : Keeps r (errorDetectEvents r) := by
  obtain ⟨hs, hdo⟩ := Regs.canRead_iff.mp hread
  have hc := hr.canShift_of_canSwitch hs
  have hsettle : Keeps r [.us (settleUs r.par)] := .silent fun _ => rfl
  have hready : Keeps r [.dirIn .dout, .drv .di false] := (Keeps.dirIn_dout hdo).append (.drv_di hc false)
  exact (((((((Keeps.preload hc hs).append (.switch hr hs _)).append hsettle).append (.play hc hs hr.tables _)).append
    hready).append (.read hc _)).append (.dirOut hdo (.inr rfl))).append (.switch hr hs _)

theorem Keeps.reset (m : OeMode) : Keeps r (resetEvents r m) :=
  ((((((Keeps.whenWired fun h => .dirOut (Bool.and_eq_true_iff.mp h).1 (.inl rfl)).append
    (.whenWired fun hs => .switch hr hs _)).append (.whenWired fun _ => .oe true)).append
      (.whenWired fun hdo => .dirIn_dout hdo)).append (.guarded (fun hc => .all hc false) (.warn _))).append
        (.whenWired fun hs => .config hr hs _ _ _)).append (.whenWired fun _ => .oe false)

/-! ### every command -/

/-- Every command but a first ATTACH leads from lines as they are between commands to such lines again. -/
theorem Keeps.command {i : Instr} (hfirst : ∀ n ws, i = .attach n ws → r.chain ≠ 0#8) (m : OeMode) :
    Keeps r (commandEvents r m i) := by
  cases i with
  | attach n wires =>
    have hagain : (r.chain != 0#8) = true := bne_iff_ne.mpr (hfirst n wires rfl)
    simp only [commandEvents, if_pos hagain]
    exact .guarded (fun _ => .warn _) .nil
  | shift w => exact .guarded (fun hc => .bits hc _) (.warn _)
  | send w => exact .guarded (fun hc => (Keeps.bits hc _).append (.whenWired .latch)) (.warn _)
  | all level => exact .guarded (fun hc => .all hc level) (.warn _)
  | sendBits count delay bits => exact .guarded (fun _ => .guarded (fun hc => .sendBits hc _ delay bits) (.warn _)) .nil
  | latch => exact .guarded .latch (.warn _)
  | normal => exact .guarded (fun hs => .switch hr hs _) (.warn _)
  | errorDetect => exact .guarded (.errorDetect hr) (.warn _)
  | config cur band gain => exact .guarded (fun hs => .config hr hs cur band gain) (.warn _)
  | on => exact .oe false
  | off => exact .oe true
  | brightness level => exact .brightness level
  | reset => exact .reset hr m
  | flash leaveOn bracket onMs => exact .flash leaveOn bracket onMs

end

/-! ### what a command writes -/

/-- No command writes a parameter of the build or `DEBUG` (00 R7, 10 R23). -/
theorem commandRegs_par_debug (r : Regs) (i : Instr) :
    (commandRegs r i).par = r.par ∧ (commandRegs r i).debug = r.debug := by
  cases i with
  | attach n wires =>
    simp only [commandRegs]
    split
    · split <;> exact ⟨rfl, rfl⟩
    · exact ⟨rfl, rfl⟩
  | sendBits count delay bits => simp only [commandRegs]; split <;> exact ⟨rfl, rfl⟩
  | errorDetect => simp only [commandRegs]; split <;> exact ⟨rfl, rfl⟩
  | _ => exact ⟨rfl, rfl⟩

/-- Only a first ATTACH writes `CHAIN`, `WIRED` and `PWMCAP` (40 R100, R103). -/
theorem commandRegs_wiring {r : Regs} {i : Instr} (hfirst : ∀ n ws, i = .attach n ws → r.chain ≠ 0#8) :
    (commandRegs r i).chain = r.chain ∧ (commandRegs r i).wired = r.wired ∧ (commandRegs r i).pwmcap = r.pwmcap := by
  cases i with
  | attach n wires =>
    have hagain : (r.chain != 0#8) = true := bne_iff_ne.mpr (hfirst n wires rfl)
    simp only [commandRegs, if_pos hagain]
    split <;> exact ⟨rfl, rfl, rfl⟩
  | sendBits count delay bits => simp only [commandRegs]; split <;> exact ⟨rfl, rfl, rfl⟩
  | errorDetect => simp only [commandRegs]; split <;> exact ⟨rfl, rfl, rfl⟩
  | _ => exact ⟨rfl, rfl, rfl⟩

theorem Regs.Sound.commandMode {r : Regs} (h : r.Sound) (i : Instr) :
    Machine.commandMode r i = .unknown ∨ Machine.commandMode r i = .normal := by
  obtain hnormal | hself := commandMode_eq_normal_or_self r i
  · exact .inr hnormal
  · rw [hself]
    exact h.mode

theorem Regs.Sound.command {r : Regs} {i : Instr} (h : r.Sound) (hfirst : ∀ n ws, i = .attach n ws → r.chain ≠ 0#8) :
    (commandRegs r i).Sound := by
  obtain ⟨hchain, hwired, hcap⟩ := commandRegs_wiring hfirst
  obtain ⟨hpar, -⟩ := commandRegs_par_debug r i
  have hisWired : (commandRegs r i).isWired = r.isWired := by funext l; rw [Regs.isWired, hwired, Regs.isWired]
  refine ⟨?_, ?_, ?_, ?_, ?_⟩
  · rw [commandRegs_mode]
    exact h.commandMode i
  · rw [hchain, hwired]
    exact h.unattached
  · rw [hchain, Regs.canShift, hisWired]
    exact h.attached
  · rw [hcap, hisWired]
    exact h.capable
  · rw [hpar]
    exact h.tables

/-! ### the first ATTACH -/

section
variable {r : Regs} {ls : Lines} {n : BitVec 8} {wires : BitVec 5}

/-- Before the first ATTACH no line is configured, and so none has a level (10 R28, 70 R230). -/
theorem Lines.Parked.of_unattached (h : ls.Parked r) (hr : r.Sound) (hchain : r.chain = 0#8) :
    ls = { State.reset.lines with duty := ls.duty } := by
  have hunwired := Regs.isWired_of_unwired (hr.unattached hchain)
  have hdir : ∀ l, ls.dir.get l = .uncfg := fun l => h.held.absent l (hunwired l)
  have hlvl : ∀ l, ls.lvl.get l = .x := fun l => h.held.undriven l (by rw [hdir]; nofun)
  have hoem : ls.oem = .dig := by
    cases hm : ls.oem with
    | dig => rfl
    | pwm => exact absurd (hr.capable (h.held.pwm hm).1) (Bool.eq_false_iff.mp (hunwired .oe))
  have hdirs : ls.dir = ⟨.uncfg, .uncfg, .uncfg, .uncfg, .uncfg⟩ :=
    congr (congr (congr (congr (congrArg PerLine.mk (hdir .di)) (hdir .clk)) (hdir .le)) (hdir .oe)) (hdir .dout)
  have hlvls : ls.lvl = ⟨.x, .x, .x, .x, .x⟩ :=
    congr (congr (congr (congr (congrArg PerLine.mk (hlvl .di)) (hlvl .clk)) (hlvl .le)) (hlvl .oe)) (hlvl .dout)
  calc
    ls = ⟨ls.dir, ls.lvl, ls.oem, ls.duty⟩ := rfl
    _ = { State.reset.lines with duty := ls.duty } := by rw [hdirs, hlvls, hoem]; rfl

/-- The lines after a first ATTACH (40 R100, R104, R105). -/
def attachedLines (wires : BitVec 5) (duty : Duty) : Lines where
  dir := ⟨.out, .out, if wires.getLsbD 2 then .out else .uncfg, if wires.getLsbD 3 then .out else .uncfg,
    if wires.getLsbD 4 then .inp else .uncfg⟩
  lvl := ⟨.x, .low, if wires.getLsbD 2 then .low else .x, if wires.getLsbD 3 then .low else .x, .x⟩
  oem := .dig
  duty := duty

theorem applyAll_attachEvents (wires : BitVec 5) (capable : Bool) (duty : Duty) :
    Lines.applyAll { State.reset.lines with duty := duty } (attachEvents wires capable) = attachedLines wires duty := by
  unfold attachEvents attachedLines
  cases wires.getLsbD 2 <;> cases wires.getLsbD 3 <;> cases wires.getLsbD 4 <;> rfl

theorem attachedLines_parked (hrange : attachInRange n wires = true) (duty : Duty) :
    (attachedLines wires duty).Parked (r.afterAttach n wires) := by
  obtain ⟨-, hdi, hclk⟩ := attachInRange_iff.mp hrange
  have hwired : ∀ l, (r.afterAttach n wires).isWired l = wires.getLsbD (lineBit l) := fun _ => rfl
  refine ⟨⟨fun l hl hw => ?_, fun l hw => ?_, fun l hdir => ?_, rfl, nofun⟩, fun _ => rfl, fun hw => if_pos hw⟩
  · rw [hwired] at hw
    cases l with
    | di | clk => rfl
    | le | oe => exact if_pos hw
    | dout => exact absurd rfl hl
  · rw [hwired] at hw
    cases l with
    | di => exact absurd hdi (Bool.eq_false_iff.mp hw)
    | clk => exact absurd hclk (Bool.eq_false_iff.mp hw)
    | le | oe | dout => exact if_neg (Bool.eq_false_iff.mp hw)
  · cases l with
    | di | clk => exact absurd rfl hdir
    | le | oe => exact if_neg fun hw => hdir (if_pos hw)
    | dout => rfl

theorem Regs.Sound.afterAttach (h : r.Sound) (hchain : r.chain = 0#8) (hrange : attachInRange n wires = true) :
    (r.afterAttach n wires).Sound := by
  obtain ⟨hn, hdi, hclk⟩ := attachInRange_iff.mp hrange
  refine ⟨h.mode, fun h0 => absurd h0 hn, fun _ => Regs.canShift_iff.mpr ⟨hdi, hclk⟩, fun hcap => ?_, h.tables⟩
  by_cases hoe : wires.getLsbD 3 = true
  · exact hoe
  · have hbefore : r.pwmcap = true := (if_neg hoe).symm.trans hcap
    exact absurd (h.capable hbefore) (Bool.eq_false_iff.mp (Regs.isWired_of_unwired (h.unattached hchain) .oe))

end

/-! ### every command and every step -/

/-- A first ATTACH in range keeps the invariant. -/
theorem Ran.inv_of_attach {s t : State} {n : BitVec 8} {wires : BitVec 5} (h : s.Inv)
    (hrange : attachInRange n wires = true) (hchain : s.chain = 0#8)
    (hran : Ran s (attachEvents wires s.par.oePwmCapable) (s.regs.afterAttach n wires) t) : t.Inv := by
  obtain ⟨-, hr, hl⟩ := State.inv_iff.mp h
  refine State.inv_iff.mpr ⟨hran.phase, hran.regs ▸ hr.afterAttach hchain hrange, ?_⟩
  rw [hran.regs, hran.lines, hl.of_unattached hr hchain, applyAll_attachEvents]
  exact attachedLines_parked hrange _

/-- Any other command with its operands in range keeps it too. -/
theorem Ran.inv_of_command {s t : State} {i : Instr} (h : s.Inv) (hfirst : ∀ n ws, i = .attach n ws → s.chain ≠ 0#8)
    (hran : Ran s (commandEvents s.regs s.lines.oem i) (commandRegs s.regs i) t) : t.Inv := by
  obtain ⟨-, hr, hl⟩ := State.inv_iff.mp h
  obtain ⟨-, hwired, hcap⟩ := commandRegs_wiring (r := s.regs) hfirst
  refine State.inv_iff.mpr ⟨hran.phase, hran.regs ▸ hr.command hfirst, ?_⟩
  rw [hran.regs, hran.lines]
  exact (Keeps.command hr hfirst s.lines.oem s.lines hl).of_regs hwired hcap

theorem State.Inv.raiseFault {s : State} (h : s.Inv) (c : FaultCause) : (s.raiseFault c).Inv := by
  obtain ⟨hidle, hr, hl⟩ := State.inv_iff.mp h
  exact State.inv_iff.mpr ⟨hidle, ⟨hr.mode, hr.unattached, hr.attached, hr.capable, hr.tables⟩, hl.of_regs rfl rfl⟩

/-- Accepting a word leaves everything the invariant speaks of (30 R70). -/
theorem State.Inv.accept {s : State} (h : s.Inv) (rest : List Cmd) : State.Inv { s with pending := rest } := by
  obtain ⟨hidle, hr, hl⟩ := State.inv_iff.mp h
  exact State.inv_iff.mpr ⟨hidle, ⟨hr.mode, hr.unattached, hr.attached, hr.capable, hr.tables⟩, hl.of_regs rfl rfl⟩

/-- Every command keeps the invariant. -/
theorem State.Inv.exec {i : Instr} {s t : State} (h : s.Inv) (hx : exec i s = .next t) : t.Inv := by
  cases hi : i.wellFormed with
  | false =>
    obtain rfl := Host.Outcome.next.inj ((exec_of_not_wellFormed hi s).symm.trans hx)
    exact h.raiseFault .operandRange
  | true =>
    by_cases hattach : s.chain = 0#8 ∧ ∃ n wires, i = .attach n wires
    · obtain ⟨hchain, n, wires, rfl⟩ := hattach
      obtain ⟨u, hu, hran⟩ := exec_attach_first hi hchain
      obtain rfl := Host.Outcome.next.inj (hu.symm.trans hx)
      exact hran.inv_of_attach h hi hchain
    · obtain ⟨u, hu, hran⟩ := exec_ran hi s
      obtain rfl := Host.Outcome.next.inj (hu.symm.trans hx)
      exact hran.inv_of_command h fun n wires hw hchain => hattach ⟨hchain, n, wires, hw⟩

/-- Settles O47: every step keeps the invariant, since waiting, a fault and every command do. -/
theorem everyStepKeepsTheInvariant : Obligations.EveryStepKeepsTheInvariant := by
  intro s t h hstep
  obtain ⟨-, rfl⟩ | ⟨w, rest, -, ⟨c, -, rfl⟩ | ⟨i, -, hx⟩⟩ := step_cases hstep
  · exact h
  · exact (h.accept rest).raiseFault c
  · exact (h.accept rest).exec hx

/-- Settles O46: at power-on no line is wired or configured, and the default tables end with LE low (43 R140 to R144, 70
R230). -/
theorem invariantHoldsAtPowerOn : Obligations.InvariantHoldsAtPowerOn := by
  have hr : State.reset.regs.Sound := ⟨.inl rfl, fun _ => rfl, fun h => absurd rfl h, nofun, by decide⟩
  have hwired : ∀ l, State.reset.regs.isWired l = false := Regs.isWired_of_unwired rfl
  have habsent : ∀ {l}, ¬ State.reset.regs.isWired l = true := fun {l} => Bool.eq_false_iff.mp (hwired l)
  refine State.inv_iff.mpr ⟨rfl, hr, ⟨fun l _ hl => absurd hl habsent, fun l _ => ?_, fun l _ => ?_, rfl, nofun⟩,
    fun hl => absurd hl habsent, fun hl => absurd hl habsent⟩ <;> cases l <;> rfl

end Sys2Proof.Machine
end

section
/-! The family other: what a step does with the word it accepts, the state at power-on (70 R230), and the registers that no
step writes (10_state section 1, 40 R103, 70 R234). -/

namespace Sys2Proof.Machine

/-! ### the step -/

/-- Settles O8: a step runs the command of the word it accepts (10_state section 3). -/
theorem stepRunsTheDecodedCommand : Obligations.StepRunsTheDecodedCommand := fun _ _ _ _ hp hd =>
  (step_of_pending hp).trans (runWord_of_ok hd _)

/-- Settles O9: with no word waiting a step answers the same state (70 R231). -/
theorem idleBlockWaits : Obligations.IdleBlockWaits := by
  intro s hp
  rw [step, State.acceptCommand_nil hp]

/-- Settles O12: the range check comes first, and it takes the fault alone (30 R79). -/
theorem sendBitsOutOfRangeFaults : Obligations.SendBitsOutOfRangeFaults := fun _ delay bits s h =>
  exec_of_not_wellFormed (sendBits_wellFormed_eq_false h delay bits) s

/-- Settles O13: every command ends (60 R210). -/
theorem everyCommandCompletes : Obligations.EveryCommandCompletes := fun i s =>
  (exec_next i s).imp fun _ h => h.1

/-! ### power-on -/

/-- Settles O14: each register has its reset value, and no line is configured (70 R230). -/
theorem powerOnState : Obligations.PowerOnState := by
  have hdir : ∀ l, State.reset.lines.dir.get l = .uncfg := fun l => by cases l <;> rfl
  have hlvl : ∀ l, State.reset.lines.lvl.get l = .x := fun l => by cases l <;> rfl
  exact ⟨rfl, rfl, rfl, rfl, rfl, rfl, rfl, hdir, hlvl, rfl, rfl, rfl, rfl⟩

/-! ### the registers that stay -/

/-- The registers after a step: those before it but for the command port and the fault, or those the command leaves. -/
theorem step_regs {s t : State} (h : step s = .next t) :
    (∃ rest fault, t.regs = { s.regs with pending := rest, fault := fault })
    ∨ ∃ i rest, t.regs = commandRegs { s.regs with pending := rest } i := by
  obtain ⟨-, rfl⟩ | ⟨w, rest, -, ⟨c, -, rfl⟩ | ⟨i, -, hx⟩⟩ := step_cases h
  · exact .inl ⟨t.pending, t.fault, rfl⟩
  · exact .inl ⟨rest, faultAfter s.fault c, rfl⟩
  · exact .inr ⟨i, rest, (exec_does hx).regs⟩

/-- Settles O17: ATTACH is the only command that writes these registers, and on an attached block it only warns (40 R102,
R103, 70 R234). -/
theorem attachHappensOnce : Obligations.AttachHappensOnce := by
  intro s t (hchain : s.regs.chain ≠ 0#8) h
  suffices hregs : t.regs.chain = s.regs.chain ∧ t.regs.wired = s.regs.wired ∧ t.regs.pwmcap = s.regs.pwmcap from hregs
  obtain ⟨rest, fault, ht⟩ | ⟨i, rest, ht⟩ := step_regs h <;> rw [ht]
  · exact ⟨rfl, rfl, rfl⟩
  · exact commandRegs_wiring fun _ _ _ => hchain

/-- Settles O55: neither a command nor a fault writes `DEBUG` or a parameter (10 R23, 20 R52). -/
theorem parametersNeverChange : Obligations.ParametersNeverChange := by
  intro s t h
  suffices hregs : t.regs.debug = s.regs.debug ∧ t.regs.par = s.regs.par from hregs
  obtain ⟨rest, fault, ht⟩ | ⟨i, rest, ht⟩ := step_regs h <;> rw [ht]
  · exact ⟨rfl, rfl⟩
  · exact (commandRegs_par_debug _ i).symm

end Sys2Proof.Machine
end

section
/-! The family other: each command uses the micro-registers of its own sequence alone (10 R33, log entry 8). -/

namespace Sys2Proof.Machine

/-- `FIDX`, `BIDX`, `WIDX` and `ACC` of a state (10 R33). -/
def State.micro (s : State) : BitVec 3 × BitVec 4 × BitVec 8 × Word := (s.fidx, s.bidx, s.widx, s.acc)

/-! ### the bodies of the commands -/

@[simp] theorem State.emit_micro (s : State) (e : Event) : (s.emit e).micro = s.micro := rfl
@[simp] theorem State.leave_micro (s : State) : s.leave.micro = s.micro := rfl

@[simp] theorem State.warn_micro (s : State) (w : Warning) : (s.warn w).micro = s.micro := by
  unfold State.warn; split <;> rfl

theorem latchPulse_micro (s : State) : (latchPulse s).micro = s.micro := by
  unfold latchPulse
  split
  · rfl
  · exact State.warn_micro s _

theorem attachLe_micro (s : State) : (attachLe s).micro = s.micro := by unfold attachLe; split <;> rfl
theorem attachOe_micro (s : State) : (attachOe s).micro = s.micro := by unfold attachOe; split <;> rfl
theorem attachDo_micro (s : State) : (attachDo s).micro = s.micro := by unfold attachDo; split <;> rfl

theorem attachBody_micro (n : BitVec 8) (wires : BitVec 5) (s : State) : (attachBody n wires s).micro = s.micro := by
  unfold attachBody
  split
  · exact State.warn_micro s _
  · rw [attachDo_micro, attachOe_micro, attachLe_micro]
    rfl

theorem brightnessBody_micro (level : Byte) (s : State) : (brightnessBody level s).micro = s.micro := by
  unfold brightnessBody
  split
  · split
    · rfl
    · exact State.warn_micro s _
  · exact State.warn_micro s _

theorem driveOe_micro_eq (v : Bool) (s : State) : (driveOe v s).micro = s.micro := by
  obtain ⟨hfidx, hbidx, hwidx, hacc⟩ := driveOe_micro v s
  simp only [State.micro, hfidx, hbidx, hwidx, hacc]

@[simp] theorem waitMs_micro (n : Nat) (s : State) : (waitMs n s).micro = s.micro := rfl

theorem flashBody_micro (leaveOn : Bool) (bracket : BitVec 16) (onMs : BitVec 32) (s : State) :
    (flashBody leaveOn bracket onMs s).micro = s.micro := by
  unfold flashBody
  split <;> simp only [onOp, offOp, waitMs_micro, driveOe_micro_eq]

/-- SHIFT uses `BIDX` alone (41 R110). -/
theorem shiftBody_micro (w : Word) (s : State) :
    (shiftBody w s).fidx = s.fidx ∧ (shiftBody w s).widx = s.widx ∧ (shiftBody w s).acc = s.acc := by
  unfold shiftBody
  split <;> simp

theorem sendBody_micro (w : Word) (s : State) :
    (sendBody w s).fidx = s.fidx ∧ (sendBody w s).widx = s.widx ∧ (sendBody w s).acc = s.acc := by
  unfold sendBody
  split <;> simp

theorem sendBitsBody_micro (count : BitVec 5) (delay : BitVec 16) (bits : Word) (s : State) :
    (sendBitsBody count delay bits s).fidx = s.fidx ∧ (sendBitsBody count delay bits s).widx = s.widx
      ∧ (sendBitsBody count delay bits s).acc = s.acc := by
  have hloop := sendBitsLoop_micro delay bits count.toNat s
  unfold sendBitsBody
  split
  · split <;> simpa using hloop
  · simp

/-- ALL uses `BIDX` and `WIDX` (41 R116). -/
theorem allBody_micro (level : Bool) (s : State) :
    (allBody level s).fidx = s.fidx ∧ (allBody level s).acc = s.acc := by
  have hloop := shiftWords_micro (fillWord level) s.chain.toNat { s.enter .shift with widx := 0#8 }
  unfold allBody
  split
  · simpa using hloop
  · simp

theorem preload_micro (s : State) : (preload s).widx = s.widx ∧ (preload s).acc = s.acc := by simp [preload]

/-- CONFIG uses `FIDX` and `BIDX` (45 R180). -/
theorem configBody_micro (cur band gain : Byte) (s : State) :
    (configBody cur band gain s).widx = s.widx ∧ (configBody cur band gain s).acc = s.acc := by
  unfold configBody
  split
  · simp [configRun, preload_micro]
  · simp

theorem readback_widx (s : State) : (readback s).widx = s.widx := by
  rw [readback, State.dropBidx_widx]
  exact (readLoop_micro 0 16 _).2

/-- ERROR_DETECT uses every micro-register but `WIDX` (44 R160, R165). -/
theorem errorDetectBody_widx (s : State) : (errorDetectBody s).widx = s.widx := by
  unfold errorDetectBody
  split
  · simp [errorDetectRun, returnResult, readback_widx, readbackReady, settle, preload_micro]
  · exact State.warn_widx s _

theorem onlyIf_acc {c : State → Bool} {f : State → State} (h : ∀ s, (f s).acc = s.acc) (s : State) :
    (onlyIf c f s).acc = s.acc := by
  unfold onlyIf
  split
  · exact h s
  · rfl

theorem driveOe_acc (v : Bool) (s : State) : (driveOe v s).acc = s.acc := (driveOe_micro v s).2.2.2

/-- RESET uses every micro-register but `ACC` (47 R200). -/
theorem resetBody_acc (s : State) : (resetBody s).acc = s.acc := by
  unfold resetBody
  rw [onlyIf_acc (f := onOp) (driveOe_acc false), onlyIf_acc fun s => (configBody_micro _ _ _ s).2,
    (allBody_micro false _).2, onlyIf_acc fun s => State.emit_acc s (.dirIn .dout),
    onlyIf_acc (f := offOp) (driveOe_acc true), onlyIf_acc normalMode_acc]
  exact onlyIf_acc (fun s => State.emit_acc s (.dirOut .oe)) s

/-! ### every command -/

/-- The commands whose sequence uses none of the four. -/
def UsesNoMicroRegister : Instr → Prop
  | .attach _ _ | .latch | .on | .off | .brightness _ | .flash _ _ _ => True
  | _ => False

theorem exec_micro {i : Instr} {s t : State} (h : exec i s = .next t) (hi : UsesNoMicroRegister i) :
    t.micro = s.micro := by
  cases i with
  | attach n wires =>
    obtain rfl := Host.Outcome.next.inj h
    split
    · exact attachBody_micro n wires s
    · rfl
  | latch => exact Host.Outcome.next.inj h ▸ latchPulse_micro (s.enter .latch)
  | on => exact Host.Outcome.next.inj h ▸ driveOe_micro_eq false s
  | off => exact Host.Outcome.next.inj h ▸ driveOe_micro_eq true s
  | brightness level => exact Host.Outcome.next.inj h ▸ brightnessBody_micro level s
  | flash leaveOn bracket onMs => exact Host.Outcome.next.inj h ▸ flashBody_micro leaveOn bracket onMs s
  | _ => exact hi.elim

/-- What `MicroRegistersFrame` says of a command that uses none of the four. -/
theorem State.micro_eq_iff {s t : State} :
    t.micro = s.micro ↔ t.fidx = s.fidx ∧ t.bidx = s.bidx ∧ t.widx = s.widx ∧ t.acc = s.acc := by
  simp only [State.micro, Prod.mk.injEq]

/-- Settles O56: a command leaves the micro-registers that its sequence does not use (10_state section 3, log entry 8). -/
theorem microRegistersFrame : Obligations.MicroRegistersFrame := by
  intro i s t h
  have hnone := fun hi => State.micro_eq_iff.mp (exec_micro h hi)
  cases i with
  | attach | latch | on | off | brightness | flash =>
    obtain ⟨hfidx, hbidx, hwidx, hacc⟩ := hnone trivial
    exact ⟨fun _ => hfidx, fun _ => hbidx, fun _ => hwidx, fun _ => hacc⟩
  | shift w =>
    obtain rfl := Host.Outcome.next.inj h
    obtain ⟨hfidx, hwidx, hacc⟩ := shiftBody_micro w s
    exact ⟨fun _ => hfidx, False.elim, fun _ => hwidx, fun _ => hacc⟩
  | send w =>
    obtain rfl := Host.Outcome.next.inj h
    obtain ⟨hfidx, hwidx, hacc⟩ := sendBody_micro w s
    exact ⟨fun _ => hfidx, False.elim, fun _ => hwidx, fun _ => hacc⟩
  | sendBits count delay bits =>
    by_cases hrange : countInRange count = true
    · rw [exec, execSendBits, if_pos hrange] at h
      obtain rfl := Host.Outcome.next.inj h
      obtain ⟨hfidx, hwidx, hacc⟩ := sendBitsBody_micro count delay bits s
      exact ⟨fun _ => (State.leave_fidx _).trans hfidx, False.elim, fun _ => (State.leave_widx _).trans hwidx,
        fun _ => (State.leave_acc _).trans hacc⟩
    · rw [exec, execSendBits, if_neg hrange] at h
      obtain rfl := Host.Outcome.next.inj h
      exact ⟨fun _ => rfl, False.elim, fun _ => rfl, fun _ => rfl⟩
  | all level =>
    obtain rfl := Host.Outcome.next.inj h
    obtain ⟨hfidx, hacc⟩ := allBody_micro level s
    exact ⟨fun _ => hfidx, False.elim, False.elim, fun _ => hacc⟩
  | normal =>
    obtain rfl := Host.Outcome.next.inj h
    exact ⟨False.elim, fun _ => normalMode_bidx s, fun _ => normalMode_widx s, fun _ => normalMode_acc s⟩
  | errorDetect =>
    obtain rfl := Host.Outcome.next.inj h
    exact ⟨False.elim, False.elim, fun _ => (State.leave_widx _).trans (errorDetectBody_widx s),
      fun hne => absurd rfl hne⟩
  | config cur band gain =>
    obtain rfl := Host.Outcome.next.inj h
    obtain ⟨hwidx, hacc⟩ := configBody_micro cur band gain s
    exact ⟨False.elim, False.elim, fun _ => hwidx, fun _ => hacc⟩
  | reset =>
    obtain rfl := Host.Outcome.next.inj h
    exact ⟨False.elim, False.elim, False.elim, fun _ => resetBody_acc s⟩

end Sys2Proof.Machine
end

section
/-! The family other: SEND_BITS as SEND (41_shift section 2), OE after the mode commands (70 R248), and the events that
ERROR_DETECT, CONFIG and RESET emit with the default tables. -/

namespace Sys2Proof.Machine

/-! ### SEND_BITS of 16 bits -/

/-- Sixteen selected bits are the word's bits (20 R53, R54). -/
theorem selectedBits_sixteen (bits : Word) : selectedBits 16 bits = wordBits bits := rfl

theorem sendBitsEvents_sixteen (r : Regs) (bits : Word) :
    sendBitsEvents r 16 0#16 bits = bitsEvents (wordBits bits) ++ whenWired (r.isWired .le) latchEvents := by
  rw [sendBitsEvents, if_pos rfl, selectedBits_sixteen]

/-- Settles O22: both commands emit the word's 16 bits and one latch, under the same guard (41 R115, R117). -/
theorem sixteenBitsWithoutDelayIsSend : Obligations.SixteenBitsWithoutDelayIsSend := by
  intro bits s
  obtain ⟨t, ht, hbits⟩ := exec_sendBits_ran (count := 16#5) (by decide) 0#16 bits s
  obtain ⟨u, hu, hsend⟩ := exec_send_ran bits s
  have hcount : (16#5).toNat = 16 := rfl
  rw [hcount, sendBitsEvents_sixteen] at hbits
  exact ⟨t, u, ht, hu, hbits.trace.trans hsend.trace.symm, hbits.lines.trans hsend.lines.symm,
    hbits.regs.trans hsend.regs.symm⟩

/-! ### OE after the mode commands -/

/-- NORMAL, CONFIG and ERROR_DETECT leave OE at the level of the last frame of the Normal table (70 R248). -/
theorem exec_modeCommand_oe {i : Instr} {s t : State} (hs : s.regs.canSwitch = true)
    (hi : i = .normal ∨ (∃ cur band gain, i = .config cur band gain)
      ∨ (i = .errorDetect ∧ s.regs.isWired .dout = true))
    (h : exec i s = .next t) {f : Frame} (hf : s.par.tables.normal.getLast? = some f) : t.lines.OeDriven f.oe := by
  obtain ⟨before, hevents⟩ := commandEvents_ends_switch_normal hs s.lines.oem hi
  have hlast : (s.par.tables.trans ++ s.par.tables.frames .normal).getLast? = some f := by
    rw [List.getLast?_append]
    exact Option.or_eq_some_iff.mpr (.inl hf)
  rw [(exec_does h).lines, hevents, Lines.applyAll_append]
  exact .switchEvents hlast _

/-- ON brings a wired OE to 0 (46 R190). -/
theorem exec_on_oe_low {s : State} (hoe : s.regs.isWired .oe = true) :
    ∃ t, exec .on s = .next t ∧ t.lines.lvl.oe = .low := by
  obtain ⟨t, ht, hran⟩ := exec_ran (i := .on) rfl s
  refine ⟨t, ht, ?_⟩
  rw [hran.lines]
  exact (Lines.OeDriven.oeEvents hoe s.lines false).level

/-- Settles O30: the last frame played is the Normal table's, which is dark with the default tables, and ON comes after it
(70 R248). -/
theorem outputsAreDarkAfterModeCommand : Obligations.OutputsAreDarkAfterModeCommand := by
  intro i s t hi hs hdo h
  have hcommand : i = .normal ∨ (∃ cur band gain, i = .config cur band gain)
      ∨ (i = .errorDetect ∧ s.regs.isWired .dout = true) := hi.imp_right (Or.imp_right fun he => ⟨he, hdo he⟩)
  have hlevel : ∀ f, s.par.tables.normal.getLast? = some f → t.lines.lvl.oe = levelOf f.oe :=
    fun f hf => (exec_modeCommand_oe hs hcommand h hf).level
  refine ⟨fun htables => hlevel (frame false true false) (by rw [htables]; rfl), hlevel, exec_on_oe_low ?_⟩
  have hwired : t.regs.wired = s.regs.wired := by
    rw [(exec_does h).regs]
    refine (commandRegs_wiring fun n ws hattach => ?_).2.1
    subst hattach
    obtain hi | ⟨_, _, _, hi⟩ | hi := hi <;> cases hi
  rw [Regs.isWired, hwired]
  exact (Regs.canSwitch_iff.mp hs).2

/-! ### the events counted -/

/-- The fill of ALL is 16 pulses for each chip (41 R116). -/
theorem Pulses.all (r : Regs) (level : Bool) : Pulses (r.chain.toNat * 16) (allEvents r level) := by
  have hfill := Pulses.bits (List.replicate (r.chain.toNat * 16) level)
  rw [List.length_replicate] at hfill
  have hlatch : Pulses 0 (whenWired (r.isWired .le) latchEvents) := by
    cases r.isWired .le
    · exact .nil
    · exact .latch
  rw [allEvents_eq_bitsEvents]
  exact hfill.append hlatch

/-- With the default tables and one chip, 5 pulses of the switch, 16 of the fill and 42 of CONFIG; driving OE and releasing
DO move no clock (47 R200). -/
theorem Pulses.reset_standard {r : Regs} (htables : r.par.tables = standardTables) (h : r.wired = 0b11111#5)
    (hchain : r.chain = 1#8) (hcap : r.pwmcap = false) : Pulses 63 (resetEvents r .dig) := by
  have hswitch := Pulses.switch_standard .normal
  rw [← htables] at hswitch
  have hfill := Pulses.all r false
  rw [hchain] at hfill
  have hdrive : ∀ v, Pulses 0 [.drv .oe v] := fun _ => .still fun _ => rfl
  have hrelease : Pulses 0 [.dirIn .dout] := .still fun _ => rfl
  rw [resetEvents_of_all_wired h hcap]
  exact ((((hswitch.append (hdrive true)).append hrelease).append hfill).append
    (.config_standard htables 0#8 0#8 127#8)).append (hdrive false)

/-- The events of a command's trace are the command's. -/
theorem events_of_exec {i : Instr} {s t : State} {es : List Event} (h : exec i s = .next t)
    (htrace : t.trace = s.trace ++ es) : es = commandEvents s.regs s.lines.oem i :=
  List.append_cancel_left (htrace.symm.trans (exec_does h).trace)

/-- Settles O35: the events and the rising edges of the three commands with the default tables, all lines wired (44 R160, 45
R180, 47 R200). -/
theorem eventCounts : Obligations.EventCounts := by
  intro i s t es htables hclk (hwired : s.regs.wired = 0b11111#5) h htrace
  have hw := Regs.isWired_of_all_wired hwired
  have hs : s.regs.canSwitch = true := Regs.canSwitch_iff.mpr ⟨hw .le, hw .oe⟩
  rw [events_of_exec h htrace]
  refine ⟨?_, ?_, ?_⟩
  · rintro rfl
    rw [commandEvents, if_pos (Regs.canRead_iff.mpr ⟨hs, hw .dout⟩)]
    exact ⟨length_errorDetectEvents_standard htables, (Pulses.errorDetect_standard htables s.lines hclk).1⟩
  · rintro ⟨cur, band, gain, rfl⟩
    rw [commandEvents, if_pos hs]
    exact ⟨length_configEvents_standard htables cur band gain,
      (Pulses.config_standard htables cur band gain s.lines hclk).1⟩
  · rintro rfl hchain hcap hoem
    rw [commandEvents, hoem]
    exact ⟨length_resetEvents_standard htables hwired hchain hcap,
      (Pulses.reset_standard htables hwired hchain hcap s.lines hclk).1⟩

end Sys2Proof.Machine
end

section
/-! The family other: the settling time of ERROR_DETECT (70 R241, 44 R162, log entry 16), and DO after it (44 R167, 70
R247). -/

namespace Sys2Proof.Machine

/-! ### the waits of a stamped trace -/

/-- A host that meets the waits stamps each event no earlier than the one before it asks (70 R241). -/
theorem hostMeetsWaits_getElem? {l : List (Event × Nat)} (h : hostMeetsWaits l = true) {j : Nat} {e e' : Event}
    {a b : Nat} (ha : l[j]? = some (e, a)) (hb : l[j + 1]? = some (e', b)) : a + e.waitUs.getD 0 ≤ b := by
  induction l generalizing j with
  | nil => cases ha
  | cons first rest ih =>
    cases rest with
    | nil => cases hb
    | cons second rest =>
      obtain ⟨hwait, hrest⟩ := Bool.and_eq_true_iff.mp h
      cases j with
      | zero =>
        obtain rfl := Option.some.inj ha
        obtain rfl := Option.some.inj hb
        exact of_decide_eq_true hwait
      | succ j => exact ih hrest ha hb

/-- A wait between two events keeps their stamps that far apart. -/
theorem stamps_apart {es : List Event} {stamps : List Nat} (hlen : stamps.length = es.length)
    (h : hostMeetsWaits (es.zip stamps) = true) {k n : Nat} {e e' : Event} (he : es[k]? = some e)
    (hwait : es[k + 1]? = some (.us n)) (he' : es[k + 2]? = some e') :
    ∃ a b, stamps[k]? = some a ∧ stamps[k + 2]? = some b ∧ a + n ≤ b := by
  have hstamp : ∀ {j : Nat} {e : Event}, es[j]? = some e →
      ∃ a, stamps[j]? = some a ∧ (es.zip stamps)[j]? = some (e, a) := by
    intro j e hj
    obtain ⟨hlt, -⟩ := List.getElem?_eq_some_iff.mp hj
    have ha := List.getElem?_eq_getElem (hlen ▸ hlt)
    exact ⟨_, ha, List.getElem?_zip_eq_some.mpr ⟨hj, ha⟩⟩
  obtain ⟨a, ha, hza⟩ := hstamp he
  obtain ⟨c, -, hzc⟩ := hstamp hwait
  obtain ⟨b, hb, hzb⟩ := hstamp he'
  have hfirst : a ≤ c := Nat.le_of_add_right_le (hostMeetsWaits_getElem? h hza hzc)
  have hsecond : c + n ≤ b := hostMeetsWaits_getElem? h hzc hzb
  exact ⟨a, b, ha, hb, by omega⟩

/-- ERROR_DETECT's events around the settling wait: what comes before it ends with the forced clock low of `T_ED`, and the
readback-ready table follows (44 R160). -/
theorem errorDetectEvents_around_settle (r : Regs) :
    ∃ before after, preloadEvents ++ switchEvents r.par.tables .ed = before ++ [.drv .clk false]
      ∧ errorDetectEvents r
        = before ++ ([.drv .clk false, .us (settleUs r.par)] ++ (playEvents r.par.tables .rr ++ after)) := by
  refine ⟨preloadEvents ++ (playEvents r.par.tables .trans ++ (r.par.tables.frames .ed).map Event.frm),
    [.dirIn .dout, .drv .di false] ++ readEvents r.nextSamples ++ [.dirOut .dout] ++ switchEvents r.par.tables .normal,
    ?_, ?_⟩
  · simp only [switchEvents, playEvents, List.append_assoc]
  · simp only [errorDetectEvents, switchEvents, playEvents, List.append_assoc, List.cons_append, List.nil_append]

/-- A table has at least its forced clock low. -/
theorem playEvents_eq_cons (ws : WaveTables) (T : Table) : ∃ e rest, playEvents ws T = e :: rest := by
  rw [playEvents]
  cases ws.frames T with
  | nil => exact ⟨_, [], rfl⟩
  | cons f fs => exact ⟨_, _, rfl⟩

/-- Settles O34: the wait of `T_SETTLE_US`, at least 2, stands between the end of `T_ED` and `T_RR`, and the host's stamps meet
it (44 R162, 70 R241). -/
theorem settlingTimePasses : Obligations.SettlingTimePasses := by
  intro s hle hoe hdout
  obtain ⟨t, ht, hran⟩ := exec_errorDetect_ran (canRead_regs_iff.mpr ⟨hle, hoe, hdout⟩)
  obtain ⟨before, after, hbefore, hevents⟩ := errorDetectEvents_around_settle s.regs
  obtain ⟨e, rest, hready⟩ := playEvents_eq_cons s.par.tables .rr
  have hes : errorDetectEvents s.regs
      = before ++ (.drv .clk false :: .us (settleUs s.par) :: e :: (rest ++ after)) := by
    rw [hevents, show playEvents s.regs.par.tables .rr = e :: rest from hready]
    rfl
  have hk : (errorDetectEvents s.regs)[before.length]? = some (.drv .clk false) := by simp [hes]
  have hk1 : (errorDetectEvents s.regs)[before.length + 1]? = some (.us (settleUs s.par)) := by simp [hes]
  have hk2 : (errorDetectEvents s.regs)[before.length + 2]? = some e := by simp [hes]
  have hmin : 2 ≤ settleUs s.par := Nat.le_add_right 2 _
  refine ⟨t, _, before.length, e, ht, hran.trace, ?_, hk, hk1, hmin, hk2, by rw [hready]; rfl, fun htables => ?_,
    fun stamps hlen hmeets => ?_⟩
  · rw [show s.par = s.regs.par from rfl, hbefore, hes]
    simp [List.take_append]
  · have hlength := congrArg List.length hbefore
    rw [show s.regs.par.tables = standardTables from htables] at hlength
    rw [htables] at hready
    obtain ⟨rfl, -⟩ := List.cons.inj hready
    have hsixtyFour : (preloadEvents ++ switchEvents standardTables .ed).length = 64 := rfl
    rw [hsixtyFour, List.length_append, List.length_singleton] at hlength
    exact ⟨by omega, rfl⟩
  · obtain ⟨a, b, ha, hb, hab⟩ := stamps_apart hlen hmeets hk hk1 hk2
    exact ⟨a, b, ha, hb, by omega⟩

/-! ### DO after ERROR_DETECT -/

/-- The events leave the direction and the recorded level of DO. -/
def LeavesDo (es : List Event) : Prop :=
  ∀ ls : Lines, (ls.applyAll es).dir.dout = ls.dir.dout ∧ (ls.applyAll es).lvl.dout = ls.lvl.dout

section
variable {es fs : List Event}

theorem LeavesDo.nil : LeavesDo [] := fun _ => ⟨rfl, rfl⟩

theorem LeavesDo.append (he : LeavesDo es) (hf : LeavesDo fs) : LeavesDo (es ++ fs) := by
  intro ls
  obtain ⟨hdir, hlvl⟩ := he ls
  obtain ⟨hdir', hlvl'⟩ := hf (ls.applyAll es)
  rw [Lines.applyAll_append]
  exact ⟨hdir'.trans hdir, hlvl'.trans hlvl⟩

theorem LeavesDo.ite {c : Prop} [Decidable c] (he : LeavesDo es) (hf : LeavesDo fs) : LeavesDo (if c then es else fs) := by
  split
  · exact he
  · exact hf

theorem LeavesDo.whenWired {c : Bool} (h : LeavesDo es) : LeavesDo (whenWired c es) := .ite h .nil

theorem LeavesDo.flatMap {α : Type} {g : α → List Event} (h : ∀ a, LeavesDo (g a)) (as : List α) :
    LeavesDo (as.flatMap g) := by
  induction as with
  | nil => exact .nil
  | cons a as ih =>
    rw [List.flatMap_cons]
    exact (h a).append ih

end

theorem LeavesDo.dirOut_oe : LeavesDo [.dirOut .oe] := by
  intro ls
  refine ⟨rfl, ?_⟩
  change (ls.dirOut .oe).lvl.dout = ls.lvl.dout
  rw [Lines.dirOut]
  split <;> rfl

theorem LeavesDo.drv_oe (v : Bool) : LeavesDo [.drv .oe v] := fun _ => ⟨rfl, rfl⟩

theorem LeavesDo.warn (r : Regs) (w : Warning) : LeavesDo (warnEvents r w) := .ite (fun _ => ⟨rfl, rfl⟩) .nil

theorem LeavesDo.bits (bs : List Bool) : LeavesDo (bitsEvents bs) := .flatMap (fun _ _ => ⟨rfl, rfl⟩) bs

theorem LeavesDo.read (samples : List Bool) : LeavesDo (readEvents samples) := .flatMap (fun _ _ => ⟨rfl, rfl⟩) samples

theorem LeavesDo.latch : LeavesDo latchEvents := fun _ => ⟨rfl, rfl⟩

theorem LeavesDo.play (ws : WaveTables) (T : Table) : LeavesDo (playEvents ws T) := by
  have hclock : LeavesDo [.drv .clk false] := fun _ => ⟨rfl, rfl⟩
  rw [playEvents, List.map_eq_flatMap]
  exact (LeavesDo.flatMap (fun _ _ => ⟨rfl, rfl⟩) _).append hclock

theorem LeavesDo.switch (ws : WaveTables) (T : Table) : LeavesDo (switchEvents ws T) :=
  (LeavesDo.play ws .trans).append (.play ws T)

theorem LeavesDo.all (r : Regs) (level : Bool) : LeavesDo (allEvents r level) := by
  rw [allEvents_eq_bitsEvents]
  exact (LeavesDo.bits _).append (.whenWired .latch)

theorem LeavesDo.config (r : Regs) (cur band gain : Byte) : LeavesDo (configEvents r cur band gain) :=
  (((((LeavesDo.bits _).append .latch).append (.switch _ _)).append (.bits _)).append .latch).append (.switch _ _)

theorem LeavesDo.oe (r : Regs) (v : Bool) : LeavesDo (oeEvents r v) :=
  .ite (.ite (LeavesDo.dirOut_oe.append (.drv_oe v)) (.drv_oe v)) (.warn r _)

/-- Step 5 releases DO, so its level is unknown; step 8 makes it an output, and nothing drives it (44 R160, R167). -/
theorem dout_applyAll_errorDetectEvents (r : Regs) (ls : Lines) :
    (ls.applyAll (errorDetectEvents r)).dir.dout = .out ∧ (ls.applyAll (errorDetectEvents r)).lvl.dout = .x := by
  have hclaim : ∀ ls : Lines, ls.lvl.dout = .x →
      (ls.applyAll [.dirOut .dout]).dir.dout = .out ∧ (ls.applyAll [.dirOut .dout]).lvl.dout = .x := by
    intro ls hx
    refine ⟨rfl, ?_⟩
    change (ls.dirOut .dout).lvl.dout = .x
    rw [Lines.dirOut]
    split
    · exact hx
    · rfl
  simp only [errorDetectEvents, Lines.applyAll_append _ _ (switchEvents _ _), Lines.applyAll_append _ _ [.dirOut .dout],
    Lines.applyAll_append _ _ (readEvents _)]
  generalize hready : ls.applyAll _ = released
  have hx : released.lvl.dout = .x := by rw [← hready, Lines.applyAll_append]; rfl
  obtain ⟨-, hread⟩ := LeavesDo.read r.nextSamples released
  obtain ⟨hdir, hlvl⟩ := hclaim _ (hread.trans hx)
  obtain ⟨hdir', hlvl'⟩ := LeavesDo.switch r.par.tables .normal
    ((released.applyAll (readEvents r.nextSamples)).applyAll [.dirOut .dout])
  exact ⟨hdir'.trans hdir, hlvl'.trans hlvl⟩

/-- RESET releases DO when it is wired, and no later clause reaches it (47 R200). -/
theorem dout_applyAll_resetEvents {r : Regs} (hdo : r.isWired .dout = true) (m : OeMode) (ls : Lines) :
    (ls.applyAll (resetEvents r m)).dir.dout = .inp := by
  have hfill : LeavesDo (if r.canShift then allEvents r false else warnEvents r .unwired) := .ite (.all r false) (.warn r _)
  have hlater := (hfill.append (.whenWired (c := r.canSwitch) (.config r 0#8 0#8 127#8))).append
    (.whenWired (c := r.isWired .oe) (.oe r false))
  rw [resetEvents, List.append_assoc _ _ (whenWired (r.isWired .oe) (oeEvents r false)), List.append_assoc,
    Lines.applyAll_append, ← List.append_assoc]
  refine (hlater _).1.trans ?_
  rw [Lines.applyAll_append, hdo]
  rfl

/-- Settles O33: DO stays an output whose level nothing drove, and so a free draw, until RESET releases it (44 R167, 70 R247,
log entry 7). -/
theorem errorDetectLeavesDataOutAnOutput : Obligations.ErrorDetectLeavesDataOutAnOutput := by
  intro s hle hoe hdout
  obtain ⟨t, ht, hran⟩ := exec_errorDetect_ran (canRead_regs_iff.mpr ⟨hle, hoe, hdout⟩)
  obtain ⟨u, hu, hreset⟩ := exec_reset_ran t
  have hend := dout_applyAll_errorDetectEvents s.regs s.lines
  rw [← hran.lines] at hend
  obtain ⟨hdir, hlvl⟩ := hend
  have hdrives : t.doDrives = s.doDrives + 1 := congrArg Regs.doDrives hran.regs
  have hwired : t.regs.isWired .dout = true := by rw [hran.regs]; exact hdout
  have hreleased : u.lines.dir.dout = .inp := by rw [hreset.lines]; exact dout_applyAll_resetEvents hwired _ _
  have hphys : t.physLevel .dout = Config.doLevelAfterEd (s.doDrives + 1) := by
    rw [State.physLevel, show t.lines.lvl.get .dout = .x from hlvl, ← hdrives]
    exact if_pos ⟨rfl, hdir⟩
  have hcontention : u.doContention = false := by rw [State.doContention, hreleased]; rfl
  exact ⟨t, u, ht, decide_eq_true hdir, hlvl, hphys, hu, hreleased, hcontention⟩

end Sys2Proof.Machine
end

section
/-! The family other: how many warnings a command emits (60_exceptions section 3). -/

namespace Sys2Proof.Machine

/-- At most `n` of the events are warnings. -/
def WarnsAtMost (n : Nat) (es : List Event) : Prop := es.countP Event.isWarning ≤ n

section
variable {m n : Nat} {es fs : List Event}

/-- Events that stay without `DEBUG` are no warnings (60 R212). -/
theorem Muted.warnsAtMost (h : Muted es es) (n : Nat) : WarnsAtMost n es := by
  have hnone : es.countP Event.isWarning = 0 := List.countP_eq_zero.mpr fun e he hw => by
    have hkept : (!e.isWarning) = true := List.filter_eq_self.mp h e he
    rw [hw] at hkept
    cases hkept
  exact hnone.trans_le (Nat.zero_le n)

theorem WarnsAtMost.append (he : WarnsAtMost m es) (hf : WarnsAtMost n fs) : WarnsAtMost (m + n) (es ++ fs) := by
  rw [WarnsAtMost, List.countP_append]
  exact Nat.add_le_add he hf

theorem WarnsAtMost.guarded {c : Bool} (he : c = true → WarnsAtMost n es) (hf : WarnsAtMost n fs) :
    WarnsAtMost n (if c then es else fs) := by
  split
  next hc => exact he hc
  next => exact hf

theorem WarnsAtMost.whenWired {c : Bool} (h : c = true → WarnsAtMost n es) : WarnsAtMost n (whenWired c es) :=
  .guarded h (Nat.zero_le n)

end

section
variable (r : Regs)

theorem WarnsAtMost.warn (w : Warning) : WarnsAtMost 1 (warnEvents r w) := by
  unfold warnEvents
  split
  · exact Nat.le_refl 1
  · exact Nat.zero_le 1

/-- ON and OFF warn when OE is absent (46 R190, R191). -/
theorem WarnsAtMost.oe (v : Bool) : WarnsAtMost 1 (oeEvents r v) :=
  .guarded (fun _ => .guarded (fun _ => Nat.zero_le 1) (Nat.zero_le 1)) (.warn r _)

/-- With OE wired they do not warn. -/
theorem WarnsAtMost.oe_wired {r : Regs} (hoe : r.isWired .oe = true) (v : Bool) : WarnsAtMost 0 (oeEvents r v) := by
  rw [oeEvents, if_pos hoe]
  exact .guarded (fun _ => Nat.le_refl 0) (Nat.le_refl 0)

theorem WarnsAtMost.brightness (level : Byte) : WarnsAtMost 1 (brightnessEvents r level) :=
  .guarded (fun _ => .guarded (fun _ => Nat.zero_le 1) (.warn r _)) (.warn r _)

/-- Of RESET's clauses (e) alone can warn: each of the others runs only with its lines wired (47 R200). -/
theorem WarnsAtMost.reset (m : OeMode) : WarnsAtMost 1 (resetEvents r m) := by
  have hdigital : WarnsAtMost 0 [.dirOut .oe] := Nat.le_refl 0
  have hrelease : WarnsAtMost 0 [.dirIn .dout] := Nat.le_refl 0
  have hfill : WarnsAtMost 1 (if r.canShift then allEvents r false else warnEvents r .unwired) :=
    .guarded (fun _ => (Muted.all r false).warnsAtMost 1) (.warn r _)
  exact ((((((WarnsAtMost.whenWired fun _ => hdigital).append
    (.whenWired fun _ => (Muted.switch _ _).warnsAtMost 0)).append (.whenWired fun hoe => .oe_wired hoe true)).append
      (.whenWired fun _ => hrelease)).append hfill).append
        (.whenWired fun _ => (Muted.config r _ _ _).warnsAtMost 0)).append (.whenWired fun hoe => .oe_wired hoe false)

/-- Each step of FLASH that drives OE may warn: three, and a fourth when `LEAVE_ON` (47 R201). -/
theorem WarnsAtMost.flash (leaveOn : Bool) (bracket : BitVec 16) (onMs : BitVec 32) :
    WarnsAtMost (if leaveOn then 4 else 3) (flashEvents r leaveOn bracket onMs) := by
  have hwait : ∀ n, WarnsAtMost 0 [.ms n] := fun _ => Nat.le_refl 0
  have hthree := (((((WarnsAtMost.oe r true).append (hwait bracket.toNat)).append (.oe r false)).append
    (hwait onMs.toNat)).append (.oe r true)).append (hwait bracket.toNat)
  cases leaveOn with
  | true => exact hthree.append (.oe r false)
  | false => exact hthree.append (n := 0) (fs := []) (Nat.le_refl 0)

/-- How many warnings a command may emit: FLASH one for each step that drives OE, the others one (60_exceptions section
3). -/
def warningBound : Instr → Nat
  | .flash leaveOn _ _ => if leaveOn then 4 else 3
  | _ => 1

theorem WarnsAtMost.command (m : OeMode) (i : Instr) : WarnsAtMost (warningBound i) (commandEvents r m i) := by
  cases i with
  | attach n wires =>
    exact .guarded (fun _ => .guarded (fun _ => .warn r _) ((Muted.attach wires _).warnsAtMost 1)) (Nat.zero_le 1)
  | shift w => exact .guarded (fun _ => (Muted.bits _).warnsAtMost 1) (.warn r _)
  | send w => exact .guarded (fun _ => ((Muted.bits _).append (.whenWired .latch)).warnsAtMost 1) (.warn r _)
  | all level => exact .guarded (fun _ => (Muted.all r level).warnsAtMost 1) (.warn r _)
  | sendBits count delay bits =>
    exact .guarded (fun _ => .guarded (fun _ => (Muted.sendBits r _ delay bits).warnsAtMost 1) (.warn r _)) (Nat.zero_le 1)
  | latch => exact .guarded (fun _ => Muted.latch.warnsAtMost 1) (.warn r _)
  | normal => exact .guarded (fun _ => (Muted.switch _ _).warnsAtMost 1) (.warn r _)
  | errorDetect => exact .guarded (fun _ => (Muted.errorDetect r).warnsAtMost 1) (.warn r _)
  | config cur band gain => exact .guarded (fun _ => (Muted.config r cur band gain).warnsAtMost 1) (.warn r _)
  | on => exact .oe r false
  | off => exact .oe r true
  | brightness level => exact .brightness r level
  | reset => exact .reset r m
  | flash leaveOn bracket onMs => exact .flash r leaveOn bracket onMs

end

/-- Settles O54: a command warns where its guard fails, and each has one guard but FLASH (60_exceptions section 3). -/
theorem atMostOneWarning : Obligations.AtMostOneWarning := by
  intro i s t es h htrace
  have hbound := WarnsAtMost.command s.regs s.lines.oem i
  rw [← events_of_exec h htrace] at hbound
  cases i <;> exact hbound

end Sys2Proof.Machine
end

section
/-! The family other: `MODE` gates nothing (43_mode section 2). Two runs that differ in `MODE` alone go on in step: an
operation carries the difference along, without writing `MODE`, or writes it and the difference is gone. As in Laws/Ops, each
lemma extends what has happened so far. -/

namespace Sys2Proof.Machine

/-- The state with another value of `MODE`. -/
def State.withMode (s : State) (m : Mode) : State := { s with mode := m }

/-- Two runs, which set out with `MODE` at `a` and at `b`, agree but for `MODE`; and where `MODE` differs too, neither run has
written it. -/
def Alike (a b : Mode) (t u : State) : Prop := (u = t.withMode b ∧ t.mode = a) ∨ u = t

section
variable {a b : Mode} {t u : State}

theorem Alike.start (s : State) (m : Mode) : Alike s.mode m s (s.withMode m) := .inl ⟨rfl, rfl⟩

/-- An operation that neither reads nor writes `MODE`. -/
theorem Alike.op (h : Alike a b t u) (f : State → State) (hf : ∀ s m, f (s.withMode m) = (f s).withMode m)
    (hmode : ∀ s, (f s).mode = s.mode) : Alike a b (f t) (f u) := by
  obtain ⟨rfl, ha⟩ | rfl := h
  · exact .inl ⟨hf t b, (hmode t).trans ha⟩
  · exact .inr rfl

/-- What does not read `MODE` is the same in both runs. -/
theorem Alike.read {α : Type} (h : Alike a b t u) (k : State → α) (hk : ∀ s m, k (s.withMode m) = k s) :
    k u = k t := by
  obtain ⟨rfl, -⟩ | rfl := h
  · exact hk t b
  · rfl

theorem Alike.isWired (h : Alike a b t u) (l : Line) : u.isWired l = t.isWired l :=
  h.read (State.isWired · l) fun _ _ => rfl

theorem Alike.canShift (h : Alike a b t u) : u.canShift = t.canShift := h.read State.canShift fun _ _ => rfl

theorem Alike.pwmcap (h : Alike a b t u) : u.pwmcap = t.pwmcap := h.read State.pwmcap fun _ _ => rfl

theorem Alike.par (h : Alike a b t u) : u.par = t.par := h.read State.par fun _ _ => rfl

/-! ### the named operations -/

theorem Alike.emit (h : Alike a b t u) (e : Event) : Alike a b (t.emit e) (u.emit e) :=
  h.op (State.emit · e) (fun _ _ => rfl) fun _ => rfl

theorem Alike.enter (h : Alike a b t u) (p : Phase) : Alike a b (t.enter p) (u.enter p) :=
  h.op (State.enter · p) (fun _ _ => rfl) fun _ => rfl

theorem Alike.leave (h : Alike a b t u) : Alike a b t.leave u.leave := h.enter .idle

theorem Alike.dropBidx (h : Alike a b t u) : Alike a b t.dropBidx u.dropBidx :=
  h.op State.dropBidx (fun _ _ => rfl) fun _ => rfl

theorem Alike.raiseFault (h : Alike a b t u) (c : FaultCause) : Alike a b (t.raiseFault c) (u.raiseFault c) :=
  h.op (State.raiseFault · c) (fun _ _ => rfl) fun _ => rfl

theorem Alike.warn (h : Alike a b t u) (w : Warning) : Alike a b (t.warn w) (u.warn w) := by
  have hdebug : u.debug = t.debug := h.read State.debug fun _ _ => rfl
  unfold State.warn
  rw [hdebug, h.par]
  split
  · exact h.emit _
  · exact h

/-! ### Latch Control and the Shift Protocol -/

theorem Alike.pulseLe (h : Alike a b t u) : Alike a b (pulseLe t) (pulseLe u) := (h.emit _).emit _

theorem Alike.latchIfWired (h : Alike a b t u) : Alike a b (latchIfWired t) (latchIfWired u) := by
  unfold Machine.latchIfWired
  rw [h.isWired]
  split
  · exact h.pulseLe
  · exact h

theorem Alike.latchPulse (h : Alike a b t u) : Alike a b (latchPulse t) (latchPulse u) := by
  unfold Machine.latchPulse
  rw [h.isWired]
  split
  · exact h.pulseLe
  · exact h.warn _

theorem Alike.setBidx (h : Alike a b t u) (k : BitVec 4) : Alike a b { t with bidx := k } { u with bidx := k } :=
  h.op (fun s => { s with bidx := k }) (fun _ _ => rfl) fun _ => rfl

theorem Alike.shiftBit (h : Alike a b t u) (v : Bool) : Alike a b (shiftBit v t) (shiftBit v u) :=
  ((h.emit _).emit _).emit _

theorem Alike.shiftIndices {n : Nat} (h : Alike a b t u) (v : BitVec n) (is : List Nat) :
    Alike a b (shiftIndices v is t) (shiftIndices v is u) := by
  induction is generalizing t u with
  | nil => exact h
  | cons i is ih => exact ih ((h.setBidx _).shiftBit _)

theorem Alike.shiftByteMsb (h : Alike a b t u) (v : Byte) : Alike a b (shiftByteMsb v t) (shiftByteMsb v u) :=
  (h.shiftIndices v _).dropBidx

theorem Alike.shiftByteLsb (h : Alike a b t u) (v : Byte) : Alike a b (shiftByteLsb v t) (shiftByteLsb v u) :=
  (h.shiftIndices v _).dropBidx

theorem Alike.shiftWord (h : Alike a b t u) (w : Word) : Alike a b (shiftWord w t) (shiftWord w u) :=
  (h.shiftByteMsb _).shiftByteMsb _

theorem Alike.preload (h : Alike a b t u) : Alike a b (preload t) (preload u) := ((h.enter _).shiftWord _).latchIfWired

theorem Alike.shiftBody (h : Alike a b t u) (w : Word) : Alike a b (shiftBody w t) (shiftBody w u) := by
  unfold Machine.shiftBody
  rw [h.canShift]
  split
  · exact (h.enter _).shiftWord w
  · exact h.warn _

theorem Alike.sendBody (h : Alike a b t u) (w : Word) : Alike a b (sendBody w t) (sendBody w u) := by
  unfold Machine.sendBody
  rw [h.canShift]
  split
  · exact (((h.enter _).shiftWord w).enter _).latchIfWired
  · exact h.warn _

theorem Alike.shiftWords (h : Alike a b t u) (fill : Word) (n : Nat) :
    Alike a b (shiftWords fill n t) (shiftWords fill n u) := by
  induction n generalizing t u with
  | zero => exact h
  | succ n ih =>
    exact ih ((h.shiftWord fill).op (fun s => { s with widx := s.widx + 1#8 }) (fun _ _ => rfl) fun _ => rfl)

theorem Alike.allBody (h : Alike a b t u) (level : Bool) : Alike a b (allBody level t) (allBody level u) := by
  have hchain : u.chain = t.chain := h.read State.chain fun _ _ => rfl
  unfold Machine.allBody
  rw [h.canShift, hchain]
  split
  · have hstart := (h.enter .shift).op (fun s => { s with widx := 0#8 }) (fun _ _ => rfl) fun _ => rfl
    have hend := (hstart.shiftWords (fillWord level) t.chain.toNat).op State.dropWidx (fun _ _ => rfl) fun _ => rfl
    exact (hend.enter .latch).latchIfWired
  · exact h.warn _

theorem Alike.latchAndWait (h : Alike a b t u) (delay : BitVec 16) :
    Alike a b (latchAndWait delay t) (latchAndWait delay u) := (((h.enter _).latchIfWired).enter _).emit _

theorem Alike.sendBitsLoop (h : Alike a b t u) (delay : BitVec 16) (bits : Word) (n : Nat) :
    Alike a b (sendBitsLoop delay bits n t) (sendBitsLoop delay bits n u) := by
  induction n generalizing t u with
  | zero => exact h
  | succ n ih =>
    have hbit := ((h.enter .shift).setBidx (BitVec.ofNat 4 n)).shiftBit (bits.getLsbD n)
    refine ih ?_
    split
    · exact hbit.latchAndWait delay
    · exact hbit

theorem Alike.sendBitsBody (h : Alike a b t u) (count : BitVec 5) (delay : BitVec 16) (bits : Word) :
    Alike a b (sendBitsBody count delay bits t) (sendBitsBody count delay bits u) := by
  have hsent := (h.sendBitsLoop delay bits count.toNat).dropBidx
  unfold Machine.sendBitsBody
  rw [h.canShift]
  split
  · split
    · exact (hsent.enter _).latchIfWired
    · exact hsent
  · exact h.warn _

/-! ### tables -/

theorem Alike.playFrames (h : Alike a b t u) (k : Nat) (fs : List Frame) :
    Alike a b (playFrames k fs t) (playFrames k fs u) := by
  induction fs generalizing k t u with
  | nil => exact h
  | cons f fs ih =>
    exact ih ((h.op (fun s => { s with fidx := BitVec.ofNat 3 k }) (fun _ _ => rfl) fun _ => rfl).emit _) (k + 1)

theorem Alike.playTable (h : Alike a b t u) (T : Table) : Alike a b (playTable T t) (playTable T u) := by
  unfold Machine.playTable
  rw [h.par]
  exact ((h.playFrames 0 _).emit _).op State.dropFidx (fun _ _ => rfl) fun _ => rfl

/-- The write of `MODE`: a target table's mode replaces the record, whatever it held (43 R146). -/
theorem Alike.recordMode (h : Alike a b t u) (T : Table) :
    Alike a b { t with mode := T.modeAfter t.mode } { u with mode := T.modeAfter u.mode } := by
  obtain ⟨rfl, ha⟩ | rfl := h
  · cases T with
    | trans | rr => exact .inl ⟨rfl, ha⟩
    | normal | cfg | ed => exact .inr rfl
  · exact .inr rfl

theorem Alike.switchMode (h : Alike a b t u) (T : Table) : Alike a b (switchMode T t) (switchMode T u) :=
  ((((h.enter _).playTable .trans).enter _).playTable T).recordMode T

theorem Alike.normalMode (h : Alike a b t u) : Alike a b (normalMode t) (normalMode u) := by
  unfold Machine.normalMode
  rw [h.isWired, h.isWired]
  split
  · exact h.switchMode .normal
  · exact h.warn _

theorem Alike.configBody (h : Alike a b t u) (cur band gain : Byte) :
    Alike a b (configBody cur band gain t) (configBody cur band gain u) := by
  unfold Machine.configBody
  rw [h.isWired, h.isWired]
  split
  · exact ((((((h.preload).switchMode .cfg).enter _).shiftByteMsb _).shiftByteLsb _).latchPulse).normalMode
  · exact h.warn _

/-! ### the readback -/

theorem Alike.readLoop (h : Alike a b t u) (k n : Nat) : Alike a b (readLoop k n t) (readLoop k n u) := by
  induction n generalizing k t u with
  | zero => exact h
  | succ n ih => exact ih (h.op (readIteration k) (fun _ _ => rfl) fun _ => rfl) (k + 1)

theorem Alike.readback (h : Alike a b t u) : Alike a b (readback t) (readback u) := by
  have hstart := (h.enter .read).op (fun s => { s with acc := 0x0000#16 }) (fun _ _ => rfl) fun _ => rfl
  exact (hstart.readLoop 0 16).dropBidx

theorem Alike.settle (h : Alike a b t u) : Alike a b (settle t) (settle u) :=
  h.op Machine.settle (fun _ _ => rfl) fun _ => rfl

theorem Alike.readbackReady (h : Alike a b t u) : Alike a b (readbackReady t) (readbackReady u) :=
  (((h.enter _).playTable .rr).emit _).emit _

theorem Alike.returnResult (h : Alike a b t u) : Alike a b (returnResult t) (returnResult u) :=
  h.op Machine.returnResult (fun _ _ => rfl) fun _ => rfl

theorem Alike.errorDetectBody (h : Alike a b t u) : Alike a b (errorDetectBody t) (errorDetectBody u) := by
  unfold Machine.errorDetectBody
  rw [h.isWired, h.isWired, h.isWired]
  split
  · have hread := (((h.preload).switchMode .ed).settle).readbackReady.readback
    exact ((hread.emit _).normalMode).returnResult
  · exact (h.warn _).op (fun s => { s with result := 0x0000#16 }) (fun _ _ => rfl) fun _ => rfl

/-! ### output enable, RESET and FLASH -/

theorem Alike.driveOe (h : Alike a b t u) (v : Bool) : Alike a b (driveOe v t) (driveOe v u) := by
  unfold Machine.driveOe
  rw [h.isWired, h.pwmcap]
  split
  · split
    · exact (h.emit _).emit _
    · exact h.emit _
  · exact h.warn _

theorem Alike.brightnessBody (h : Alike a b t u) (level : Byte) :
    Alike a b (brightnessBody level t) (brightnessBody level u) := by
  unfold Machine.brightnessBody
  rw [h.isWired, h.pwmcap]
  split
  · split
    · exact h.emit _
    · exact h.warn _
  · exact h.warn _

/-- A clause of RESET whose condition does not read `MODE`. -/
theorem Alike.onlyIf {f : State → State} (h : Alike a b t u) (c : State → Bool) (hc : ∀ s m, c (s.withMode m) = c s)
    (hf : Alike a b (f t) (f u)) : Alike a b (onlyIf c f t) (onlyIf c f u) := by
  unfold Machine.onlyIf
  rw [h.read c hc]
  split
  · exact hf
  · exact h

theorem Alike.resetBody (h : Alike a b t u) : Alike a b (resetBody t) (resetBody u) := by
  have hdigital : Alike a b (leavePwm t) (leavePwm u) := h.onlyIf _ (fun _ _ => rfl) (h.emit _)
  have hnormal := hdigital.onlyIf State.canSwitch (fun _ _ => rfl) hdigital.normalMode
  have hdark := hnormal.onlyIf (State.isWired · .oe) (fun _ _ => rfl) (hnormal.driveOe true)
  have hrelease := hdark.onlyIf (f := (State.emit · (.dirIn .dout))) (State.isWired · .dout) (fun _ _ => rfl)
    (hdark.emit _)
  have hfill := hrelease.allBody false
  have hconfig := hfill.onlyIf State.canSwitch (fun _ _ => rfl) (hfill.configBody 0#8 0#8 127#8)
  exact hconfig.onlyIf (State.isWired · .oe) (fun _ _ => rfl) (hconfig.driveOe false)

theorem Alike.waitMs (h : Alike a b t u) (n : Nat) : Alike a b (waitMs n t) (waitMs n u) := (h.enter _).emit _

theorem Alike.flashBody (h : Alike a b t u) (leaveOn : Bool) (bracket : BitVec 16) (onMs : BitVec 32) :
    Alike a b (flashBody leaveOn bracket onMs t) (flashBody leaveOn bracket onMs u) := by
  have hdark := (((((h.driveOe true).waitMs bracket.toNat).driveOe false).waitMs onMs.toNat).driveOe true).waitMs
    bracket.toNat
  unfold Machine.flashBody
  split
  · exact hdark.driveOe false
  · exact hdark

/-! ### ATTACH -/

theorem Alike.attachLe (h : Alike a b t u) : Alike a b (attachLe t) (attachLe u) := by
  unfold Machine.attachLe
  rw [h.isWired]
  split
  · exact (h.emit _).emit _
  · exact h

theorem Alike.attachOe (h : Alike a b t u) : Alike a b (attachOe t) (attachOe u) := by
  unfold Machine.attachOe
  rw [h.isWired]
  split
  · exact ((h.emit (.dirOut .oe)).op (fun s => { s.queryPwm.2 with pwmcap := s.queryPwm.1 }) (fun _ _ => rfl)
      fun _ => rfl).emit _
  · exact h

theorem Alike.attachDo (h : Alike a b t u) : Alike a b (attachDo t) (attachDo u) := by
  unfold Machine.attachDo
  rw [h.isWired]
  split
  · exact h.emit _
  · exact h

theorem Alike.attachBody (h : Alike a b t u) (n : BitVec 8) (wires : BitVec 5) :
    Alike a b (attachBody n wires t) (attachBody n wires u) := by
  unfold Machine.attachBody
  rw [h.read State.attached fun _ _ => rfl]
  split
  · exact h.warn _
  · have hrecord := h.op (fun s => { s with chain := n, wired := wires }) (fun _ _ => rfl) fun _ => rfl
    exact ((((hrecord.emit _).emit _).emit _).attachLe).attachOe.attachDo

/-! ### every command -/

theorem Alike.exec (h : Alike a b t u) (i : Instr) :
    ∃ t' u', exec i t = .next t' ∧ exec i u = .next u' ∧ Alike a b t' u' := by
  cases i with
  | attach n wires =>
    refine ⟨_, _, rfl, rfl, ?_⟩
    split
    · exact (h.attachBody n wires).leave
    · exact h.raiseFault _
  | sendBits count delay bits =>
    refine ⟨_, _, rfl, rfl, ?_⟩
    split
    · exact (h.sendBitsBody count delay bits).leave
    · exact h.raiseFault _
  | shift w => exact ⟨_, _, rfl, rfl, (h.shiftBody w).leave⟩
  | send w => exact ⟨_, _, rfl, rfl, (h.sendBody w).leave⟩
  | all level => exact ⟨_, _, rfl, rfl, (h.allBody level).leave⟩
  | latch => exact ⟨_, _, rfl, rfl, ((h.enter .latch).latchPulse).leave⟩
  | normal => exact ⟨_, _, rfl, rfl, h.normalMode.leave⟩
  | errorDetect => exact ⟨_, _, rfl, rfl, h.errorDetectBody.leave⟩
  | config cur band gain => exact ⟨_, _, rfl, rfl, (h.configBody cur band gain).leave⟩
  | on => exact ⟨_, _, rfl, rfl, (h.driveOe false).leave⟩
  | off => exact ⟨_, _, rfl, rfl, (h.driveOe true).leave⟩
  | brightness level => exact ⟨_, _, rfl, rfl, (h.brightnessBody level).leave⟩
  | reset => exact ⟨_, _, rfl, rfl, h.resetBody.leave⟩
  | flash leaveOn bracket onMs => exact ⟨_, _, rfl, rfl, (h.flashBody leaveOn bracket onMs).leave⟩

end

/-- Settles O29: a command carries a difference in `MODE` along or overwrites it, and nothing else differs (43_mode section
2). -/
theorem modeGatesNothing : Obligations.ModeGatesNothing := by
  intro i s m
  obtain ⟨t, u, ht, hu, ⟨rfl, hkeep⟩ | rfl⟩ := (Alike.start s m).exec i
  · exact ⟨t, _, ht, hu, rfl, .inr ⟨rfl, hkeep⟩⟩
  · exact ⟨u, u, ht, hu, rfl, .inl rfl⟩

end Sys2Proof.Machine
end

section
/-! The family other: the tables a command plays. A command's events are pieces without a frame, mode switches and the
readback-ready table, in a row, and each switch moves the mode on. What an observer of the frames concludes about the tables
(70 R243) and about the mode (20_memory section 5) follows from that alone. -/

namespace Sys2Proof.Machine

/-- A target table of `SwitchMode` (43 R146). -/
def Table.isTarget : Table → Bool
  | .normal | .cfg | .ed => true
  | .trans | .rr => false

/-- The events play tables that bring the mode from `m` to `m'`, each target right after the transition table. -/
inductive Switches (ws : WaveTables) : Mode → List Event → Mode → Prop
  /-- Events without a frame leave the mode. -/
  | frameless {m : Mode} {es : List Event} (h : Frameless es) : Switches ws m es m
  /-- The readback-ready table leaves the mode (43 R144). -/
  | readbackReady {m : Mode} : Switches ws m (playEvents ws .rr) m
  /-- A mode switch reaches the target's mode (43 R146). -/
  | switch {m : Mode} {T : Table} (hT : T.isTarget = true) : Switches ws m (switchEvents ws T) (T.modeAfter m)
  | append {m m' m'' : Mode} {es fs : List Event} (he : Switches ws m es m') (hf : Switches ws m' fs m'') :
    Switches ws m (es ++ fs) m''

/-! ### every command -/

section
variable {ws : WaveTables} {m : Mode} {es : List Event}

/-- A command under its guard, and its warning when the guard fails. -/
theorem Switches.guarded {r : Regs} {w : Warning} {m' : Mode} {c : Bool} (h : Switches ws m es m') :
    Switches ws m (if c then es else warnEvents r w) (if c then m' else m) := by
  cases c
  · exact .frameless (.warn r w)
  · exact h

theorem Switches.preload : Switches ws m preloadEvents m := .frameless ((Frameless.bits _).append .latch)

theorem Switches.config (r : Regs) (cur band gain : Byte) :
    Switches r.par.tables m (configEvents r cur band gain) .normal := by
  have hwrite : ∀ es, Frameless es → Switches r.par.tables .configuration es .configuration := fun _ => .frameless
  exact (((Switches.preload.append (.switch (T := .cfg) rfl)).append (hwrite _ (.bits _))).append (hwrite _ .latch)).append
    (.switch (T := .normal) rfl)

theorem Switches.errorDetect (r : Regs) : Switches r.par.tables m (errorDetectEvents r) .normal := by
  have hkeep : ∀ es, Frameless es → Switches r.par.tables .errorDetect es .errorDetect := fun _ => .frameless
  have hread : Frameless (readEvents r.nextSamples) := .flatMap fun b => by simp [Frameless]
  exact ((((((Switches.preload.append (.switch (T := .ed) rfl)).append (hkeep _ (by simp [Frameless]))).append
    .readbackReady).append (hkeep _ (by simp [Frameless]))).append (hkeep _ hread)).append
      (hkeep _ (by simp [Frameless]))).append (.switch (T := .normal) rfl)

/-- RESET switches to Normal twice when LE and OE are wired, and plays no table otherwise (47 R200). -/
theorem Switches.reset (r : Regs) (o : OeMode) :
    Switches r.par.tables r.mode (resetEvents r o) (if r.canSwitch then .normal else r.mode) := by
  have hdigital : ∀ m, Switches r.par.tables m (whenWired (r.isWired .oe && decide (o = .pwm)) [.dirOut .oe]) m :=
    fun _ => .frameless (.whenWired (by simp [Frameless]))
  have hdrive : ∀ m v, Switches r.par.tables m (whenWired (r.isWired .oe) (oeEvents r v)) m :=
    fun _ v => .frameless (.whenWired (.oe r v))
  have hrelease : ∀ m, Switches r.par.tables m (whenWired (r.isWired .dout) [.dirIn .dout]) m :=
    fun _ => .frameless (.whenWired (by simp [Frameless]))
  have hfill : ∀ m, Switches r.par.tables m (if r.canShift then allEvents r false else warnEvents r .unwired) m :=
    fun _ => .frameless (.ite (.all r false) (.warn r _))
  unfold resetEvents
  cases hs : r.canSwitch with
  | false =>
    have hnone : ∀ {es}, Switches r.par.tables r.mode (whenWired false es) r.mode := .frameless .nil
    exact ((((((hdigital _).append hnone).append (hdrive _ true)).append (hrelease _)).append (hfill _)).append
      hnone).append (hdrive _ false)
  | true =>
    have hnormal : Switches r.par.tables r.mode (whenWired true (switchEvents r.par.tables .normal)) .normal :=
      .switch (T := .normal) rfl
    exact ((((((hdigital _).append hnormal).append (hdrive _ true)).append (hrelease _)).append (hfill _)).append
      (.config r _ _ _)).append (hdrive _ false)

/-- Every command's events are made of such pieces, and the mode they reach is the one the command records (43 R151). -/
theorem Switches.command (r : Regs) (o : OeMode) (i : Instr) :
    Switches r.par.tables r.mode (commandEvents r o i) (commandMode r i) := by
  cases i with
  | normal => exact .guarded (.switch (T := .normal) rfl)
  | errorDetect => exact .guarded (.errorDetect r)
  | config cur band gain => exact .guarded (.config r cur band gain)
  | reset => exact .reset r o
  | _ => exact .frameless (Frameless.command (by simp [SwitchesMode]) r o)

end

/-! ### tables that a trace tells apart -/

/-- Every table has frames, and the frames say which table it is. -/
structure WaveTables.ToldApart (ws : WaveTables) : Prop where
  ne_nil : ∀ T, ws.frames T ≠ []
  injective : ∀ T U, ws.frames T = ws.frames U → T = U

/-- The tags in the order of `WaveTables`. -/
def Table.tags : List Table := [.trans, .normal, .cfg, .ed, .rr]

theorem Table.mem_tags (T : Table) : T ∈ Table.tags := by
  cases T <;> decide

theorem WaveTables.toldApart_of_distinct {ws : WaveTables} (h : ws.distinct = true) : ws.ToldApart := by
  simp only [WaveTables.distinct, Bool.and_eq_true, Bool.not_eq_true', List.isEmpty_eq_false_iff, decide_eq_true_eq] at h
  obtain ⟨⟨⟨⟨⟨htrans, hnormal⟩, hcfg⟩, hed⟩, hrr⟩, hnodup⟩ := h
  have hmap : (Table.tags.map ws.frames).Nodup := hnodup
  exact ⟨fun T => by cases T <;> assumption, fun T U => List.inj_on_of_nodup_map hmap T.mem_tags U.mem_tags⟩

section
variable {ws : WaveTables} (hws : ws.ToldApart)
include hws

theorem WaveTables.ToldApart.frames_eq_iff (T U : Table) : ws.frames T = ws.frames U ↔ T = U :=
  ⟨hws.injective T U, congrArg _⟩

theorem WaveTables.ToldApart.isTarget (T : Table) : isTarget ws (ws.frames T) = T.isTarget := by
  have hiff : (ws.frames T = ws.normal ∨ ws.frames T = ws.cfg ∨ ws.frames T = ws.ed)
      ↔ (T = .normal ∨ T = .cfg ∨ T = .ed) :=
    or_congr (hws.frames_eq_iff T .normal) (or_congr (hws.frames_eq_iff T .cfg) (hws.frames_eq_iff T .ed))
  rw [Machine.isTarget, decide_eq_decide.mpr hiff]
  cases T <;> rfl

end

/-! ### the tables in a trace -/

theorem playedTables_frames (acc fs : List Frame) (es : List Event) :
    playedTables acc (fs.map Event.frm ++ es) = playedTables (acc ++ fs) es := by
  induction fs generalizing acc with
  | nil => rw [List.append_nil]; rfl
  | cons f fs ih =>
    rw [List.map_cons, List.cons_append, playedTables, ih, List.append_assoc]
    rfl

/-- A table that has frames shows in the trace, ended by its forced clock low (43 R145). -/
theorem playedTables_playEvents {ws : WaveTables} {T : Table} (h : ws.frames T ≠ []) (es : List Event) :
    playedTables [] (playEvents ws T ++ es) = ws.frames T :: playedTables [] es := by
  rw [playEvents, List.append_assoc, playedTables_frames, List.nil_append, List.singleton_append, playedTables, if_neg h]

/-- Between tables, events without a frame show no table. -/
theorem Frameless.playedTables_append {es : List Event} (h : Frameless es) (fs : List Event) :
    Machine.playedTables [] (es ++ fs) = Machine.playedTables [] fs := by
  induction es with
  | nil => rfl
  | cons e es ih =>
    have hrest := ih fun f hf => h f (List.mem_cons_of_mem e hf)
    cases e with
    | frm f => exact absurd List.mem_cons_self (h f)
    | drv l v => cases l <;> cases v <;> exact hrest
    | _ => exact hrest

/-- Lists of tables in a row, in each of which every target has its transition table right before it. -/
theorem targetsFollowTransition_append {ws : WaveTables} {ts us : List (List Frame)}
    (ht : ∀ prev, targetsFollowTransition ws prev ts = true) (hu : ∀ prev, targetsFollowTransition ws prev us = true)
    (prev : List Frame) : targetsFollowTransition ws prev (ts ++ us) = true := by
  have hone : ∀ ts prev, targetsFollowTransition ws prev ts = true →
      targetsFollowTransition ws prev (ts ++ us) = true := by
    intro ts
    induction ts with
    | nil => exact fun prev _ => hu prev
    | cons t ts ih =>
      intro prev h
      obtain ⟨hfirst, hrest⟩ := Bool.and_eq_true_iff.mp h
      exact Bool.and_eq_true_iff.mpr ⟨hfirst, ih t hrest⟩
  exact hone ts prev (ht prev)

/-- The tables that such events show: each target comes with the transition table right before it, whatever came before the
events (70 R243). -/
theorem Switches.playedTables {ws : WaveTables} {m m' : Mode} {es : List Event} (h : Switches ws m es m')
    (hws : ws.ToldApart) :
    ∃ ts, (∀ fs, Machine.playedTables [] (es ++ fs) = ts ++ Machine.playedTables [] fs)
      ∧ ∀ prev, targetsFollowTransition ws prev ts = true := by
  induction h with
  | frameless hes => exact ⟨[], hes.playedTables_append, fun _ => rfl⟩
  | readbackReady =>
    refine ⟨[ws.frames .rr], playedTables_playEvents (hws.ne_nil .rr), fun prev => ?_⟩
    rw [targetsFollowTransition, hws.isTarget]
    rfl
  | @switch m T hT =>
    refine ⟨[ws.frames .trans, ws.frames T], fun fs => ?_, fun prev => ?_⟩
    · rw [switchEvents, List.append_assoc, playedTables_playEvents (hws.ne_nil .trans),
        playedTables_playEvents (hws.ne_nil T)]
      rfl
    · have hafter : decide (ws.frames .trans = ws.trans) = true := decide_eq_true rfl
      simp only [targetsFollowTransition, hws.isTarget, hafter, Bool.or_true, Bool.and_true]
      rfl
  | append _ _ ihe ihf =>
    obtain ⟨ts, hts, hfollow⟩ := ihe
    obtain ⟨us, hus, hfollow'⟩ := ihf
    refine ⟨ts ++ us, fun fs => ?_, targetsFollowTransition_append hfollow hfollow'⟩
    rw [List.append_assoc, hts, hus, List.append_assoc]

/-- Settles O50: whatever a step plays, it plays by mode switches and the readback-ready table (43 R146, 70 R243). -/
theorem targetTablesFollowTheTransition : Obligations.TargetTablesFollowTheTransition := by
  intro s t es hdistinct hstep htrace
  obtain ⟨fs, hfs, -, hevents⟩ := step_events hstep
  obtain rfl : es = fs := List.append_cancel_left (htrace.symm.trans hfs)
  obtain rfl | ⟨i, rest, rfl⟩ := hevents
  · rfl
  · have hswitches := Switches.command { s.regs with pending := rest } s.lines.oem i
    obtain ⟨ts, hts, hfollow⟩ := hswitches.playedTables (WaveTables.toldApart_of_distinct hdistinct)
    have hplayed := hts []
    rw [List.append_nil, show Machine.playedTables [] [] = [] from rfl, List.append_nil] at hplayed
    rw [hplayed]
    exact hfollow []

/-! ### the mode that the chain's observer sees -/

/-- The observer has the mode at `m`, and no table or mode switch is under way. -/
structure ChipChain.Settled (m : Mode) (c : ChipChain) : Prop where
  mode : c.mode = m
  frames : c.frames = []
  armed : c.armed = false

theorem ChipChain.observe_append (ws : WaveTables) (ls : Lines) (es fs : List Event) (c : ChipChain) :
    c.observe ws ls (es ++ fs) = (c.observe ws ls es).observe ws (ls.applyAll es) fs := by
  induction es generalizing ls c with
  | nil => rfl
  | cons e es ih => exact ih _ _

section
variable {ws : WaveTables} {m : Mode} {c : ChipChain}

/-- With no table under way, an event that is no frame leaves it so, and leaves the mode (20 R66). -/
theorem ChipChain.Settled.onEvent {e : Event} (h : c.Settled m) (he : ∀ f, e ≠ .frm f) (ls : Lines) :
    (c.onEvent ws ls e).Settled m := by
  have hedge : ∀ b, (c.onEdge b).Settled m := fun b => by
    unfold ChipChain.onEdge; split <;> exact ⟨h.mode, h.frames, h.armed⟩
  have hlatch : c.onLatch.Settled m := by unfold ChipChain.onLatch; split <;> exact ⟨h.mode, h.frames, h.armed⟩
  cases e with
  | frm f => exact absurd rfl (he f)
  | drv l v =>
    cases l with
    | clk =>
      change (c.onClock ws ls v).Settled m
      unfold ChipChain.onClock
      split
      · rw [if_pos h.frames]
        exact h
      · split
        · exact hedge _
        · exact h
        · exact ⟨h.mode, h.frames, h.armed⟩
    | le =>
      change (c.onLe ls v).Settled m
      unfold ChipChain.onLe
      split
      · exact h
      · split
        · exact h
        · exact hlatch
        · exact ⟨h.mode, h.frames, h.armed⟩
    | di | oe | dout => exact h
  | _ => exact h

theorem ChipChain.Settled.observe_frameless {es : List Event} (h : c.Settled m) (hes : Frameless es) (ls : Lines) :
    (c.observe ws ls es).Settled m := by
  induction es generalizing ls c with
  | nil => exact h
  | cons e es ih =>
    have hfirst : ∀ f, e ≠ .frm f := by
      rintro f rfl
      exact hes f List.mem_cons_self
    exact ih (h.onEvent hfirst ls) (fun f hf => hes f (List.mem_cons_of_mem e hf)) _

/-- Frames gather until a table ends. -/
theorem ChipChain.observe_frames (fs : List Frame) (ls : Lines) (c : ChipChain) :
    (c.observe ws ls (fs.map Event.frm)).mode = c.mode ∧ (c.observe ws ls (fs.map Event.frm)).armed = c.armed
      ∧ (c.observe ws ls (fs.map Event.frm)).frames = c.frames ++ fs := by
  induction fs generalizing ls c with
  | nil => exact ⟨rfl, rfl, (List.append_nil _).symm⟩
  | cons f fs ih =>
    obtain ⟨hmode, harmed, hframes⟩ := ih (ls.apply (.frm f)) (c.onFrame f)
    exact ⟨hmode, harmed, hframes.trans (List.append_assoc _ _ _)⟩

/-- A table that has frames ends the moment its forced clock low comes (43 R145). -/
theorem ChipChain.observe_playEvents {T : Table} (hT : ws.frames T ≠ []) (hc : c.frames = []) (ls : Lines) :
    ∃ d : ChipChain, d.mode = c.mode ∧ d.armed = c.armed ∧ d.frames = ws.frames T
      ∧ c.observe ws ls (playEvents ws T) = d.endTable ws := by
  obtain ⟨hmode, harmed, hframes⟩ := ChipChain.observe_frames (ws := ws) (ws.frames T) ls c
  rw [hc, List.nil_append] at hframes
  have hend : ∀ (ls : Lines) (d : ChipChain), d.frames = ws.frames T →
      d.observe ws ls [.drv .clk false] = d.endTable ws := by
    intro ls d hd
    change d.onClock ws ls false = d.endTable ws
    rw [ChipChain.onClock, if_pos rfl, if_neg (hd ▸ hT)]
  refine ⟨_, hmode, harmed, hframes, ?_⟩
  rw [playEvents, ChipChain.observe_append]
  exact hend _ _ hframes

/-! ### the ends of the tables -/

/-- The transition table arms the observer (20 R66). -/
theorem ChipChain.endTable_trans (hc : c.frames = ws.frames .trans) :
    c.endTable ws = { c with frames := [], armed := true } := by
  unfold ChipChain.endTable
  exact if_pos hc

theorem ChipChain.endTable_rr (hws : ws.ToldApart) (hc : c.frames = ws.frames .rr) :
    c.endTable ws = { c with frames := [], armed := false } := by
  have htrans : c.frames ≠ ws.trans := fun h => by cases hws.injective .rr .trans (hc.symm.trans h)
  unfold ChipChain.endTable
  exact (if_neg htrans).trans (if_pos hc)

/-- A target table right after the transition table reaches its mode (20 R66, 43 R146). -/
theorem ChipChain.endTable_target (hws : ws.ToldApart) {T : Table} (hT : T.isTarget = true) (hc : c.frames = ws.frames T)
    (harmed : c.armed = true) : (c.endTable ws).Settled (T.modeAfter m) := by
  have hne : ∀ U, U ≠ T → c.frames ≠ ws.frames U := fun U hU h => hU (hws.injective T U (hc.symm.trans h)).symm
  have htrans : c.frames ≠ ws.trans := hne .trans (by rintro rfl; cases hT)
  have hrr : c.frames ≠ ws.rr := hne .rr (by rintro rfl; cases hT)
  cases T with
  | trans | rr => cases hT
  | normal =>
    have hself : c.frames = ws.normal := hc
    simp only [ChipChain.endTable, if_neg htrans, if_neg hrr, if_pos (And.intro harmed hself)]
    exact ⟨rfl, rfl, rfl⟩
  | cfg =>
    have hself : c.frames = ws.cfg := hc
    have hnormal : ¬ (c.armed = true ∧ c.frames = ws.normal) := fun h => hne .normal nofun h.2
    simp only [ChipChain.endTable, if_neg htrans, if_neg hrr, if_neg hnormal, if_pos (And.intro harmed hself)]
    exact ⟨rfl, rfl, rfl⟩
  | ed =>
    have hself : c.frames = ws.ed := hc
    have hnormal : ¬ (c.armed = true ∧ c.frames = ws.normal) := fun h => hne .normal nofun h.2
    have hcfg : ¬ (c.armed = true ∧ c.frames = ws.cfg) := fun h => hne .cfg nofun h.2
    simp only [ChipChain.endTable, if_neg htrans, if_neg hrr, if_neg hnormal, if_neg hcfg,
      if_pos (And.intro harmed hself)]
    exact ⟨rfl, rfl, rfl⟩

end

/-- The observer follows such events to the mode they reach. -/
theorem Switches.observe {ws : WaveTables} {m m' : Mode} {es : List Event} (h : Switches ws m es m')
    (hws : ws.ToldApart) {c : ChipChain} (hc : c.Settled m) (ls : Lines) : (c.observe ws ls es).Settled m' := by
  induction h generalizing c ls with
  | frameless hes => exact hc.observe_frameless hes ls
  | readbackReady =>
    obtain ⟨d, hmode, -, hframes, hend⟩ := ChipChain.observe_playEvents (hws.ne_nil .rr) hc.frames ls
    rw [hend, ChipChain.endTable_rr hws hframes]
    exact ⟨hmode.trans hc.mode, rfl, rfl⟩
  | @switch m T hT =>
    obtain ⟨d, -, -, hframes, hend⟩ := ChipChain.observe_playEvents (hws.ne_nil .trans) hc.frames ls
    rw [ChipChain.endTable_trans hframes] at hend
    obtain ⟨e, -, harmed, hframes', hend'⟩ := ChipChain.observe_playEvents (hws.ne_nil T)
      (c := { d with frames := [], armed := true }) rfl (ls.applyAll (playEvents ws .trans))
    rw [switchEvents, ChipChain.observe_append, hend, hend']
    exact ChipChain.endTable_target hws hT hframes' harmed
  | append _ _ ihe ihf =>
    rw [ChipChain.observe_append]
    exact ihf (ihe hc ls) _

/-- Settles O59: the observer sees the mode switches that a command is made of, and `MODE` records the last of them (20_memory
section 5, log entry 15). -/
theorem modeRecordsTheTablesPlayed : Obligations.ModeRecordsTheTablesPlayed := by
  intro s t c es hdistinct hmode hframes harmed hstep htrace
  have hws := WaveTables.toldApart_of_distinct hdistinct
  have hc : c.Settled s.mode := ⟨hmode, hframes, harmed⟩
  suffices hend : (c.observe s.par.tables s.lines es).Settled t.mode from ⟨hend.mode, hend.frames, hend.armed⟩
  obtain ⟨-, rfl⟩ | ⟨w, rest, -, ⟨cause, -, rfl⟩ | ⟨i, -, hx⟩⟩ := step_cases hstep
  · obtain rfl : es = [] := List.append_right_eq_self.mp htrace.symm
    exact hc
  · obtain rfl : es = [] := List.append_right_eq_self.mp htrace.symm
    exact hc
  · rw [events_of_exec hx htrace, exec_mode hx]
    exact (Switches.command _ s.lines.oem i).observe hws hc s.lines

end Sys2Proof.Machine
end

section
/-! The family other: bits shifted into a chain in Normal mode, and what reaches its drivers (20_memory section 5, 41_shift
section 2), for the observer of log entry 15. The first bit shifted ends deepest in the chain. -/

namespace Sys2Proof.Machine

section
variable {ws : WaveTables} {ls : Lines} {c : ChipChain}

/-! ### shifting -/

/-- The levels of bits in the order the chain holds them, the bit shifted in last at the head (20 R63). -/
def heldLevels (bs : List Bool) : List Level := (bs.map levelOf).reverse

/-- In Normal mode one bit moves the chain on by one: DI is at the bit when CLK rises from low (20 R63). -/
theorem ChipChain.observe_bitEvents (hc : c.inNormal = true) (hclk : ls.lvl.clk = .low) (b : Bool) :
    c.observe ws ls (bitEvents b) = { c with shift := (levelOf b :: c.shift).take c.shift.length } := by
  have hframes : c.frames = [] := by
    simp only [ChipChain.inNormal, Bool.and_eq_true, beq_iff_eq] at hc
    exact hc.1.2
  have hrise : c.onClock ws (ls.apply (.drv .di b)) true = c.onEdge (levelOf b) := by
    have hlow : (ls.apply (.drv .di b)).lvl.clk = .low := hclk
    rw [ChipChain.onClock, if_neg Bool.true_eq_false.mp, hlow]
    rfl
  have hfall : ∀ (ls : Lines) (d : ChipChain), d.frames = [] → d.onClock ws ls false = d := by
    intro ls d hd
    rw [ChipChain.onClock, if_pos rfl, if_pos hd]
  calc
    c.observe ws ls (bitEvents b)
      = (c.onClock ws (ls.apply (.drv .di b)) true).onClock ws ((ls.apply (.drv .di b)).apply (.drv .clk true)) false := rfl
    _ = (c.onEdge (levelOf b)).onClock ws ((ls.apply (.drv .di b)).apply (.drv .clk true)) false := by rw [hrise]
    _ = { c with shift := (levelOf b :: c.shift).take c.shift.length } := by
      rw [ChipChain.onEdge, if_pos hc]
      exact hfall _ _ hframes

/-- Cutting the tail of a list twice at the same length is cutting it once. -/
theorem take_append_take {α : Type} (n : Nat) (as bs : List α) : (as ++ bs.take n).take n = (as ++ bs).take n := by
  rw [List.take_append, List.take_append, List.take_take, Nat.min_eq_left (Nat.sub_le n as.length)]

/-- In Normal mode bits enter at the first chip and push the chain's bits on; nothing else of the chain changes (20 R63). -/
theorem ChipChain.observe_bitsEvents (hc : c.inNormal = true) (hclk : ls.lvl.clk = .low) (bs : List Bool) :
    c.observe ws ls (bitsEvents bs) = { c with shift := (heldLevels bs ++ c.shift).take c.shift.length } := by
  induction bs generalizing ls c with
  | nil => exact congrArg (fun l => { c with shift := l }) (List.take_length).symm
  | cons b bs ih =>
    have hnext : (ls.applyAll (bitEvents b)).lvl.clk = .low := congrArg PerLine.clk (lvl_applyAll_bitEvents ls b)
    have hlen : ((levelOf b :: c.shift).take c.shift.length).length = c.shift.length := by
      rw [List.length_take, List.length_cons, Nat.min_eq_left (Nat.le_succ _)]
    have hheld : heldLevels bs ++ levelOf b :: c.shift = heldLevels (b :: bs) ++ c.shift := by simp [heldLevels]
    rw [bitsEvents_cons, ChipChain.observe_append, ChipChain.observe_bitEvents hc hclk]
    refine (ih (c := { c with shift := (levelOf b :: c.shift).take c.shift.length }) hc hnext).trans ?_
    simp only [hlen, take_append_take, hheld]

/-! ### latching -/

/-- In Normal mode a latch pulse copies the register to the drivers (20 R64). -/
theorem ChipChain.observe_latchEvents (hc : c.inNormal = true) (ls : Lines) :
    c.observe ws ls latchEvents = { c with latch := c.shift } := by
  have hcopy : c.onLatch = { c with latch := c.shift } := by rw [ChipChain.onLatch, if_pos hc]
  exact hcopy

/-! ### the first chip and the next ones -/

theorem length_heldLevels (bs : List Bool) : (heldLevels bs).length = bs.length := by
  rw [heldLevels, List.length_reverse, List.length_map]

/-- The word's bit 0, shifted in last, is at the head (20 R53, R63). -/
theorem heldLevels_wordBits (w : Word) : heldLevels (wordBits w) = (List.range 16).map fun i => levelOf (w.getLsbD i) := by
  simp [heldLevels, wordBits, List.range_succ]

theorem heldLevels_replicate (n : Nat) (level : Bool) :
    heldLevels (List.replicate n level) = List.replicate n (levelOf level) := by
  rw [heldLevels, List.map_replicate, List.reverse_replicate]

/-- Sixteen bits pushed into a chain of whole chips fill the first chip. -/
theorem take_pushed {n : Nat} {new old : List Level} (hnew : new.length = 16) :
    ((new ++ old).take (16 * (n + 1))).take 16 = new := by
  rw [List.take_take, Nat.min_eq_left (by omega), List.take_append_of_le_length hnew.ge, ← hnew, List.take_length]

/-- They push the bits of each chip into the next one. -/
theorem chip_pushed {n k : Nat} (hk : k < n) {new old : List Level} (hnew : new.length = 16) :
    (((new ++ old).take (16 * (n + 1))).drop (16 * (k + 1))).take 16 = (old.drop (16 * k)).take 16 := by
  rw [List.drop_take, List.take_take, Nat.min_eq_left (by omega), List.drop_append, hnew,
    List.drop_eq_nil_of_le (by omega), List.nil_append, show 16 * (k + 1) - 16 = 16 * k by omega]

/-- Settles O57: the word fills the first chip, and each chip's bits move to the next (20 R63, log entry 15). -/
theorem shiftedWordEntersTheFirstChip : Obligations.ShiftedWordEntersTheFirstChip := by
  intro ws w ls c n hc hclk hlen
  have hnew : (heldLevels (wordBits w)).length = 16 := (length_heldLevels _).trans (length_wordBits w)
  rw [ChipChain.observe_bitsEvents hc hclk, hlen]
  refine ⟨?_, fun k hk => chip_pushed hk hnew, rfl⟩
  rw [← heldLevels_wordBits]
  exact take_pushed hnew

/-- In Normal mode, with CLK low, bits and a latch leave the register and the drivers alike (20 R63, R64). -/
theorem ChipChain.observe_bits_latch (hc : c.inNormal = true) (hclk : ls.lvl.clk = .low) (bs : List Bool) :
    c.observe ws ls (bitsEvents bs ++ latchEvents)
      = { c with
          shift := (heldLevels bs ++ c.shift).take c.shift.length
          latch := (heldLevels bs ++ c.shift).take c.shift.length } := by
  rw [ChipChain.observe_append, ChipChain.observe_bitsEvents hc hclk]
  exact ChipChain.observe_latchEvents (c := { c with shift := (heldLevels bs ++ c.shift).take c.shift.length }) hc _

end

/-- Settles O58: SEND shifts its word into the first chip and latches it (41 R115, 20 R64, log entry 15). -/
theorem sentWordReachesTheDrivers : Obligations.SentWordReachesTheDrivers := by
  intro w s c n hcan hle hclk hc hlen
  obtain ⟨t, ht, hran⟩ := exec_send_ran w s
  rw [if_pos hcan, hle] at hran
  refine ⟨t, _, ht, hran.trace, ?_⟩
  rw [show whenWired true latchEvents = latchEvents from rfl, ChipChain.observe_bits_latch hc hclk, hlen,
    ← heldLevels_wordBits]
  exact take_pushed ((length_heldLevels _).trans (length_wordBits w))

/-- Settles O60: ALL shifts as many bits of its level as the chain holds, and latches them (41 R116, 20 R64, log entry 15). -/
theorem allFillsEveryChip : Obligations.AllFillsEveryChip := by
  intro level s c (hcan : s.regs.canShift = true) (hle : s.regs.isWired .le = true) hclk hc hlen
  obtain ⟨t, ht, hran⟩ := exec_ran (i := .all level) rfl s
  have hevents : commandEvents s.regs s.lines.oem (.all level)
      = bitsEvents (List.replicate (16 * s.chain.toNat) level) ++ latchEvents := by
    rw [commandEvents, if_pos hcan, allEvents_eq_bitsEvents, hle, Nat.mul_comm]
    rfl
  have hfill : (heldLevels (List.replicate (16 * s.chain.toNat) level) ++ c.shift).take c.shift.length
      = List.replicate (16 * s.chain.toNat) (levelOf level) := by
    rw [hlen, heldLevels_replicate, List.take_append_of_le_length (by simp), List.take_replicate, Nat.min_self]
  rw [hevents] at hran
  refine ⟨t, _, ht, hran.trace, ?_⟩
  rw [ChipChain.observe_bits_latch hc hclk, hfill]
  exact ⟨rfl, rfl⟩

end Sys2Proof.Machine
end
